-- ==== Sys2Proof/Word.lean ====
section
/-! DEFINITION. The word types of the block, by the widths of 00_scope.md R7, 10_state.md R20 and 20_memory.md R37. -/

namespace Sys2Proof

/-- One byte of buffer memory (20_memory.md R37). -/
abbrev Byte := BitVec 8

/-- One 32-bit register or bus word (10_state.md R20). -/
abbrev Word := BitVec 32

/-- A 4-bit code, `CODE_W` = 4 (00_scope.md R7, 30_encoding.md R54). -/
abbrev Code := BitVec 4

/-- The 16-bit pattern of a PCM sample, `SAMPLE_W` = 16 (00_scope.md R7). -/
abbrev Pattern := BitVec 16

end Sys2Proof
end

