-- ==== Sys2Proof/Syntax.lean ====
section
/-! DEFINITION. The instructions: one constructor for each row of spec/opcode_table.json. -/

namespace Sys2Proof

/-- The 32 rows of the opcode table (00_scope.md R4, 30_encoding.md R55, R62, R63). No instruction
has an operand in its own word: a code is four bits and nothing else (R54), and a command's operands
are the argument registers (R61). -/
inductive Instr where
  /-- `CODE_0` (41_dequantizer_predictor.md R80). -/
  | code0
  /-- `CODE_1` (R81). -/
  | code1
  /-- `CODE_2` (R82). -/
  | code2
  /-- `CODE_3` (R83). -/
  | code3
  /-- `CODE_4` (R84). -/
  | code4
  /-- `CODE_5` (R85). -/
  | code5
  /-- `CODE_6` (R86). -/
  | code6
  /-- `CODE_7` (R87). -/
  | code7
  /-- `CODE_8` (R88). -/
  | code8
  /-- `CODE_9` (R89). -/
  | code9
  /-- `CODE_A` (R90). -/
  | codeA
  /-- `CODE_B` (R91). -/
  | codeB
  /-- `CODE_C` (R92). -/
  | codeC
  /-- `CODE_D` (R93). -/
  | codeD
  /-- `CODE_E` (R94). -/
  | codeE
  /-- `CODE_F` (R95). -/
  | codeF
  /-- `INIT_ENC`, opcode 0x1 (43_stream_codec.md R113). -/
  | initEnc
  /-- `INIT_DEC`, opcode 0x2 (R114). -/
  | initDec
  /-- `ENC_STREAM`, opcode 0x3 (R115). -/
  | encStream
  /-- `DEC_STREAM`, opcode 0x4 (R117). -/
  | decStream
  /-- `CTX_CREATE`, opcode 0x5 (44_block_framer.md R124). -/
  | ctxCreate
  /-- `ENC_BLOCK`, opcode 0x6 (R126 to R129). -/
  | encBlock
  /-- `DEC_BLOCK`, opcode 0x7 (R131 to R134). -/
  | decBlock
  /-- `CTX_FREE`, opcode 0x8 (R125). -/
  | ctxFree
  /-- `STEP`, opcode 0x9 (41_dequantizer_predictor.md R96). -/
  | step
  /-- `CHOOSE`, opcode 0xA (42_lookahead_code_selector.md R109). -/
  | choose
  /-- `RESERVED_0`, opcode 0x0 (30_encoding.md R63). -/
  | reserved0
  /-- `RESERVED_B`, opcode 0xB (R63). -/
  | reservedB
  /-- `RESERVED_C`, opcode 0xC (R63). -/
  | reservedC
  /-- `RESERVED_D`, opcode 0xD (R63). -/
  | reservedD
  /-- `RESERVED_E`, opcode 0xE (R63). -/
  | reservedE
  /-- `RESERVED_F`, opcode 0xF (R63). -/
  | reservedF
  deriving DecidableEq, Repr

end Sys2Proof
end

