-- ==== Sys2Proof/WellFormed.lean ====
section
/-! DEFINITION. Which instructions are well formed. -/

namespace Sys2Proof

/-- Every instruction is well formed. No constructor carries a field, so there is nothing a term
could get wrong: all sixteen codes are legal (30_encoding.md R55), a command word has no field but
its opcode (R61), and a reserved opcode is an instruction with an effect of its own (R63). What can
be ill formed on this hardware is a host register access, which `accessLegal`
(Machine/HostPort.lean) checks. -/
def Instr.wellFormed : Instr → Bool
  | .code0 | .code1 | .code2 | .code3 | .code4 | .code5 | .code6 | .code7 => true
  | .code8 | .code9 | .codeA | .codeB | .codeC | .codeD | .codeE | .codeF => true
  | .initEnc | .initDec | .encStream | .decStream => true
  | .ctxCreate | .encBlock | .decBlock | .ctxFree | .step | .choose => true
  | .reserved0 | .reservedB | .reservedC | .reservedD | .reservedE | .reservedF => true

end Sys2Proof
end

