-- ==== Sys2Proof/Decode.lean ====
section
/-! DEFINITION. Decoding the two instruction formats of 30_encoding.md, `NIB` (R54) and `CMD` (R61),
the packed byte (R56), and after them the encoder. -/

namespace Sys2Proof

/-- One encoded instruction, in one of the two formats. -/
inductive Encoded where
  /-- Format `NIB`: a 4-bit code (30_encoding.md R54). -/
  | nib (c : Code)
  /-- Format `CMD`: the 32-bit value written to register `CMD` (30_encoding.md R61). -/
  | cmd (v : Word)
  deriving DecidableEq, Repr

/-- Why a run of bytes is no instruction. -/
inductive DecodeError where
  /-- No format of 30_encoding.md R53 has this many bytes: a code comes in one packed byte, a command
  word in four. Raised by `encodedOfBytes`; safe. -/
  | noFormatOfLength (n : Nat)
  deriving DecidableEq, Repr

/-- The instruction of a code, read from its bits `S M2 M1 M0` (30_encoding.md R54, R55). All
sixteen are legal. -/
def decodeCode (c : Code) : Instr :=
  match c.getLsbD 3, c.getLsbD 2, c.getLsbD 1, c.getLsbD 0 with
  | false, false, false, false => .code0
  | false, false, false, true => .code1
  | false, false, true, false => .code2
  | false, false, true, true => .code3
  | false, true, false, false => .code4
  | false, true, false, true => .code5
  | false, true, true, false => .code6
  | false, true, true, true => .code7
  | true, false, false, false => .code8
  | true, false, false, true => .code9
  | true, false, true, false => .codeA
  | true, false, true, true => .codeB
  | true, true, false, false => .codeC
  | true, true, false, true => .codeD
  | true, true, true, false => .codeE
  | true, true, true, true => .codeF

/-- The instruction of a command word: bits 3:0 are the opcode, bits 31:4 are ignored
(30_encoding.md R61, R62, R63; 10_state.md R21). -/
def decodeCommand (v : Word) : Instr :=
  match v.getLsbD 3, v.getLsbD 2, v.getLsbD 1, v.getLsbD 0 with
  | false, false, false, false => .reserved0
  | false, false, false, true => .initEnc
  | false, false, true, false => .initDec
  | false, false, true, true => .encStream
  | false, true, false, false => .decStream
  | false, true, false, true => .ctxCreate
  | false, true, true, false => .encBlock
  | false, true, true, true => .decBlock
  | true, false, false, false => .ctxFree
  | true, false, false, true => .step
  | true, false, true, false => .choose
  | true, false, true, true => .reservedB
  | true, true, false, false => .reservedC
  | true, true, false, true => .reservedD
  | true, true, true, false => .reservedE
  | true, true, true, true => .reservedF

/-- The instruction of one encoded unit. Total: neither format has an illegal value. -/
def decode : Encoded → Instr
  | .nib c => decodeCode c
  | .cmd v => decodeCommand v

/-- The code of the earlier sample in a packed byte, bits 3:0 (30_encoding.md R56). -/
def earlierCode (b : Byte) : Code := b.extractLsb' 0 4

/-- The code of the later sample in a packed byte, bits 7:4 (30_encoding.md R56). -/
def laterCode (b : Byte) : Code := b.extractLsb' 4 4

/-- The unit a run of bytes holds: one byte is a packed byte, whose first instruction is the earlier
code (R56); four bytes are a command word, least significant byte first (20_memory.md R39). Every
other length is rejected by name. -/
def encodedOfBytes : List Byte → Except DecodeError Encoded
  | [b] => .ok (.nib (earlierCode b))
  | [b0, b1, b2, b3] => .ok (.cmd (b3 ++ b2 ++ b1 ++ b0))
  | bs => .error (.noFormatOfLength bs.length)

/-- The bytes of an instruction of `nbits` bits whose bits are `w`, bit 0 the least significant bit
of the first byte (spec/opcode_table.json's numbering). -/
def tableBytes (nbits w : Nat) : List Byte :=
  (List.range ((nbits + 7) / 8)).map fun i => BitVec.ofNat 8 (w >>> (8 * i))

/-- The unit of a row of spec/opcode_table.json given by its bits. -/
def encodedOfTable (nbits w : Nat) : Except DecodeError Encoded :=
  encodedOfBytes (tableBytes nbits w)

/-- What the decoder reads from an instruction of `nbits` bits whose bits are `w`. -/
def decodeTableWord (nbits w : Nat) : Option Instr :=
  match encodedOfTable nbits w with
  | .ok e => some (decode e)
  | .error _ => none

/-- The encoding of an instruction: the `encoding` column of spec/opcode_table.json (30_encoding.md
R55, R62, R63), with 0 in the bits 31:4 a command word ignores. -/
def encode : Instr → Encoded
  | .code0 => .nib 0b0000#4
  | .code1 => .nib 0b0001#4
  | .code2 => .nib 0b0010#4
  | .code3 => .nib 0b0011#4
  | .code4 => .nib 0b0100#4
  | .code5 => .nib 0b0101#4
  | .code6 => .nib 0b0110#4
  | .code7 => .nib 0b0111#4
  | .code8 => .nib 0b1000#4
  | .code9 => .nib 0b1001#4
  | .codeA => .nib 0b1010#4
  | .codeB => .nib 0b1011#4
  | .codeC => .nib 0b1100#4
  | .codeD => .nib 0b1101#4
  | .codeE => .nib 0b1110#4
  | .codeF => .nib 0b1111#4
  | .reserved0 => .cmd 0x00000000#32
  | .initEnc => .cmd 0x00000001#32
  | .initDec => .cmd 0x00000002#32
  | .encStream => .cmd 0x00000003#32
  | .decStream => .cmd 0x00000004#32
  | .ctxCreate => .cmd 0x00000005#32
  | .encBlock => .cmd 0x00000006#32
  | .decBlock => .cmd 0x00000007#32
  | .ctxFree => .cmd 0x00000008#32
  | .step => .cmd 0x00000009#32
  | .choose => .cmd 0x0000000A#32
  | .reservedB => .cmd 0x0000000B#32
  | .reservedC => .cmd 0x0000000C#32
  | .reservedD => .cmd 0x0000000D#32
  | .reservedE => .cmd 0x0000000E#32
  | .reservedF => .cmd 0x0000000F#32

/-- The packed byte of two codes, `later :: earlier` (30_encoding.md R56). -/
def packByte (earlier later : Code) : Byte := later ++ earlier

end Sys2Proof
end

