-- ==== Sys2Proof/Config.lean ====
section
/-! DEFINITION. What an implementation fixes (00_scope.md R7) and the two free values. The OPEN
parameters `NCH_MAX`, `BASE` and `MemAdmit` are carried by the state as data that no step changes
(Machine/State.lean), so a statement about every state holds for every value of them; here stand only
the values `State.reset` gives them. -/

namespace Sys2Proof.Config

/-- The two values `ERR_METRIC` may take (42_lookahead_code_selector.md R101, 93 U1). -/
inductive ErrMetric where
  /-- `Err(r, t) = (r - t)^2`. -/
  | squared
  /-- `Err(r, t) = abs(r - t)`. -/
  | absolute
  deriving DecidableEq, Repr

/-- FREE VALUE: the step size at an index outside 0..88. 40_step_table.md R70 says `StepSize` is never
called there, and gives no value. It has no body, so nothing can be proved of it (log 7; safe). -/
opaque stepOutside : Nat → Nat

/-- FREE VALUE: the sample at a position past the end of a window. The precondition of
42_lookahead_code_selector.md R98 rules such a position out, and no instruction reaches one. It has no
body, so nothing can be proved of it (log 12; safe). -/
opaque sampleOutside : Int

/-- `NCH_MAX` of `State.reset`: DESIGN CHOICE, the least for which every vector of
95_test_vectors.md has its channels (00_scope.md R8; log 2; unsafe for a statement about
`State.reset` alone). -/
def resetChannels : Nat := 2

/-- `BASE` of `State.reset`: DESIGN CHOICE (log 3). -/
def resetBase : Nat := 0xFFFFF800

/-- What a byte of memory that nothing has written reads as: DESIGN CHOICE (log 4; unsafe for a
statement about `State.reset` alone). 20_memory.md gives unwritten memory no value (70 R153, 93 U7:
any value), and a statement about every memory covers every content. -/
def unlistedByte : Byte := 0x00

end Sys2Proof.Config
end

