-- ==== Sys2Proof/Machine/State.lean ====
section
/-! DEFINITION. The state of the machine (10_state.md R13), plain data, its reset (R35, 70 R151), and
the reasons a step can stop. -/

namespace Sys2Proof.Machine

/-- One channel state register `CH[c]` (10_state.md R14): `PRED`, 16 bits two's complement (R15), and
`INDEX`, 8 bits unsigned (R16). -/
structure Chan where
  pred : Pattern
  index : Byte
  deriving DecidableEq, Repr

/-- The context fields of `STATUS` (10_state.md R19, 44_block_framer.md R123). -/
structure Context where
  valid : Bool
  nch : Byte
  la : Byte
  deriving DecidableEq, Repr

/-- The argument registers, each as wide as the bits it stores (10_state.md R20, R22 to R27, R31). -/
structure Args where
  srcAddr : Word
  dstAddr : Word
  count : Word
  lookahead : Byte
  nch : Byte
  chsel : Byte
  sample : Pattern
  index : Byte
  code : Code
  deriving DecidableEq, Repr

/-- The result registers `RES_CODE`, `RES_ERR`, `RES_SAMPLE` (10_state.md R29). -/
structure Results where
  code : Code
  err : Word
  sample : Word
  deriving DecidableEq, Repr

/-- The `RESULT` bit: 0 SUCCESS, 1 INVALID_PARAM (60_exceptions.md R137). -/
inductive Result where
  | success
  | invalidParam
  deriving DecidableEq, Repr

/-- A run of byte addresses, `addr .. addr + len - 1`. -/
structure Span where
  addr : Nat
  len : Nat
  deriving DecidableEq, Repr

/-- The OPEN parameters of the platform (00_scope.md R7), held as data that no step changes (log 3):
`BASE`; the addresses `MemAdmit` admits, as runs; and the runs that belong to other devices
(93_implementation_defined.md U5). -/
structure Platform where
  base : Nat
  ram : List Span
  devices : List Span
  deriving DecidableEq, Repr

/-- The size of a host access to the register window (10_state.md R31, 93 U6). -/
inductive AccessSize where
  | byte
  | half
  | word
  deriving DecidableEq, Repr

/-- One thing the outside world does to the block. All but `code` are the host's actions (10_state.md
R36, 70_reset_and_hazards.md R151, R164); `code` is the model's own (log 5). -/
inductive Input where
  /-- A write of `v` at offset `off` of the 0x800-byte register window. -/
  | regWrite (off : BitVec 11) (size : AccessSize) (v : Word)
  /-- A read at offset `off` of the register window. -/
  | regRead (off : BitVec 11) (size : AccessSize)
  /-- A store of one byte to memory between commands. -/
  | memWrite (addr : Word) (b : Byte)
  /-- A load of one byte of memory between commands. -/
  | memRead (addr : Word)
  /-- The platform's reset. -/
  | reset
  /-- One code handed to the dequantizer, for the channel `CHSEL` selects. -/
  | code (c : Code)
  deriving DecidableEq, Repr

/-- The whole state (10_state.md R13), beside the model's own fields `platform`, `pending`, `busRead`. -/
structure State where
  /-- The platform's parameters (log 3); changed by nothing. -/
  platform : Platform
  /-- `CH[0] .. CH[NCH_MAX-1]`; its length is `NCH_MAX` (10_state.md R14; log 2). -/
  ch : List Chan
  /-- `CTX_VALID`, `CTX_NCH`, `CTX_LA` (R19). -/
  ctx : Context
  /-- `RESULT` (R19). -/
  result : Result
  /-- The argument registers (R20). -/
  args : Args
  /-- `OUT_COUNT` (R28). -/
  outCount : Word
  /-- `RES_CODE`, `RES_ERR`, `RES_SAMPLE` (R29). -/
  res : Results
  /-- `ERR_ACC` (R30). -/
  errAcc : BitVec 64
  /-- `MEM` (20_memory.md R37): addresses rising, no entry that equals what an unlisted address reads. -/
  mem : List Host.Cell
  /-- The inputs the block has still to take, oldest first (log 1). -/
  pending : List Input
  /-- What the host's last read returned (10_state.md R36; log 1). -/
  busRead : Word
  deriving DecidableEq, Repr

/-- Why the machine has no next state although the spec defines the instruction's operands: it is
stuck. -/
inductive Fault where
  /-- An access needs a byte the platform does not admit (20_memory.md R44, 93 U4: stuck). Raised by
  every command that uses a buffer, and by a host load or store. Safe. -/
  | unadmittedByte
  /-- ENC_BLOCK with a context of more channels than the instance has. No reachable state holds one
  (10_state.md R19: `CTX_NCH` is 1..NCH_MAX), and the invariant `State.Inv` excludes it. Safe. -/
  | contextBeyondChannels
  deriving DecidableEq, Repr

/-- Why the model gives no meaning. -/
inductive Refusal where
  /-- An instruction without a meaning yet. Raised by `exec` only. Safe. -/
  | notModelled (mnemonic : String)
  /-- A host register access that is not an aligned 32-bit one (10_state.md R31, 93 U6). Raised by the
  host port. Safe. -/
  | registerAccess
  /-- A buffer extent runs past address 2^32 - 1 (20_memory.md R49, 93 U3). Raised by every command
  that uses a buffer. Safe. -/
  | bufferWraps
  /-- The input and the output extent share a byte (20_memory.md R49, 93 U3). Raised by ENC_STREAM,
  DEC_STREAM, ENC_BLOCK, DEC_BLOCK. Safe. -/
  | buffersOverlap
  /-- An extent covers the register window or another device (20_memory.md R43, 93 U5). Raised by
  every command that uses a buffer, and by a host load or store. Safe. -/
  | deviceAccess
  /-- A code handed over alone while `CHSEL` selects no channel: "no code has meaning outside the
  AdaptiveState that produced/consumes it" (30_encoding.md R54; log 5). Raised by the sixteen codes.
  Safe. -/
  | codeWithoutChannel
  deriving DecidableEq, Repr

/-- What a step answers. -/
abbrev Outcome := Host.Outcome State Fault Refusal

/-- The register file right after reset, for an instance with `n` channels (10_state.md R35: every
register 0), over a memory that reset does not touch (70_reset_and_hazards.md R151). -/
def State.resetOf (p : Platform) (n : Nat) (mem : List Host.Cell) (pending : List Input)
    (busRead : Word) : State where
  platform := p
  ch := List.replicate n ⟨0, 0⟩
  ctx := ⟨false, 0, 0⟩
  result := .success
  args := ⟨0, 0, 0, 0, 0, 0, 0, 0, 0⟩
  outCount := 0
  res := ⟨0, 0, 0⟩
  errAcc := 0
  mem := mem
  pending := pending
  busRead := busRead

/-- The platform of `State.reset`: DESIGN CHOICE (log 3), memory at every address below the window. -/
def Platform.default : Platform where
  base := Config.resetBase
  ram := [⟨0, Config.resetBase⟩]
  devices := []

/-- The machine right after reset: all registers 0 (10_state.md R35), nothing listed in memory,
nothing pending. -/
def State.reset : State := State.resetOf Platform.default Config.resetChannels [] [] 0

end Sys2Proof.Machine
end

