-- ==== Sys2Proof/Machine/Ops.lean ====
section
/-! DEFINITION. The named operations over memory and registers: bytes and halfwords of `MEM`
(20_memory.md R40, R41), the buffer checks (R43, R44, R49), the channel registers, and the two ways a
command ends (60_exceptions.md R142, R143). -/

namespace Sys2Proof.Machine

/-- The contents of `MEM`: the listed bytes. -/
abbrev Memory := List Host.Cell

/-- The canonical form of a memory: addresses strictly rising and below 2^32, no entry equal to what
an unlisted address reads as. -/
def Memory.wf : Memory → Bool
  | [] => true
  | (a, b) :: rest =>
    decide (a < 2 ^ 32) && (b != Config.unlistedByte) && rest.all (fun e => decide (a < e.1)) &&
      Memory.wf rest

/-- `MemRead(a, 1)` (20_memory.md R40): the byte at address `a`. -/
def readByte : Memory → Nat → Byte
  | [], _ => Config.unlistedByte
  | (k, b) :: rest, a => if k = a then b else readByte rest a

/-- `MemRead(a, 2)`: low byte at the lower address (20_memory.md R39, R40). -/
def readHalf (m : Memory) (a : Nat) : Pattern := readByte m (a + 1) ++ readByte m a

/-- The `n` bytes from address `a` up. -/
def readBytes (m : Memory) (a n : Nat) : List Byte := (List.range n).map fun i => readByte m (a + i)

/-- `MemWrite(a, 1, v)` (20_memory.md R41), keeping the canonical form. -/
def writeByte : Memory → Nat → Byte → Memory
  | [], a, v => if v = Config.unlistedByte then [] else [(a, v)]
  | (k, b) :: rest, a, v =>
    if a < k then
      if v = Config.unlistedByte then (k, b) :: rest else (a, v) :: (k, b) :: rest
    else if a = k then
      if v = Config.unlistedByte then rest else (a, v) :: rest
    else (k, b) :: writeByte rest a v

/-- Writes a run of bytes from address `a` up, one `MemWrite` each. -/
def writeBytes : Memory → Nat → List Byte → Memory
  | m, _, [] => m
  | m, a, v :: vs => writeBytes (writeByte m a v) (a + 1) vs

/-- The two bytes of a halfword, low byte first (20_memory.md R39, R41). -/
def halfBytes (v : Pattern) : List Byte := [v.extractLsb' 0 8, v.extractLsb' 8 8]

/-- The address lies in the run. -/
def Span.holds (r : Span) (a : Nat) : Bool := decide (r.addr ≤ a) && decide (a < r.addr + r.len)

/-- The run goes past address 2^32 - 1 (20_memory.md R49). -/
def Span.wraps (r : Span) : Bool := decide (2 ^ 32 < r.addr + r.len)

/-- The two runs share a byte (20_memory.md R49). -/
def Span.meets (r t : Span) : Bool :=
  decide (max r.addr t.addr < min (r.addr + r.len) (t.addr + t.len))

/-- The register window of the block, 0x800 bytes at `BASE` (10_state.md R20, 20_memory.md R44). -/
def Platform.window (p : Platform) : Span := ⟨p.base, 0x800⟩

/-- The address belongs to the register window or another device (20_memory.md R43, 93 U5). -/
def Platform.isDevice (p : Platform) (a : Nat) : Bool :=
  p.window.holds a || p.devices.any (·.holds a)

/-- `MemAdmit`: the platform memory backs the address (00_scope.md R7, 20_memory.md R44). -/
def Platform.backs (p : Platform) (a : Nat) : Bool := p.ram.any (·.holds a)

/-- Every byte of the run is memory: none belongs to a device. -/
def Platform.clearOfDevices (p : Platform) (r : Span) : Bool :=
  (List.range r.len).all fun i => !p.isDevice (r.addr + i)

/-- Every byte of the run is admitted. -/
def Platform.backsAll (p : Platform) (r : Span) : Bool :=
  (List.range r.len).all fun i => p.backs (r.addr + i)

/-- Runs `body`, a command's effect over its input and output extents (20_memory.md R48), where the
spec defines it: neither extent wraps and they share no byte (R49, else refused, 93 U3), both are
memory and not a device (R43, else refused, 93 U5), and the platform admits every byte (R44, else
stuck, 93 U4). An empty extent passes every check. -/
def withBuffers (s : State) (input output : Span) (body : Outcome) : Outcome :=
  if input.wraps || output.wraps then .refused .bufferWraps
  else if input.meets output then .refused .buffersOverlap
  else if !(s.platform.clearOfDevices input && s.platform.clearOfDevices output) then
    .refused .deviceAccess
  else if !(s.platform.backsAll input && s.platform.backsAll output) then .fault .unadmittedByte
  else body

/-- The extent of a buffer a command does not use (20_memory.md R48 'none'). -/
def noBuffer : Span := ⟨0, 0⟩

/-- `NCH_MAX` of this instance (00_scope.md R7, 10_state.md R14). -/
def State.nchMax (s : State) : Nat := s.ch.length

/-- `CH[CHSEL]`, or nothing when `CHSEL >= NCH_MAX` (60_exceptions.md R140). -/
def State.selected (s : State) : Option Chan := s.ch[s.args.chsel.toNat]?

/-- `CH[CHSEL] <- c`. -/
def State.setSelected (s : State) (c : Chan) : State :=
  { s with ch := s.ch.set s.args.chsel.toNat c }

/-- `CH[0 .. k-1] <- cs`, the `k` channels of a block or a context; the others keep their values. -/
def State.setFirst (s : State) (cs : List Chan) : State :=
  { s with ch := cs ++ s.ch.drop cs.length }

/-- `ERR_ACC <- (ERR_ACC + e) mod 2^64` (43_stream_codec.md R112). -/
def State.addError (s : State) (e : Nat) : State := { s with errAcc := s.errAcc + BitVec.ofNat 64 e }

/-- `ERR_ACC <- 0` (10_state.md R30). -/
def State.clearError (s : State) : State := { s with errAcc := 0 }

/-- Stores a command's output bytes from address `a` up. -/
def State.store (s : State) (a : Nat) (bs : List Byte) : State :=
  { s with mem := writeBytes s.mem a bs }

/-- Sets `CTX_VALID`, `CTX_NCH`, `CTX_LA` (10_state.md R19). -/
def State.setContext (s : State) (c : Context) : State := { s with ctx := c }

/-- `RES_CODE <- c; RES_ERR <- e` (42_lookahead_code_selector.md R109). The error is below 2^32 (R101). -/
def State.setChoice (s : State) (c : Code) (e : Nat) : State :=
  { s with res := { s.res with code := c, err := BitVec.ofNat 32 e } }

/-- `RES_SAMPLE <- r` sign-extended to 32 bits (41_dequantizer_predictor.md R96). -/
def State.setSample (s : State) (r : Int) : State :=
  { s with res := { s.res with sample := BitVec.ofInt 32 r } }

/-- `OUT_COUNT <- n; done`: SUCCESS completion (60_exceptions.md R142). -/
def complete (s : State) (n : Nat) : Outcome :=
  .next { s with result := .success, outCount := BitVec.ofNat 32 n }

/-- `fail INVALID_PARAM`, this block's one exception (60_exceptions.md R143): `RESULT <- 1`,
`OUT_COUNT <- 0`, nothing else. Nothing is saved, control goes nowhere (R146), and there is nothing to
return from (R147): the next command runs as any other. -/
def failInvalidParam (s : State) : Outcome := .next { s with result := .invalidParam, outCount := 0 }

end Sys2Proof.Machine
end

