-- ==== Sys2Proof/Machine/Primitives.lean ====
section
/-! DEFINITION. The primitives of 00_scope.md R10. -/

namespace Sys2Proof.Machine

/-- `clip(v, lo, hi)` (00_scope.md R10). -/
def clip (v lo hi : Int) : Int := if v < lo then lo else if v > hi then hi else v

/-- `u16(s)`: the 16-bit pattern of a signed sample (00_scope.md R10). -/
def u16 (s : Int) : Pattern := BitVec.ofInt 16 s

/-- `sext_16(v)` (00_scope.md R10). -/
def sext16 (v : Pattern) : Int := v.toInt

/-- `sext_32(v)` (00_scope.md R10). -/
def sext32 (v : Word) : Int := v.toInt

end Sys2Proof.Machine
end

