-- ==== Sys2Proof/Machine/Operands.lean ====
section
/-! DEFINITION. Operand assembly (30_encoding.md R65): the argument registers as numbers, the channel
state, the samples of PCM buffers (20_memory.md R46, R47), the codes of packed bytes (R56, R57), and
the block header (R58). -/

namespace Sys2Proof.Machine

/-- An AdaptiveState `(p, x)`: predicted sample and step index (00_scope.md R12), as the unbounded
integers the rules compute on (R9, 41_dequantizer_predictor.md R78). -/
structure Adaptive where
  p : Int
  x : Nat
  deriving DecidableEq, Repr

/-- `(CH[c].PRED, CH[c].INDEX)` as numbers (10_state.md R15, R16). -/
def Chan.state (c : Chan) : Adaptive := ⟨sext16 c.pred, c.index.toNat⟩

/-- The channel register that holds a state. The narrowing loses nothing on the domain of
41_dequantizer_predictor.md R75. -/
def Adaptive.chan (a : Adaptive) : Chan := ⟨u16 a.p, BitVec.ofNat 8 a.x⟩

/-- The 32-bit word of a channel state, `0x00 :: INDEX :: u16(PRED)` (10_state.md R14, 30_encoding.md
R66). -/
def Chan.word (c : Chan) : Word := 0#8 ++ c.index ++ c.pred

/-- `sext_32(COUNT)` (10_state.md R23). -/
def State.count (s : State) : Int := sext32 s.args.count

/-- `LOOKAHEAD[7:0]` (10_state.md R24). -/
def State.lookahead (s : State) : Nat := s.args.lookahead.toNat

/-- `NCH[7:0]` (10_state.md R25). -/
def State.nchArg (s : State) : Nat := s.args.nch.toNat

/-- `SRC_ADDR` as a byte address (10_state.md R22). -/
def State.src (s : State) : Nat := s.args.srcAddr.toNat

/-- `DST_ADDR` as a byte address (10_state.md R22). -/
def State.dst (s : State) : Nat := s.args.dstAddr.toNat

/-- A required buffer is absent: its address register is 0 (20_memory.md R45). -/
def State.srcAbsent (s : State) : Bool := s.args.srcAddr == 0

/-- As `srcAbsent`, for `DST_ADDR` (20_memory.md R45). -/
def State.dstAbsent (s : State) : Bool := s.args.dstAddr == 0

/-- `NCH` is a channel count of this instance: `1 <= NCH <= NCH_MAX` (60_exceptions.md R141). -/
def State.nchLegal (s : State) : Bool := decide (1 ≤ s.nchArg) && decide (s.nchArg ≤ s.nchMax)

/-- An index byte that arrives from outside is legal iff it is at most 88 (10_state.md R16). -/
def indexLegal (b : Byte) : Bool := decide (b.toNat ≤ 88)

/-- The signed sample at byte address `a` (20_memory.md R40). -/
def readSample (m : Memory) (a : Nat) : Int := sext16 (readHalf m a)

/-- The `len` samples of channel `c` of an `n`-channel PCM buffer at `a`: sample `i` is at
`a + 2*(i*n + c)` (20_memory.md R47; with `n` = 1 and `c` = 0, R46). -/
def readSamples (m : Memory) (a n c len : Nat) : List Int :=
  (List.range len).map fun i => readSample m (a + 2 * (i * n + c))

/-- The sample at the position a window starts from, `W[k]` for the window from `k` on
(42_lookahead_code_selector.md R98). An empty window is outside R98's precondition, and there the
sample is a free value, the model's choice (DESIGN CHOICE, log 12; safe). -/
def headSample (w : List Int) : Int := w.headD Config.sampleOutside

/-- The bytes of a signed sample in a PCM buffer, low byte first (20_memory.md R41). -/
def sampleBytes (r : Int) : List Byte := halfBytes (u16 r)

/-- The two codes of each byte, the earlier sample's first (30_encoding.md R56). -/
def unpackCodes (bs : List Byte) : List Code := bs.flatMap fun b => [earlierCode b, laterCode b]

/-- The packed bytes of a code sequence: byte `j` holds code `2j` in bits 3:0 and code `2j+1` in bits
7:4, which are 0 when the count is odd (30_encoding.md R57). -/
def packCodes : List Code → List Byte
  | [] => []
  | [c] => [packByte c 0]
  | c :: d :: rest => packByte c d :: packCodes rest

/-- `ceil(N/2)`, the bytes of `N` codes (30_encoding.md R57). -/
def packedLength (n : Nat) : Nat := (n + 1) / 2

/-- A block header as read (30_encoding.md R58). -/
structure Header where
  sample : Pattern
  index : Byte
  reserved : Byte
  deriving DecidableEq, Repr

/-- The header of channel `c` of the block at `a` (30_encoding.md R58, 44_block_framer.md R132). -/
def readHeader (m : Memory) (a c : Nat) : Header where
  sample := readHalf m (a + 4 * c)
  index := readByte m (a + 4 * c + 2)
  reserved := readByte m (a + 4 * c + 3)

/-- The header check: index at most 88 and reserved byte exactly 0 (44_block_framer.md R132). -/
def Header.legal (h : Header) : Bool := indexLegal h.index && (h.reserved == 0)

/-- The four bytes of a block header (30_encoding.md R58, 44_block_framer.md R127). -/
def headerBytes (sample : Pattern) (index : Byte) : List Byte := halfBytes sample ++ [index, 0]

end Sys2Proof.Machine
end

