-- ==== Sys2Proof/Machine/Tables.lean ====
section
/-! DEFINITION. The constant tables of 40_step_table.md and the parameters this hardware fixes. -/

namespace Sys2Proof.Machine

/-- `INDEX_MAX`: the largest step index (00_scope.md R7). -/
def indexMax : Nat := 88

/-- `ERR_METRIC` of this hardware (00_scope.md R7, 42_lookahead_code_selector.md R101). -/
def errMetric : Config.ErrMetric := .squared

/-- `STEP_TABLE`, the 89 step sizes (40_step_table.md R70). The spec marks the values as general
knowledge, the standard IMA/DVI table (log 6). -/
def stepTable : List Nat :=
  [7, 8, 9, 10, 11, 12, 13, 14, 16, 17] ++
  ([19, 21, 23, 25, 28, 31, 34, 37, 41, 45] ++
  ([50, 55, 60, 66, 73, 80, 88, 97, 107, 118] ++
  ([130, 143, 157, 173, 190, 209, 230, 253, 279, 307] ++
  ([337, 371, 408, 449, 494, 544, 598, 658, 724, 796] ++
  ([876, 963, 1060, 1166, 1282, 1411, 1552, 1707, 1878, 2066] ++
  ([2272, 2499, 2749, 3024, 3327, 3660, 4026, 4428, 4871, 5358] ++
  ([5894, 6484, 7132, 7845, 8630, 9493, 10442, 11487, 12635, 13899] ++
  [15289, 16818, 18500, 20350, 22385, 24623, 27086, 29794, 32767])))))))

/-- `StepSize(x)` (40_step_table.md R70). Outside 0..88, where the spec never calls it, a free value
(log 7). -/
def stepSize (x : Nat) : Nat := stepTable[x]?.getD (Config.stepOutside x)

/-- `IndexDelta(m)` for the 3-bit magnitude `m` (40_step_table.md R72). -/
def indexDelta (m : BitVec 3) : Int := [-1, -1, -1, -1, 2, 4, 6, 8].getD m.toNat 0

end Sys2Proof.Machine
end

