-- ==== Sys2Proof/Machine/Dequantizer.lean ====
section
/-! DEFINITION. dequantizer_predictor: the transition function (41_dequantizer_predictor.md R75 to R79)
and the command STEP (R96). -/

namespace Sys2Proof.Machine

/-- The magnitude of a code, bits 2:0 (30_encoding.md R54). -/
def magnitude (c : Code) : BitVec 3 := c.extractLsb' 0 3

/-- The sum of truncated shifts that the bits of the magnitude select (41_dequantizer_predictor.md
R76), before the sign. -/
def deltaMagnitude (step : Nat) (c : Code) : Nat :=
  (step >>> 3) + (if c.getLsbD 0 then step >>> 2 else 0) + (if c.getLsbD 1 then step >>> 1 else 0) +
    (if c.getLsbD 2 then step else 0)

/-- `Delta(step, code)` (41_dequantizer_predictor.md R76). -/
def delta (step : Nat) (c : Code) : Int :=
  if c.getLsbD 3 then -(deltaMagnitude step c : Int) else (deltaMagnitude step c : Int)

/-- The predicted sample after adding `d`: `clip(p + d, -32768, 32767)` (R77). -/
def clipSample (v : Int) : Int := clip v (-32768) 32767

/-- The step index after adding `d`: `clip(x + d, 0, 88)` (R77). -/
def clipIndex (v : Int) : Nat := (clip v 0 indexMax).toNat

/-- `Transition((p, x), code)` (41_dequantizer_predictor.md R77): the new state and the reconstructed
sample, both from the old state. -/
def transition (s : Adaptive) (c : Code) : Adaptive × Int :=
  let p' := clipSample (s.p + delta (stepSize s.x) c)
  let x' := clipIndex ((s.x : Int) + indexDelta (magnitude c))
  (⟨p', x'⟩, p')

/-- STEP (41_dequantizer_predictor.md R96). -/
def execStep (s : State) : Outcome :=
  match s.selected with
  | none => failInvalidParam s
  | some ch =>
    let t := transition ch.state s.args.code
    complete ((s.setSelected t.1.chan).setSample t.2) 0

end Sys2Proof.Machine
end

