-- ==== Sys2Proof/Machine/Selector.lean ====
section
/-! DEFINITION. lookahead_code_selector: the greedy code, the error metric, the bounded search and the
command CHOOSE (42_lookahead_code_selector.md R98 to R110). A window and a position of the spec are
here one list, the window from that position on: its head is the target, its tail the future. -/

namespace Sys2Proof.Machine

/-- `Greedy((p, x), t)` (42_lookahead_code_selector.md R99). A zero difference takes sign 0. -/
def greedy (s : Adaptive) (t : Int) : Code :=
  let d := t - s.p
  let mag := min 7 ((d.natAbs <<< 2) / stepSize s.x)
  BitVec.ofNat 4 (if d < 0 then 8 + mag else mag)

/-- `Err(r, t)` under a metric (42_lookahead_code_selector.md R101). -/
def err : Config.ErrMetric → Int → Int → Nat
  | .squared, r, t => ((r - t) * (r - t)).toNat
  | .absolute, r, t => (r - t).natAbs

/-- What `Search` returns: `(bestCode, bestImm, bestTotal)` (42_lookahead_code_selector.md R103). -/
structure Choice where
  code : Code
  imm : Nat
  total : Nat
  deriving DecidableEq, Repr

/-- The sixteen codes in ascending order (42_lookahead_code_selector.md R105). -/
def allCodes : List Code := (List.range 16).map (BitVec.ofNat 4)

/-- One candidate of step 5 of `Search` (R103): pruned when its immediate error is strictly greater
than the best total (R104), else taken when its total is strictly smaller (R105). `sub` is the total
of the levels below. -/
def tryCode (m : Config.ErrMetric) (s : Adaptive) (t : Int) (sub : Adaptive → Nat) (best : Choice)
    (c : Code) : Choice :=
  let tr := transition s c
  let ec := err m tr.2 t
  if ec > best.total then best
  else
    let tot := ec + sub tr.1
    if tot < best.total then ⟨c, ec, tot⟩ else best

/-- `Search(s, W, k, depth)` over the window from position `k` on (42_lookahead_code_selector.md
R103): the greedy code first, then the other fifteen in ascending order. R98 requires `depth` samples
after the first. In a shorter window, which no instruction gives, the search goes on with the free
value of `headSample` for each missing sample: the model's choice (DESIGN CHOICE, log 12; safe). -/
def search (m : Config.ErrMetric) : Nat → Adaptive → List Int → Choice
  | 0, s, w =>
    let t := headSample w
    let g := greedy s t
    let eg := err m (transition s g).2 t
    ⟨g, eg, eg⟩
  | depth + 1, s, w =>
    let t := headSample w
    let g := greedy s t
    let tr := transition s g
    let eg := err m tr.2 t
    let sub := fun s' => (search m depth s' w.tail).total
    (allCodes.filter (· != g)).foldl (tryCode m s t sub) ⟨g, eg, eg + sub tr.1⟩

/-- CHOOSE (42_lookahead_code_selector.md R109). -/
def execChoose (s : State) : Outcome :=
  match s.selected with
  | none => failInvalidParam s
  | some ch =>
    if s.srcAbsent then failInvalidParam s
    else if s.count ≤ 0 then failInvalidParam s
    else
      let depth := min s.lookahead (s.count.toNat - 1)
      withBuffers s ⟨s.src, 2 * (1 + depth)⟩ noBuffer <|
        let w := readSamples s.mem s.src 1 0 (depth + 1)
        let c := search errMetric depth ch.state w
        complete (s.setChoice c.code c.imm) 0

end Sys2Proof.Machine
end

