-- ==== Sys2Proof/Machine/Stream.lean ====
section
/-! DEFINITION. The per-sample encode step and the stream commands (43_stream_codec.md R111 to R117). -/

namespace Sys2Proof.Machine

/-- What coding one sample gives: the new state, the code and its immediate error (43_stream_codec.md
R111). -/
structure Coded where
  state : Adaptive
  code : Code
  imm : Nat
  deriving DecidableEq, Repr

/-- `EncodeSample(s, W, k, L)` over the window from position `k` on (43_stream_codec.md R111): the depth
is `min(L, samples after this one)` (42_lookahead_code_selector.md R102). -/
def encodeSample (m : Config.ErrMetric) (l : Nat) (s : Adaptive) (w : List Int) : Coded :=
  let c := search m (min l (w.length - 1)) s w
  ⟨(transition s c.code).1, c.code, c.imm⟩

/-- What coding a run of samples gives: the codes in sample order, the final state, and the sum of the
immediate errors. -/
structure Run where
  codes : List Code
  state : Adaptive
  err : Nat
  deriving DecidableEq, Repr

/-- Codes a run of samples in order, each with the rest of the run as its window (43_stream_codec.md
R111, R115). -/
def encodeRun (m : Config.ErrMetric) (l : Nat) : Adaptive → List Int → Run
  | s, [] => ⟨[], s, 0⟩
  | s, t :: rest =>
    let e := encodeSample m l s (t :: rest)
    let r := encodeRun m l e.state rest
    ⟨e.code :: r.codes, r.state, e.imm + r.err⟩

/-- Executes a sequence of codes from a state (43_stream_codec.md R117): the reconstructed samples in
order, and the final state. -/
def decodeRun : Adaptive → List Code → List Int × Adaptive
  | s, [] => ([], s)
  | s, c :: rest =>
    let tr := transition s c
    let r := decodeRun tr.1 rest
    (tr.2 :: r.1, r.2)

/-- INIT_ENC (43_stream_codec.md R113). -/
def execInitEnc (s : State) : Outcome :=
  match s.selected with
  | none => failInvalidParam s
  | some _ =>
    if !indexLegal s.args.index then failInvalidParam s
    else complete ((s.setSelected ⟨s.args.sample, s.args.index⟩).clearError) 0

/-- INIT_DEC (43_stream_codec.md R114). -/
def execInitDec (s : State) : Outcome :=
  match s.selected with
  | none => failInvalidParam s
  | some _ =>
    if !indexLegal s.args.index then failInvalidParam s
    else complete (s.setSelected ⟨s.args.sample, s.args.index⟩) 0

/-- ENC_STREAM (43_stream_codec.md R115). -/
def execEncStream (s : State) : Outcome :=
  match s.selected with
  | none => failInvalidParam s
  | some ch =>
    if s.srcAbsent || s.dstAbsent then failInvalidParam s
    else if s.count ≤ 0 then failInvalidParam s
    else
      let n := s.count.toNat
      withBuffers s ⟨s.src, 2 * n⟩ ⟨s.dst, packedLength n⟩ <|
        let r := encodeRun errMetric s.lookahead ch.state (readSamples s.mem s.src 1 0 n)
        complete (((s.setSelected r.state.chan).addError r.err).store s.dst (packCodes r.codes))
          (packedLength n)

/-- The `n` codes of a packed stream at `a` (43_stream_codec.md R117): code `k` from byte `k div 2`,
the unused half of an odd last byte ignored. -/
def readCodes (m : Memory) (a n : Nat) : List Code :=
  (unpackCodes (readBytes m a (packedLength n))).take n

/-- DEC_STREAM (43_stream_codec.md R117). -/
def execDecStream (s : State) : Outcome :=
  match s.selected with
  | none => failInvalidParam s
  | some ch =>
    if s.srcAbsent || s.dstAbsent then failInvalidParam s
    else if s.count ≤ 0 then failInvalidParam s
    else
      let n := s.count.toNat
      withBuffers s ⟨s.src, packedLength n⟩ ⟨s.dst, 2 * n⟩ <|
        let r := decodeRun ch.state (readCodes s.mem s.src n)
        complete ((s.setSelected r.2.chan).store s.dst (r.1.flatMap sampleBytes)) n

end Sys2Proof.Machine
end

