-- ==== Sys2Proof/Machine/Block.lean ====
section
/-! DEFINITION. block_framer: the context and the block commands (44_block_framer.md R123 to R134). -/

namespace Sys2Proof.Machine

/-- CTX_CREATE (44_block_framer.md R124). -/
def execCtxCreate (s : State) : Outcome :=
  if !s.nchLegal then failInvalidParam s
  else if s.srcAbsent then failInvalidParam s
  else
    withBuffers s ⟨s.src, s.nchArg⟩ noBuffer <|
      let idx := readBytes s.mem s.src s.nchArg
      if !idx.all indexLegal then failInvalidParam s
      else
        complete (((s.setFirst (idx.map fun b => ⟨0, b⟩)).setContext
          ⟨true, s.args.nch, s.args.lookahead⟩).clearError) 0

/-- CTX_FREE (44_block_framer.md R125). -/
def execCtxFree (s : State) : Outcome := complete (s.setContext ⟨false, 0, 0⟩) 0

/-- What coding one channel of a block gives: the initial sample, the index the channel held on entry,
and the run over the samples after the first. -/
structure ChannelBlock where
  sample : Pattern
  index : Byte
  run : Run
  deriving DecidableEq, Repr

/-- Codes one channel of a block from its samples `W[c]` (44_block_framer.md R127, R128): the first is
carried exactly and replaces the predicted sample, the others are coded with the channel's own
samples of this block as the window. ENC_BLOCK has at least one sample of each channel (R126), so
`headSample` is never its free value here. -/
def encodeChannel (m : Config.ErrMetric) (l : Nat) (index : Byte) (w : List Int) : ChannelBlock where
  sample := u16 (headSample w)
  index := index
  run := encodeRun m l ⟨headSample w, index.toNat⟩ w.tail

/-- The header bytes of one coded channel (44_block_framer.md R127). -/
def ChannelBlock.header (b : ChannelBlock) : List Byte := headerBytes b.sample b.index

/-- The four bytes of chunk `k` of one coded channel (44_block_framer.md R128). -/
def ChannelBlock.chunk (b : ChannelBlock) (k : Nat) : List Byte :=
  packCodes ((b.run.codes.drop (8 * k)).take 8)

/-- The bytes of a block: all headers, then for each chunk one chunk per channel (30_encoding.md R59). -/
def blockBytes (bs : List ChannelBlock) (chunks : Nat) : List Byte :=
  bs.flatMap ChannelBlock.header ++
    (List.range chunks).flatMap fun k => bs.flatMap fun b => b.chunk k

/-- Codes the channels `CH[0 .. n-1]` over a block of `len` samples each (44_block_framer.md R127,
R128). The channels do not depend on one another (R130). -/
def encodeChannels (s : State) (n len : Nat) : List ChannelBlock :=
  (s.ch.take n).zipIdx.map fun e =>
    encodeChannel errMetric s.ctx.la.toNat e.1.index (readSamples s.mem s.src n e.2 len)

/-- The size of a block of `n` channels and `chunks` chunks (30_encoding.md R60). -/
def blockLength (n chunks : Nat) : Nat := n * (4 + 4 * chunks)

/-- ENC_BLOCK (44_block_framer.md R126 to R129). -/
def execEncBlock (s : State) : Outcome :=
  if !s.ctx.valid then failInvalidParam s
  else if s.srcAbsent || s.dstAbsent then failInvalidParam s
  else if s.count ≤ 0 then failInvalidParam s
  else if (s.count - 1) % 8 ≠ 0 then failInvalidParam s
  else if s.nchMax < s.ctx.nch.toNat then .fault .contextBeyondChannels
  else
    let n := s.ctx.nch.toNat
    let len := s.count.toNat
    let chunks := (len - 1) / 8
    withBuffers s ⟨s.src, 2 * len * n⟩ ⟨s.dst, blockLength n chunks⟩ <|
      let bs := encodeChannels s n len
      complete
        (((s.setFirst (bs.map fun b => b.run.state.chan)).addError (bs.map fun b => b.run.err).sum).store
          s.dst (blockBytes bs chunks))
        (blockLength n chunks)

/-- The codes of channel `c` in a block of `n` channels at `a`: byte `b` of chunk `k` is at
`a + 4*n + 4*n*k + 4*c + b` (44_block_framer.md R133, 30_encoding.md R59). -/
def blockCodes (m : Memory) (a n chunks c : Nat) : List Code :=
  (List.range chunks).flatMap fun k => unpackCodes (readBytes m (a + 4 * n + 4 * n * k + 4 * c) 4)

/-- The samples a block gives for one channel: the header's, then the replay of its codes
(44_block_framer.md R133). -/
def decodeChannel (h : Header) (codes : List Code) : List Int :=
  sext16 h.sample :: (decodeRun ⟨sext16 h.sample, h.index.toNat⟩ codes).1

/-- The samples of the channels `0 .. n-1` of the block at `a`. -/
def decodeChannels (m : Memory) (a n chunks : Nat) : List (List Int) :=
  (List.range n).map fun c => decodeChannel (readHeader m a c) (blockCodes m a n chunks c)

/-- The bytes of a multi-channel PCM buffer of `len` frames: sample `i` of channel `c` at
`2*(i*n + c)` (20_memory.md R47). -/
def frameBytes (chans : List (List Int)) (len : Nat) : List Byte :=
  (List.range len).flatMap fun i => chans.flatMap fun w => sampleBytes (w.getD i 0)

/-- DEC_BLOCK (44_block_framer.md R131 to R134). An incomplete or bad header gives zero samples with
SUCCESS and writes nothing; only then are the payload read and the output written. -/
def execDecBlock (s : State) : Outcome :=
  if !s.nchLegal then failInvalidParam s
  else if s.srcAbsent || s.dstAbsent then failInvalidParam s
  else if s.count ≤ 0 then failInvalidParam s
  else
    let n := s.nchArg
    let b := s.count.toNat
    if b < 4 * n then complete s 0
    else
      let chunks := (b - 4 * n) / (4 * n)
      withBuffers s ⟨s.src, 4 * n⟩ noBuffer <|
        if !(List.range n).all (fun c => (readHeader s.mem s.src c).legal) then complete s 0
        else
          withBuffers s ⟨s.src, 4 * n * (1 + chunks)⟩ ⟨s.dst, 2 * (1 + 8 * chunks) * n⟩ <|
            complete (s.store s.dst (frameBytes (decodeChannels s.mem s.src n chunks) (1 + 8 * chunks)))
              (1 + 8 * chunks)

end Sys2Proof.Machine
end

