-- ==== Sys2Proof/Machine/Codes.lean ====
section
/-! DEFINITION. The sixteen codes as instructions, each written out from its own rule
(41_dequantizer_predictor.md R80 to R95). A code acts on the channel `CHSEL` selects (log 5); it writes
no flag and no register but that channel's. The reconstructed sample is the new `PRED` (R79). -/

namespace Sys2Proof.Machine

/-- One code on the selected channel: `p' = clip(p + d(step))`, `x' = clip(x + dx)`, both from the old
state (R77, and the pseudocode of R80 to R95). With no such channel there is no state to act on and
the code has no meaning (30_encoding.md R54; log 5). -/
def runCode (s : State) (d : Nat → Int) (dx : Int) : Outcome :=
  match s.selected with
  | none => .refused .codeWithoutChannel
  | some ch =>
    let a := ch.state
    .next (s.setSelected
      (Adaptive.chan ⟨clipSample (a.p + d (stepSize a.x)), clipIndex ((a.x : Int) + dx)⟩))

/-- `CODE_0` (R80). -/
def execCode0 (s : State) : Outcome :=
  runCode s (fun step => ((step >>> 3 : Nat) : Int)) (-1)

/-- `CODE_1` (R81). -/
def execCode1 (s : State) : Outcome :=
  runCode s (fun step => (((step >>> 3) + (step >>> 2) : Nat) : Int)) (-1)

/-- `CODE_2` (R82). -/
def execCode2 (s : State) : Outcome :=
  runCode s (fun step => (((step >>> 3) + (step >>> 1) : Nat) : Int)) (-1)

/-- `CODE_3` (R83). -/
def execCode3 (s : State) : Outcome :=
  runCode s (fun step => (((step >>> 3) + (step >>> 2) + (step >>> 1) : Nat) : Int)) (-1)

/-- `CODE_4` (R84). -/
def execCode4 (s : State) : Outcome :=
  runCode s (fun step => (((step >>> 3) + step : Nat) : Int)) 2

/-- `CODE_5` (R85). -/
def execCode5 (s : State) : Outcome :=
  runCode s (fun step => (((step >>> 3) + (step >>> 2) + step : Nat) : Int)) 4

/-- `CODE_6` (R86). -/
def execCode6 (s : State) : Outcome :=
  runCode s (fun step => (((step >>> 3) + (step >>> 1) + step : Nat) : Int)) 6

/-- `CODE_7` (R87). -/
def execCode7 (s : State) : Outcome :=
  runCode s (fun step => (((step >>> 3) + (step >>> 2) + (step >>> 1) + step : Nat) : Int)) 8

/-- `CODE_8` (R88). -/
def execCode8 (s : State) : Outcome :=
  runCode s (fun step => -((step >>> 3 : Nat) : Int)) (-1)

/-- `CODE_9` (R89). -/
def execCode9 (s : State) : Outcome :=
  runCode s (fun step => -(((step >>> 3) + (step >>> 2) : Nat) : Int)) (-1)

/-- `CODE_A` (R90). -/
def execCodeA (s : State) : Outcome :=
  runCode s (fun step => -(((step >>> 3) + (step >>> 1) : Nat) : Int)) (-1)

/-- `CODE_B` (R91). -/
def execCodeB (s : State) : Outcome :=
  runCode s (fun step => -(((step >>> 3) + (step >>> 2) + (step >>> 1) : Nat) : Int)) (-1)

/-- `CODE_C` (R92). -/
def execCodeC (s : State) : Outcome :=
  runCode s (fun step => -(((step >>> 3) + step : Nat) : Int)) 2

/-- `CODE_D` (R93). -/
def execCodeD (s : State) : Outcome :=
  runCode s (fun step => -(((step >>> 3) + (step >>> 2) + step : Nat) : Int)) 4

/-- `CODE_E` (R94). -/
def execCodeE (s : State) : Outcome :=
  runCode s (fun step => -(((step >>> 3) + (step >>> 1) + step : Nat) : Int)) 6

/-- `CODE_F` (R95). -/
def execCodeF (s : State) : Outcome :=
  runCode s (fun step => -(((step >>> 3) + (step >>> 2) + (step >>> 1) + step : Nat) : Int)) 8

end Sys2Proof.Machine
end

