-- ==== Sys2Proof/Machine/Reserved.lean ====
section
/-! DEFINITION. The reserved opcodes: each ends INVALID_PARAM at once (30_encoding.md R63). -/

namespace Sys2Proof.Machine

/-- Opcode 0x0, reserved so that a stray write of zero is reported (30_encoding.md R63). -/
def execReserved0 (s : State) : Outcome := failInvalidParam s

/-- Opcode 0xB (R63). -/
def execReservedB (s : State) : Outcome := failInvalidParam s

/-- Opcode 0xC (R63). -/
def execReservedC (s : State) : Outcome := failInvalidParam s

/-- Opcode 0xD (R63). -/
def execReservedD (s : State) : Outcome := failInvalidParam s

/-- Opcode 0xE (R63). -/
def execReservedE (s : State) : Outcome := failInvalidParam s

/-- Opcode 0xF (R63). -/
def execReservedF (s : State) : Outcome := failInvalidParam s

end Sys2Proof.Machine
end

