-- ==== Sys2Proof/Machine/Dispatch.lean ====
section
/-! DEFINITION. The dispatch: one arm for each constructor of `Instr`. -/

namespace Sys2Proof.Machine

def exec (i : Instr) (s : State) : Host.Outcome State Fault Refusal :=
  match i with
  | .code0 => Sys2Proof.Machine.execCode0 s
  | .code1 => Sys2Proof.Machine.execCode1 s
  | .code2 => Sys2Proof.Machine.execCode2 s
  | .code3 => Sys2Proof.Machine.execCode3 s
  | .code4 => Sys2Proof.Machine.execCode4 s
  | .code5 => Sys2Proof.Machine.execCode5 s
  | .code6 => Sys2Proof.Machine.execCode6 s
  | .code7 => Sys2Proof.Machine.execCode7 s
  | .code8 => Sys2Proof.Machine.execCode8 s
  | .code9 => Sys2Proof.Machine.execCode9 s
  | .codeA => Sys2Proof.Machine.execCodeA s
  | .codeB => Sys2Proof.Machine.execCodeB s
  | .codeC => Sys2Proof.Machine.execCodeC s
  | .codeD => Sys2Proof.Machine.execCodeD s
  | .codeE => Sys2Proof.Machine.execCodeE s
  | .codeF => Sys2Proof.Machine.execCodeF s
  | .initEnc => Sys2Proof.Machine.execInitEnc s
  | .initDec => Sys2Proof.Machine.execInitDec s
  | .encStream => Sys2Proof.Machine.execEncStream s
  | .decStream => Sys2Proof.Machine.execDecStream s
  | .ctxCreate => Sys2Proof.Machine.execCtxCreate s
  | .encBlock => Sys2Proof.Machine.execEncBlock s
  | .decBlock => Sys2Proof.Machine.execDecBlock s
  | .ctxFree => Sys2Proof.Machine.execCtxFree s
  | .step => Sys2Proof.Machine.execStep s
  | .choose => Sys2Proof.Machine.execChoose s
  | .reserved0 => Sys2Proof.Machine.execReserved0 s
  | .reservedB => Sys2Proof.Machine.execReservedB s
  | .reservedC => Sys2Proof.Machine.execReservedC s
  | .reservedD => Sys2Proof.Machine.execReservedD s
  | .reservedE => Sys2Proof.Machine.execReservedE s
  | .reservedF => Sys2Proof.Machine.execReservedF s

end Sys2Proof.Machine
end

