-- ==== Sys2Proof/Machine/Flags.lean ====
section
/-! DEFINITION. The one status flag `RESULT` and the fields of `STATUS` (10_state.md R19). The block has
no arithmetic condition codes. -/

namespace Sys2Proof.Machine

/-- The bit of a result: 0 SUCCESS, 1 INVALID_PARAM (60_exceptions.md R137). -/
def Result.bit : Result → BitVec 1
  | .success => 0
  | .invalidParam => 1

/-- `STATUS` as the host reads it: `RESULT` in bit 0, `CTX_VALID` in bit 1, `CTX_NCH` in 15:8,
`CTX_LA` in 23:16, the rest 0 (10_state.md R19). -/
def State.status (s : State) : Word :=
  0#8 ++ s.ctx.la ++ s.ctx.nch ++ 0#6 ++ BitVec.ofBool s.ctx.valid ++ s.result.bit

end Sys2Proof.Machine
end

