-- ==== Sys2Proof/Machine/Registers.lean ====
section
/-! DEFINITION. The register window: which register an offset names, what the host reads there and what
a write stores (10_state.md R20, R31, R36). -/

namespace Sys2Proof.Machine

/-- The registers of the window (10_state.md R20). -/
inductive Reg where
  | cmd
  | status
  | srcAddr
  | dstAddr
  | count
  | lookahead
  | nch
  | chsel
  | argSample
  | argIndex
  | argCode
  | outCount
  | resCode
  | resErr
  | resSample
  | errAccLo
  | errAccHi
  | chState (c : Nat)
  deriving DecidableEq, Repr

/-- The register at an aligned byte offset of the window of an instance with `n` channels; nothing at
a reserved or unmapped offset (10_state.md R20). -/
def regAt (n : Nat) (off : BitVec 11) : Option Reg :=
  if off = 0x00 then some .cmd
  else if off = 0x04 then some .status
  else if off = 0x08 then some .srcAddr
  else if off = 0x0C then some .dstAddr
  else if off = 0x10 then some .count
  else if off = 0x14 then some .lookahead
  else if off = 0x18 then some .nch
  else if off = 0x1C then some .chsel
  else if off = 0x20 then some .argSample
  else if off = 0x24 then some .argIndex
  else if off = 0x28 then some .argCode
  else if off = 0x2C then some .outCount
  else if off = 0x30 then some .resCode
  else if off = 0x34 then some .resErr
  else if off = 0x38 then some .resSample
  else if off = 0x40 then some .errAccLo
  else if off = 0x44 then some .errAccHi
  else if 0x80 ≤ off.toNat ∧ off.toNat % 4 = 0 ∧ (off.toNat - 0x80) / 4 < n then
    some (.chState ((off.toNat - 0x80) / 4))
  else none

/-- What the host reads from a register: its value with the reserved bits 0; `CMD` reads 0
(10_state.md R20, R21, R31, R36). -/
def readReg (s : State) : Reg → Word
  | .cmd => 0
  | .status => s.status
  | .srcAddr => s.args.srcAddr
  | .dstAddr => s.args.dstAddr
  | .count => s.args.count
  | .lookahead => s.args.lookahead.setWidth 32
  | .nch => s.args.nch.setWidth 32
  | .chsel => s.args.chsel.setWidth 32
  | .argSample => s.args.sample.setWidth 32
  | .argIndex => s.args.index.setWidth 32
  | .argCode => s.args.code.setWidth 32
  | .outCount => s.outCount
  | .resCode => s.res.code.setWidth 32
  | .resErr => s.res.err
  | .resSample => s.res.sample
  | .errAccLo => s.errAcc.extractLsb' 0 32
  | .errAccHi => s.errAcc.extractLsb' 32 32
  | .chState c => match s.ch[c]? with
    | some ch => ch.word
    | none => 0

/-- What a host write of `v` to a register other than `CMD` stores: the writable bits of a RW register,
nothing in a RO one (10_state.md R20, R31, R36). `CMD` stores nothing (R21). -/
def writeReg (s : State) (v : Word) : Reg → State
  | .cmd => s
  | .status => s
  | .srcAddr => { s with args := { s.args with srcAddr := v } }
  | .dstAddr => { s with args := { s.args with dstAddr := v } }
  | .count => { s with args := { s.args with count := v } }
  | .lookahead => { s with args := { s.args with lookahead := v.extractLsb' 0 8 } }
  | .nch => { s with args := { s.args with nch := v.extractLsb' 0 8 } }
  | .chsel => { s with args := { s.args with chsel := v.extractLsb' 0 8 } }
  | .argSample => { s with args := { s.args with sample := v.extractLsb' 0 16 } }
  | .argIndex => { s with args := { s.args with index := v.extractLsb' 0 8 } }
  | .argCode => { s with args := { s.args with code := v.extractLsb' 0 4 } }
  | .outCount => s
  | .resCode => s
  | .resErr => s
  | .resSample => s
  | .errAccLo => { s with errAcc := s.errAcc.extractLsb' 32 32 ++ v }
  | .errAccHi => { s with errAcc := v ++ s.errAcc.extractLsb' 0 32 }
  | .chState _ => s

end Sys2Proof.Machine
end

