-- ==== Sys2Proof/Machine/HostPort.lean ====
section
/-! DEFINITION. The host's actions on the block (10_state.md R36, 70_reset_and_hazards.md R151, R164)
and how an encoded instruction reaches it. -/

namespace Sys2Proof.Machine

/-- The host accesses the spec defines: aligned and 32 bits wide (10_state.md R31, 93 U6). -/
def accessLegal (off : BitVec 11) (size : AccessSize) : Bool :=
  (size == .word) && decide (off.toNat % 4 = 0)

/-- `HWRITE(off, v)` (10_state.md R36): a write to `CMD` runs the command to its end (R21). -/
def hostWrite (s : State) (off : BitVec 11) (size : AccessSize) (v : Word) : Outcome :=
  if accessLegal off size then
    match regAt s.nchMax off with
    | some .cmd => exec (decodeCommand v) s
    | some r => .next (writeReg s v r)
    | none => .next s
  else .refused .registerAccess

/-- The value of `HREAD(off)` (10_state.md R36). -/
def readOffset (s : State) (off : BitVec 11) : Word :=
  match regAt s.nchMax off with
  | some r => readReg s r
  | none => 0

/-- `HREAD(off)`: the value goes to the host and no register changes (10_state.md R36). -/
def hostRead (s : State) (off : BitVec 11) (size : AccessSize) : Outcome :=
  if accessLegal off size then .next { s with busRead := readOffset s off }
  else .refused .registerAccess

/-- A host load or store of one byte of memory between commands (70_reset_and_hazards.md R164): memory
only, and only where the platform has it (20_memory.md R43, R44). -/
def withByte (s : State) (a : Nat) (body : State) : Outcome :=
  if s.platform.isDevice a then .refused .deviceAccess
  else if !s.platform.backs a then .fault .unadmittedByte
  else .next body

/-- Reset (70_reset_and_hazards.md R151): every register 0; memory, the platform and the number of
channels stay. -/
def resetBlock (s : State) : State :=
  State.resetOf s.platform s.nchMax s.mem s.pending s.busRead

/-- What one input does. -/
def act (s : State) : Input → Outcome
  | .regWrite off size v => hostWrite s off size v
  | .regRead off size => hostRead s off size
  | .memWrite a b => withByte s a.toNat { s with mem := writeByte s.mem a.toNat b }
  | .memRead a => withByte s a.toNat { s with busRead := (readByte s.mem a.toNat).setWidth 32 }
  | .reset => .next (resetBlock s)
  | .code c => exec (decodeCode c) s

/-- One step: the oldest pending input is taken and carried out, in issue order (20_memory.md R50). With
nothing pending the block idles: it starts nothing on its own (10_state.md R13, R33). -/
def advance (s : State) : Outcome :=
  match s.pending with
  | [] => .next s
  | a :: rest => act { s with pending := rest } a

/-- The input that presents an encoded instruction: a code goes to the dequantizer, a command word is
written to `CMD` (30_encoding.md R54, R61). -/
def inputOf : Encoded → Input
  | .nib c => .code c
  | .cmd v => .regWrite 0x00 .word v

/-- The inputs that present an instruction given by its bits; none if no format has its length. -/
def fetchInputs (nbits w : Nat) : List Input :=
  match encodedOfTable nbits w with
  | .ok e => [inputOf e]
  | .error _ => []

end Sys2Proof.Machine
end

