-- ==== Sys2Proof/Machine/Step.lean ====
section
/-! DEFINITION. The step of the machine. -/

namespace Sys2Proof.Machine

/-- One step of the machine (Machine/HostPort.lean `advance`). -/
def step (s : State) : Host.Outcome State Fault Refusal := advance s

/-- `s` with the instruction whose bits are `w` as its next input. The block fetches nothing
(10_state.md R18), so this stands for the host's action, or the code, that presents it (log 1). -/
def State.withFetchWord (s : State) (nbits w : Nat) : State :=
  { s with pending := fetchInputs nbits w ++ s.pending }

end Sys2Proof.Machine
end

