-- ==== Sys2Proof/Safety.lean ====
section
/-! DEFINITION. The terms the statements use: the state invariant (10_state.md R17, R19), the domain of
the transition, which causes make a command fail (60_exceptions.md R138), which commands write what,
and the closed forms of the search (42_lookahead_code_selector.md R104, R106). -/

namespace Sys2Proof

/-- The instruction is a host command or a reserved opcode (format `CMD`), not a code. -/
def Instr.isCommand : Instr → Bool
  | .code0 | .code1 | .code2 | .code3 | .code4 | .code5 | .code6 | .code7 => false
  | .code8 | .code9 | .codeA | .codeB | .codeC | .codeD | .codeE | .codeF => false
  | .initEnc | .initDec | .encStream | .decStream => true
  | .ctxCreate | .encBlock | .decBlock | .ctxFree | .step | .choose => true
  | .reserved0 | .reservedB | .reservedC | .reservedD | .reservedE | .reservedF => true

/-- The instruction may change a channel register: the writers 10_state.md R14 lists, and a code
(log 5). -/
def Instr.writesChannels : Instr → Bool
  | .initEnc | .initDec | .ctxCreate | .step | .encStream | .decStream | .encBlock => true
  | .decBlock | .ctxFree | .choose => false
  | .reserved0 | .reservedB | .reservedC | .reservedD | .reservedE | .reservedF => false
  | .code0 | .code1 | .code2 | .code3 | .code4 | .code5 | .code6 | .code7 => true
  | .code8 | .code9 | .codeA | .codeB | .codeC | .codeD | .codeE | .codeF => true

/-- The instruction may change `ERR_ACC` (10_state.md R30). -/
def Instr.writesErrAcc : Instr → Bool
  | .initEnc | .ctxCreate | .encStream | .encBlock => true
  | .initDec | .decStream | .decBlock | .ctxFree | .step | .choose => false
  | .reserved0 | .reservedB | .reservedC | .reservedD | .reservedE | .reservedF => false
  | .code0 | .code1 | .code2 | .code3 | .code4 | .code5 | .code6 | .code7 => false
  | .code8 | .code9 | .codeA | .codeB | .codeC | .codeD | .codeE | .codeF => false

/-- The instruction may change memory (20_memory.md R38). -/
def Instr.writesMemory : Instr → Bool
  | .encStream | .decStream | .encBlock | .decBlock => true
  | .initEnc | .initDec | .ctxCreate | .ctxFree | .step | .choose => false
  | .reserved0 | .reservedB | .reservedC | .reservedD | .reservedE | .reservedF => false
  | .code0 | .code1 | .code2 | .code3 | .code4 | .code5 | .code6 | .code7 => false
  | .code8 | .code9 | .codeA | .codeB | .codeC | .codeD | .codeE | .codeF => false

end Sys2Proof

namespace Sys2Proof.Machine

/-- The domain of 41_dequantizer_predictor.md R75: `-32768 <= p <= 32767` and `0 <= x <= 88`. -/
abbrev Adaptive.InDomain (a : Adaptive) : Prop := -32768 ≤ a.p ∧ a.p ≤ 32767 ∧ a.x ≤ 88

/-- A 16-bit signed sample (00_scope.md R11). -/
abbrev IsSample (t : Int) : Prop := -32768 ≤ t ∧ t ≤ 32767

/-- Every channel register satisfies 10_state.md R17. A 16-bit `PRED` is always in range; the index
is what needs saying. -/
abbrev State.ChannelsLegal (s : State) : Prop := ∀ c ∈ s.ch, c.index.toNat ≤ 88

/-- `NCH_MAX` is in 1..255 (00_scope.md R7). -/
abbrev State.SizeLegal (s : State) : Prop := 1 ≤ s.nchMax ∧ s.nchMax ≤ 255

/-- `CTX_NCH` is in 1..NCH_MAX when `CTX_VALID` = 1 (10_state.md R19), and the context fields are 0
when there is none (R35, 44_block_framer.md R125). -/
abbrev State.ContextLegal (s : State) : Prop :=
  if s.ctx.valid then 1 ≤ s.ctx.nch.toNat ∧ s.ctx.nch.toNat ≤ s.nchMax
  else s.ctx.nch = 0 ∧ s.ctx.la = 0

/-- The invariant of the machine: memory in canonical form, 10_state.md R17 for every channel, a legal
instance size, a legal context. -/
abbrev State.Inv (s : State) : Prop :=
  Memory.wf s.mem = true ∧ s.ChannelsLegal ∧ s.SizeLegal ∧ s.ContextLegal

/-- A command's extents are where the spec defines its effect: neither wraps, they share no byte
(20_memory.md R49), both are memory (R43) and the platform admits every byte (R44). -/
def State.fits (s : State) (input output : Span) : Bool :=
  !input.wraps && !output.wraps && !input.meets output &&
    (s.platform.clearOfDevices input && s.platform.clearOfDevices output) &&
    (s.platform.backsAll input && s.platform.backsAll output)

/-- The state after `fail INVALID_PARAM` (60_exceptions.md R143): `RESULT` = 1, `OUT_COUNT` = 0, all else
as before. -/
def State.failed (s : State) : State := { s with result := .invalidParam, outCount := 0 }

/-- The state after `OUT_COUNT <- n; done` (60_exceptions.md R142). -/
def State.done (s : State) (n : Nat) : State :=
  { s with result := .success, outCount := BitVec.ofNat 32 n }

/-- No such channel (60_exceptions.md R140). -/
abbrev State.NoChannel (s : State) : Prop := s.nchMax ≤ s.args.chsel.toNat

/-- A cause of INVALID_PARAM that holds in `s` for the instruction: the table of 60_exceptions.md R138,
column by column. -/
abbrev InvalidCause (i : Instr) (s : State) : Prop :=
  match i with
  | .initEnc | .initDec => s.NoChannel ∨ 88 < s.args.index.toNat
  | .step => s.NoChannel
  | .choose => s.NoChannel ∨ s.args.srcAddr = 0 ∨ s.args.count.toInt ≤ 0
  | .encStream | .decStream =>
    s.NoChannel ∨ s.args.srcAddr = 0 ∨ s.args.dstAddr = 0 ∨ s.args.count.toInt ≤ 0
  | .ctxCreate =>
    s.args.nch.toNat < 1 ∨ s.nchMax < s.args.nch.toNat ∨ s.args.srcAddr = 0 ∨
      ∃ c < s.args.nch.toNat, 88 < (readByte s.mem (s.args.srcAddr.toNat + c)).toNat
  | .encBlock =>
    s.ctx.valid = false ∨ s.args.srcAddr = 0 ∨ s.args.dstAddr = 0 ∨ s.args.count.toInt ≤ 0 ∨
      (s.args.count.toInt - 1) % 8 ≠ 0
  | .decBlock =>
    s.args.nch.toNat < 1 ∨ s.nchMax < s.args.nch.toNat ∨ s.args.srcAddr = 0 ∨ s.args.dstAddr = 0 ∨
      s.args.count.toInt ≤ 0
  | .reserved0 | .reservedB | .reservedC | .reservedD | .reservedE | .reservedF => True
  | .ctxFree => False
  | .code0 | .code1 | .code2 | .code3 | .code4 | .code5 | .code6 | .code7 => False
  | .code8 | .code9 | .codeA | .codeB | .codeC | .codeD | .codeE | .codeF => False

/-- The output extent of an instruction that may write memory (20_memory.md R48), empty for the
others. -/
def outputExtent (i : Instr) (s : State) : Span :=
  match i with
  | .encStream => ⟨s.args.dstAddr.toNat, (s.args.count.toInt.toNat + 1) / 2⟩
  | .decStream => ⟨s.args.dstAddr.toNat, 2 * s.args.count.toInt.toNat⟩
  | .encBlock =>
    ⟨s.args.dstAddr.toNat, s.ctx.nch.toNat * (4 + 4 * ((s.args.count.toInt.toNat - 1) / 8))⟩
  | .decBlock =>
    ⟨s.args.dstAddr.toNat,
      2 * (1 + 8 * ((s.args.count.toInt.toNat - 4 * s.args.nch.toNat) / (4 * s.args.nch.toNat))) *
        s.args.nch.toNat⟩
  | .initEnc | .initDec | .ctxCreate | .ctxFree | .step | .choose => noBuffer
  | .reserved0 | .reservedB | .reservedC | .reservedD | .reservedE | .reservedF => noBuffer
  | .code0 | .code1 | .code2 | .code3 | .code4 | .code5 | .code6 | .code7 => noBuffer
  | .code8 | .code9 | .codeA | .codeB | .codeC | .codeD | .codeE | .codeF => noBuffer

/-- The cost of taking code `c` first and coding the rest at the least total `below`
(42_lookahead_code_selector.md R106). -/
def costOf (m : Config.ErrMetric) (below : Adaptive → Nat) (s : Adaptive) (t : Int) (c : Code) : Nat :=
  err m (transition s c).2 t + below (transition s c).1

/-- `MinTotal(s, W, k, depth)` (42_lookahead_code_selector.md R106): at depth 0 the greedy code's error,
above it the least cost over all sixteen codes. A window too short for R98 is read as `search` reads it
(log 12). -/
def minTotal (m : Config.ErrMetric) : Nat → Adaptive → List Int → Nat
  | 0, s, w => err m (transition s (greedy s (headSample w))).2 (headSample w)
  | depth + 1, s, w =>
    ((allCodes.map (costOf m (fun s' => minTotal m depth s' w.tail) s (headSample w))).min?).getD 0

/-- `Search` without the prune (42_lookahead_code_selector.md R104: a model may omit it). A window too
short for R98 is read as `search` reads it (log 12). -/
def searchUnpruned (m : Config.ErrMetric) : Nat → Adaptive → List Int → Choice
  | 0, s, w =>
    let g := greedy s (headSample w)
    let eg := err m (transition s g).2 (headSample w)
    ⟨g, eg, eg⟩
  | depth + 1, s, w =>
    let t := headSample w
    let below := fun s' => (searchUnpruned m depth s' w.tail).total
    let g := greedy s t
    (allCodes.filter (· != g)).foldl
      (fun best c =>
        if costOf m below s t c < best.total then
          ⟨c, err m (transition s c).2 t, costOf m below s t c⟩
        else best)
      ⟨g, err m (transition s g).2 t, costOf m below s t g⟩

/-- The greedy code stream of a run: each code is `Greedy` of the state so far (43_stream_codec.md
R122). -/
def greedyRun : Adaptive → List Int → List Code
  | _, [] => []
  | s, t :: rest => greedy s t :: greedyRun (transition s (greedy s t)).1 rest

/-- The samples the encoder's own transitions reconstruct over a run (43_stream_codec.md R118). -/
def reconstruction (m : Config.ErrMetric) (l : Nat) : Adaptive → List Int → List Int
  | _, [] => []
  | s, t :: rest =>
    let e := encodeSample m l s (t :: rest)
    (transition s e.code).2 :: reconstruction m l e.state rest

/-- Executes codes one after the other as instructions, stopping where one does not complete. -/
def runCodes : List Code → State → Outcome
  | [], s => .next s
  | c :: rest, s =>
    match exec (decodeCode c) s with
    | .next t => runCodes rest t
    | o => o

end Sys2Proof.Machine
end

