-- ==== Sys2Proof/Certificates/Slice0/Obligations.lean ====
section
/-! DEFINITION. The statements for the provers. Each docstring names the rule of spec/ it formalises; a
statement that rests on a convention of the model says so and names the log entry. -/

open Sys2Proof Sys2Proof.Machine

/-! ## Encoding -/

/-- 30_encoding.md R55, R61, R62, R63: decoding and encoding agree in both directions, for all sixteen
codes and for all 2^32 command words (whose bits 31:4 are ignored, so they come back 0). -/
def Obligations.DecodeEncodeAgree : Prop :=
  (∀ i : Instr, i.wellFormed = true → decode (encode i) = i) ∧
  (∀ c : Code, encode (decodeCode c) = .nib c) ∧
  (∀ v : Word, encode (decodeCommand v) = .cmd (v &&& 0x0000000F#32))

/-- spec/opcode_table.json, 30_encoding.md R55, R61, R62, R63: words written out from the table's
`encoding` column, one or more of each family, decode to the instruction they stand for. That a code
of 4 bits is presented as one byte, and that two bytes are no instruction, is the model's choice
(DESIGN CHOICE, log 11). -/
def Obligations.TableWordsDecode : Prop :=
  decodeTableWord 8 0b0000 = some .code0 ∧ decodeTableWord 8 0b0110 = some .code6 ∧
  decodeTableWord 8 0b1001 = some .code9 ∧ decodeTableWord 8 0b1111 = some .codeF ∧
  decodeTableWord 32 0b0001 = some .initEnc ∧ decodeTableWord 32 0b0100 = some .decStream ∧
  decodeTableWord 32 0b0110 = some .encBlock ∧ decodeTableWord 32 0x00000019 = some .step ∧
  decodeTableWord 32 0b1010 = some .choose ∧ decodeTableWord 32 0xFFFFFFF0 = some .reserved0 ∧
  decodeTableWord 32 0b1011 = some .reservedB ∧ decodeTableWord 16 0 = none

/-- 30_encoding.md R56: the packed byte of two codes, as bits, as a number, and unpacked again. -/
def Obligations.PackedByteHoldsTwoCodes : Prop :=
  ∀ earlier later : Code,
    packByte earlier later = later ++ earlier ∧
    (packByte earlier later).toNat = earlier.toNat + 16 * later.toNat ∧
    (packByte earlier later).extractLsb' 0 4 = earlier ∧
    (packByte earlier later).extractLsb' 4 4 = later ∧
    unpackCodes [packByte earlier later] = [earlier, later]

/-! ## Tables and the transition -/

/-- 40_step_table.md R71 (a), (b), (d), (e): the step table has 89 entries, rises strictly, lies in
[7, 32767] and has its two ends. -/
def Obligations.StepTableShape : Prop :=
  stepTable.length = 89 ∧ (∀ x, x < 88 → stepSize x < stepSize (x + 1)) ∧
  (∀ x, x ≤ 88 → 7 ≤ stepSize x ∧ stepSize x ≤ 32767) ∧ stepSize 0 = 7 ∧ stepSize 88 = 32767

/-- 40_step_table.md R72: the eight index adjustments, keyed by the magnitude and never by the sign. -/
def Obligations.IndexDeltaTable : Prop :=
  [0, 1, 2, 3, 4, 5, 6, 7].map (fun m : BitVec 3 => indexDelta m) = [-1, -1, -1, -1, 2, 4, 6, 8] ∧
  ∀ c : Code, (magnitude c).toNat = c.toNat % 8 ∧
    indexDelta (magnitude (c + 8)) = indexDelta (magnitude c)

/-- 41_dequantizer_predictor.md R76: `Delta` is the sum of separately truncated parts, negated when
bit 3 is set. -/
def Obligations.DeltaIsSumOfTruncatedParts : Prop :=
  (∀ (step : Nat) (c : Code), 1 ≤ step →
    delta step c = (if c.toNat / 8 % 2 = 1 then -1 else 1) *
      ((step / 8 + c.toNat % 2 * (step / 4) + c.toNat / 2 % 2 * (step / 2) +
        c.toNat / 4 % 2 * step : Nat) : Int)) ∧
  delta 7 0x7 = 11

/-- The transition by code `c` is `p' = clip(p + d(step))`, `x' = clip(x + dx)`, and the reconstructed
sample is `p'`: the shape of 41_dequantizer_predictor.md R80 to R95. -/
def Sys2Proof.Claims.Moves (c : Code) (d : Nat → Int) (dx : Int) : Prop :=
  ∀ (p : Int) (x : Nat), Adaptive.InDomain ⟨p, x⟩ →
    transition ⟨p, x⟩ c =
      (⟨clip (p + d (stepSize x)) (-32768) 32767, (clip ((x : Int) + dx) 0 88).toNat⟩,
        clip (p + d (stepSize x)) (-32768) 32767)

/-- 41_dequantizer_predictor.md R80 to R87: the eight codes of sign 0, each by its own rule. -/
def Obligations.PositiveCodesTransition : Prop :=
  Claims.Moves 0x0 (fun step => (step / 8 : Nat)) (-1) ∧
  Claims.Moves 0x1 (fun step => (step / 8 + step / 4 : Nat)) (-1) ∧
  Claims.Moves 0x2 (fun step => (step / 8 + step / 2 : Nat)) (-1) ∧
  Claims.Moves 0x3 (fun step => (step / 8 + step / 4 + step / 2 : Nat)) (-1) ∧
  Claims.Moves 0x4 (fun step => (step / 8 + step : Nat)) 2 ∧
  Claims.Moves 0x5 (fun step => (step / 8 + step / 4 + step : Nat)) 4 ∧
  Claims.Moves 0x6 (fun step => (step / 8 + step / 2 + step : Nat)) 6 ∧
  Claims.Moves 0x7 (fun step => (step / 8 + step / 4 + step / 2 + step : Nat)) 8

/-- 41_dequantizer_predictor.md R88 to R95: the eight codes of sign 1, each by its own rule. -/
def Obligations.NegativeCodesTransition : Prop :=
  Claims.Moves 0x8 (fun step => -(step / 8 : Nat)) (-1) ∧
  Claims.Moves 0x9 (fun step => -(step / 8 + step / 4 : Nat)) (-1) ∧
  Claims.Moves 0xA (fun step => -(step / 8 + step / 2 : Nat)) (-1) ∧
  Claims.Moves 0xB (fun step => -(step / 8 + step / 4 + step / 2 : Nat)) (-1) ∧
  Claims.Moves 0xC (fun step => -(step / 8 + step : Nat)) 2 ∧
  Claims.Moves 0xD (fun step => -(step / 8 + step / 4 + step : Nat)) 4 ∧
  Claims.Moves 0xE (fun step => -(step / 8 + step / 2 + step : Nat)) 6 ∧
  Claims.Moves 0xF (fun step => -(step / 8 + step / 4 + step / 2 + step : Nat)) 8

/-- 41_dequantizer_predictor.md R79: the transition keeps the domain, and the reconstructed sample is
the new predicted sample. -/
def Obligations.TransitionKeepsDomain : Prop :=
  ∀ (s : Adaptive) (c : Code), s.InDomain →
    (transition s c).1.InDomain ∧ (transition s c).2 = (transition s c).1.p

/-- 41_dequantizer_predictor.md R78: the widths the intermediate values need before clipping, with the
table of 40_step_table.md R70. -/
def Obligations.TransitionIntermediatesBounded : Prop :=
  ∀ (s : Adaptive) (c : Code), s.InDomain →
    (delta (stepSize s.x) c).natAbs ≤ 61436 ∧
    -94204 ≤ s.p + delta (stepSize s.x) c ∧ s.p + delta (stepSize s.x) c ≤ 94203 ∧
    -1 ≤ (s.x : Int) + indexDelta (magnitude c) ∧ (s.x : Int) + indexDelta (magnitude c) ≤ 96

/-! ## The sixteen codes as instructions -/

/-- The instruction `i` completes on every state whose `CHSEL` selects a channel, and its whole effect
is the transition of that channel by code `c` (the channel is the model's convention, log 5). -/
def Sys2Proof.Claims.RunsCode (i : Instr) (c : Code) : Prop :=
  ∀ (s : State) (ch : Chan), s.ch[s.args.chsel.toNat]? = some ch →
    exec i s = .next
      { s with
        ch := s.ch.set s.args.chsel.toNat
          ⟨BitVec.ofInt 16 (transition ⟨ch.pred.toInt, ch.index.toNat⟩ c).1.p,
            BitVec.ofNat 8 (transition ⟨ch.pred.toInt, ch.index.toNat⟩ c).1.x⟩ }

/-- 41_dequantizer_predictor.md R77, R80 to R95: each code as an instruction completes with its
transition of the selected channel and nothing else: no flag, no other register, no memory. Which
channel a code handed over alone acts on is the model's convention (log 5). -/
def Obligations.CodesCompleteWithTheirTransition : Prop :=
  Claims.RunsCode .code0 0x0 ∧ Claims.RunsCode .code1 0x1 ∧ Claims.RunsCode .code2 0x2 ∧
  Claims.RunsCode .code3 0x3 ∧ Claims.RunsCode .code4 0x4 ∧ Claims.RunsCode .code5 0x5 ∧
  Claims.RunsCode .code6 0x6 ∧ Claims.RunsCode .code7 0x7 ∧ Claims.RunsCode .code8 0x8 ∧
  Claims.RunsCode .code9 0x9 ∧ Claims.RunsCode .codeA 0xA ∧ Claims.RunsCode .codeB 0xB ∧
  Claims.RunsCode .codeC 0xC ∧ Claims.RunsCode .codeD 0xD ∧ Claims.RunsCode .codeE 0xE ∧
  Claims.RunsCode .codeF 0xF

/-- 30_encoding.md R54 ("no code has meaning outside the AdaptiveState that produced/consumes it"): a
code with no selected channel is refused by name. The model's choice (log 5). -/
def Obligations.CodeWithoutChannelIsRefused : Prop :=
  ∀ (i : Instr) (s : State), i.isCommand = false → s.nchMax ≤ s.args.chsel.toNat →
    exec i s = .refused .codeWithoutChannel

/-! ## STEP and the seeds -/

/-- 41_dequantizer_predictor.md R96: STEP without a channel fails; with one it completes, and these are
all its effects. -/
def Obligations.StepResult : Prop :=
  (∀ s : State, s.nchMax ≤ s.args.chsel.toNat →
    exec .step s = .next { s with result := .invalidParam, outCount := 0 }) ∧
  (∀ (s : State) (ch : Chan) (r : Int), s.ch[s.args.chsel.toNat]? = some ch →
    r = clip (ch.pred.toInt + delta (stepSize ch.index.toNat) s.args.code) (-32768) 32767 →
    exec .step s = .next
      { s with
        ch := s.ch.set s.args.chsel.toNat
          ⟨BitVec.ofInt 16 r,
            BitVec.ofInt 8 (clip (ch.index.toNat + indexDelta (magnitude s.args.code)) 0 88)⟩
        res := { s.res with sample := BitVec.ofInt 32 r }
        outCount := 0
        result := .success })

/-- 41_dequantizer_predictor.md R96, R80 to R95: STEP is the code of `ARG_CODE` executed on the selected
channel, with the new predicted sample shown sign-extended in `RES_SAMPLE` and the command's own
completion. (The code alone is the model's instruction, log 5.) -/
def Obligations.StepIsOneCode : Prop :=
  ∀ (s u : State) (c : Chan),
    exec (decodeCode s.args.code) s = .next u → u.ch[s.args.chsel.toNat]? = some c →
    exec .step s = .next
      { u with
        res := { u.res with sample := c.pred.signExtend 32 }
        outCount := 0
        result := .success }

/-- 43_stream_codec.md R113: INIT_ENC. -/
def Obligations.InitEncResult : Prop :=
  ∀ s : State,
    (s.nchMax ≤ s.args.chsel.toNat ∨ 88 < s.args.index.toNat →
      exec .initEnc s = .next { s with result := .invalidParam, outCount := 0 }) ∧
    (s.args.chsel.toNat < s.nchMax → s.args.index.toNat ≤ 88 →
      exec .initEnc s = .next
        { s with
          ch := s.ch.set s.args.chsel.toNat ⟨s.args.sample, s.args.index⟩
          errAcc := 0
          outCount := 0
          result := .success })

/-- 43_stream_codec.md R114: INIT_DEC, which leaves `ERR_ACC` alone. -/
def Obligations.InitDecResult : Prop :=
  ∀ s : State,
    (s.nchMax ≤ s.args.chsel.toNat ∨ 88 < s.args.index.toNat →
      exec .initDec s = .next { s with result := .invalidParam, outCount := 0 }) ∧
    (s.args.chsel.toNat < s.nchMax → s.args.index.toNat ≤ 88 →
      exec .initDec s = .next
        { s with
          ch := s.ch.set s.args.chsel.toNat ⟨s.args.sample, s.args.index⟩
          outCount := 0
          result := .success })

/-! ## The selector -/

/-- 42_lookahead_code_selector.md R99: the greedy code's sign bit and magnitude, and the zero
difference. -/
def Obligations.GreedyCodeRule : Prop :=
  ∀ (s : Adaptive) (t : Int), s.InDomain → IsSample t →
    (greedy s t).getLsbD 3 = decide (t - s.p < 0) ∧
    (magnitude (greedy s t)).toNat = min 7 (4 * (t - s.p).natAbs / stepSize s.x) ∧
    greedy s s.p = 0x0

/-- 43_stream_codec.md R121, the bound the rules do give: with the quotient at most 7 and no clipping,
the greedy code's error is below the step. -/
def Obligations.GreedyErrorBelowStep : Prop :=
  ∀ (s : Adaptive) (t : Int), s.InDomain → IsSample t →
    4 * (t - s.p).natAbs / stepSize s.x ≤ 7 →
    IsSample (s.p + delta (stepSize s.x) (greedy s t)) →
    ((transition s (greedy s t)).2 - t).natAbs < stepSize s.x

/-- 42_lookahead_code_selector.md R101: both metrics, and their bounds on samples. -/
def Obligations.ErrorMetricBounds : Prop :=
  ∀ r t : Int, IsSample r → IsSample t →
    (err .squared r t : Int) = (r - t) * (r - t) ∧ err .squared r t ≤ 4294836225 ∧
    (err .absolute r t : Int) = |r - t| ∧ err .absolute r t ≤ 65535

/-- 42_lookahead_code_selector.md R106: the search's total is the least total over the bounded horizon,
for both metrics, every depth, state and window; and above depth 0 its code is the first in the order
`g, 0, 1, ..., 15` that attains it, shown with its own immediate error. (In a window too short for
R98 a missing sample is a free value, the model's choice, log 12.) -/
def Obligations.SearchTotalIsMinTotal : Prop :=
  ∀ (m : Config.ErrMetric) (depth : Nat) (s : Adaptive) (w : List Int),
    (search m depth s w).total = minTotal m depth s w ∧
    (search m depth s w).imm = err m (transition s (search m depth s w).code).2 (headSample w) ∧
    (∀ d, depth = d + 1 →
      (greedy s (headSample w) :: allCodes).find? (fun c =>
        costOf m (fun s' => minTotal m d s' w.tail) s (headSample w) c == minTotal m depth s w) =
      some (search m depth s w).code)

/-- 42_lookahead_code_selector.md R105: the winner is of least total; the greedy code wins if it is of
least total; and otherwise the winner is the numerically smallest code of least total. `cost c` is the
total of taking code `c` first. (In a window too short for R98 a missing sample is a free value, the
model's choice, log 12.) -/
def Obligations.SearchTieRule : Prop :=
  ∀ (m : Config.ErrMetric) (d : Nat) (s : Adaptive) (w : List Int) (cost : Code → Nat),
    cost = costOf m (fun s' => minTotal m d s' w.tail) s (headSample w) →
    cost (search m (d + 1) s w).code = minTotal m (d + 1) s w ∧
    (∀ c, cost (search m (d + 1) s w).code ≤ cost c) ∧
    ((∀ c, cost (greedy s (headSample w)) ≤ cost c) →
      (search m (d + 1) s w).code = greedy s (headSample w)) ∧
    (¬ (∀ c, cost (greedy s (headSample w)) ≤ cost c) →
      ∀ c, cost c = minTotal m (d + 1) s w → (search m (d + 1) s w).code.toNat ≤ c.toNat)

/-- 42_lookahead_code_selector.md R104: the prune never changes the result of the search. (In a window too
short for R98 a missing sample is a free value, the model's choice, log 12.) -/
def Obligations.SearchPruneIsSound : Prop :=
  ∀ (m : Config.ErrMetric) (depth : Nat) (s : Adaptive) (w : List Int),
    search m depth s w = searchUnpruned m depth s w

/-- 42_lookahead_code_selector.md R108, 43_stream_codec.md R122: at lookahead 0 every code is the greedy
code, so a run is the greedy code stream. (The sample of an empty window is a free value, the model's
choice, log 12.) -/
def Obligations.LookaheadZeroIsGreedy : Prop :=
  ∀ (m : Config.ErrMetric) (s : Adaptive) (w : List Int),
    search m 0 s w =
      ⟨greedy s (headSample w), err m (transition s (greedy s (headSample w))).2 (headSample w),
        err m (transition s (greedy s (headSample w))).2 (headSample w)⟩ ∧
    (encodeRun m 0 s w).codes = greedyRun s w

/-- 42_lookahead_code_selector.md R109: CHOOSE fails on its causes; on fitting extents it completes
with the search's code and immediate error and changes nothing else. -/
def Obligations.ChooseResult : Prop :=
  (∀ s : State, s.nchMax ≤ s.args.chsel.toNat ∨ s.args.srcAddr = 0 ∨ s.args.count.toInt ≤ 0 →
    exec .choose s = .next { s with result := .invalidParam, outCount := 0 }) ∧
  (∀ (s : State) (ch : Chan) (n depth : Nat) (r : Choice),
    s.ch[s.args.chsel.toNat]? = some ch → s.args.srcAddr ≠ 0 → s.args.count.toInt = n → 0 < n →
    depth = min s.args.lookahead.toNat (n - 1) →
    s.fits ⟨s.args.srcAddr.toNat, 2 * (1 + depth)⟩ noBuffer = true →
    r = search .squared depth ⟨ch.pred.toInt, ch.index.toNat⟩
      ((List.range (depth + 1)).map fun i => (readHalf s.mem (s.args.srcAddr.toNat + 2 * i)).toInt) →
    exec .choose s = .next
      { s with
        res := { s.res with code := r.code, err := BitVec.ofNat 32 r.imm }
        outCount := 0
        result := .success })

/-! ## The stream commands -/

/-- 43_stream_codec.md R115: ENC_STREAM fails on its causes; on fitting extents it completes, and these
are its channel, accumulator, count, output bytes and frame. -/
def Obligations.EncStreamResult : Prop :=
  (∀ s : State, s.nchMax ≤ s.args.chsel.toNat ∨ s.args.srcAddr = 0 ∨ s.args.dstAddr = 0 ∨
      s.args.count.toInt ≤ 0 →
    exec .encStream s = .next { s with result := .invalidParam, outCount := 0 }) ∧
  (∀ (s : State) (ch : Chan) (n : Nat) (r : Run),
    s.ch[s.args.chsel.toNat]? = some ch → s.args.srcAddr ≠ 0 → s.args.dstAddr ≠ 0 →
    s.args.count.toInt = n → 0 < n → Memory.wf s.mem = true →
    s.fits ⟨s.args.srcAddr.toNat, 2 * n⟩ ⟨s.args.dstAddr.toNat, (n + 1) / 2⟩ = true →
    r = encodeRun .squared s.args.lookahead.toNat ⟨ch.pred.toInt, ch.index.toNat⟩
      ((List.range n).map fun i => (readHalf s.mem (s.args.srcAddr.toNat + 2 * i)).toInt) →
    ∃ t, exec .encStream s = .next t ∧
      t = { s with
        ch := s.ch.set s.args.chsel.toNat ⟨BitVec.ofInt 16 r.state.p, BitVec.ofNat 8 r.state.x⟩
        errAcc := s.errAcc + BitVec.ofNat 64 r.err
        mem := t.mem
        outCount := BitVec.ofNat 32 ((n + 1) / 2)
        result := .success } ∧
      (∀ j, j < (n + 1) / 2 → readByte t.mem (s.args.dstAddr.toNat + j) =
        r.codes.getD (2 * j + 1) 0x0 ++ r.codes.getD (2 * j) 0x0) ∧
      (∀ a, a < s.args.dstAddr.toNat ∨ s.args.dstAddr.toNat + (n + 1) / 2 ≤ a →
        readByte t.mem a = readByte s.mem a))

/-- 43_stream_codec.md R117: DEC_STREAM fails on its causes; on fitting extents it completes, and these
are its channel, count, output samples and frame. -/
def Obligations.DecStreamResult : Prop :=
  (∀ s : State, s.nchMax ≤ s.args.chsel.toNat ∨ s.args.srcAddr = 0 ∨ s.args.dstAddr = 0 ∨
      s.args.count.toInt ≤ 0 →
    exec .decStream s = .next { s with result := .invalidParam, outCount := 0 }) ∧
  (∀ (s : State) (ch : Chan) (n : Nat) (r : List Int × Adaptive),
    s.ch[s.args.chsel.toNat]? = some ch → s.args.srcAddr ≠ 0 → s.args.dstAddr ≠ 0 →
    s.args.count.toInt = n → 0 < n → Memory.wf s.mem = true →
    s.fits ⟨s.args.srcAddr.toNat, (n + 1) / 2⟩ ⟨s.args.dstAddr.toNat, 2 * n⟩ = true →
    r = decodeRun ⟨ch.pred.toInt, ch.index.toNat⟩
      ((List.range n).map fun k =>
        if k % 2 = 0 then (readByte s.mem (s.args.srcAddr.toNat + k / 2)).extractLsb' 0 4
        else (readByte s.mem (s.args.srcAddr.toNat + k / 2)).extractLsb' 4 4) →
    ∃ t, exec .decStream s = .next t ∧
      t = { s with
        ch := s.ch.set s.args.chsel.toNat ⟨BitVec.ofInt 16 r.2.p, BitVec.ofNat 8 r.2.x⟩
        mem := t.mem
        outCount := BitVec.ofNat 32 n
        result := .success } ∧
      (∀ k, k < n →
        readHalf t.mem (s.args.dstAddr.toNat + 2 * k) = BitVec.ofInt 16 (r.1.getD k 0)) ∧
      (∀ a, a < s.args.dstAddr.toNat ∨ s.args.dstAddr.toNat + 2 * n ≤ a →
        readByte t.mem a = readByte s.mem a))

/-- 43_stream_codec.md R118: a stream encoded by ENC_STREAM and decoded by DEC_STREAM from the same
channel state gives the encoder's own reconstruction, and the two final channel states are equal. The
decoder's state `d` may differ from the encoder's in everything but what the rule names. -/
def Obligations.StreamRoundTrip : Prop :=
  ∀ (s t d : State) (ch : Chan) (n : Nat),
    s.ch[s.args.chsel.toNat]? = some ch → Memory.wf s.mem = true → s.args.count.toInt = n →
    exec .encStream s = .next t → t.result = .success →
    d.ch[d.args.chsel.toNat]? = some ch → d.mem = t.mem → d.args.srcAddr = s.args.dstAddr →
    d.args.dstAddr ≠ 0 → d.args.count = s.args.count →
    d.fits ⟨d.args.srcAddr.toNat, (n + 1) / 2⟩ ⟨d.args.dstAddr.toNat, 2 * n⟩ = true →
    ∃ u, exec .decStream d = .next u ∧ u.result = .success ∧
      u.ch[d.args.chsel.toNat]? = t.ch[s.args.chsel.toNat]? ∧
      ∀ k, k < n → readHalf u.mem (d.args.dstAddr.toNat + 2 * k) =
        u16 ((reconstruction .squared s.args.lookahead.toNat ch.state
          (readSamples s.mem s.args.srcAddr.toNat 1 0 n)).getD k 0)

/-- 43_stream_codec.md R119: the output bytes, the final channel state and the increase of `ERR_ACC`
depend on the start state, the samples and the lookahead alone. -/
def Obligations.EncStreamDependsOnInputsAlone : Prop :=
  ∀ (s₁ s₂ t₁ t₂ : State) (n : Nat),
    Memory.wf s₁.mem = true → Memory.wf s₂.mem = true →
    exec .encStream s₁ = .next t₁ → exec .encStream s₂ = .next t₂ →
    t₁.result = .success → t₂.result = .success →
    s₁.ch[s₁.args.chsel.toNat]? = s₂.ch[s₂.args.chsel.toNat]? →
    s₁.args.lookahead = s₂.args.lookahead → s₁.args.count.toInt = n → s₂.args.count.toInt = n →
    readSamples s₁.mem s₁.args.srcAddr.toNat 1 0 n = readSamples s₂.mem s₂.args.srcAddr.toNat 1 0 n →
    t₁.ch[s₁.args.chsel.toNat]? = t₂.ch[s₂.args.chsel.toNat]? ∧
    t₁.errAcc - s₁.errAcc = t₂.errAcc - s₂.errAcc ∧ t₁.outCount = t₂.outCount ∧
    ∀ j, j < (n + 1) / 2 →
      readByte t₁.mem (s₁.args.dstAddr.toNat + j) = readByte t₂.mem (s₂.args.dstAddr.toNat + j)

/-- 00_scope.md R4, 43_stream_codec.md R117: DEC_STREAM is its codes executed one per sample. Running
the codes of the input as instructions, one after the other, leaves the selected channel as
DEC_STREAM leaves it and changes nothing else. (The codes as instructions are the model's, log 5.) -/
def Obligations.DecStreamRunsItsCodes : Prop :=
  ∀ s t : State, exec .decStream s = .next t → t.result = .success →
    runCodes (readCodes s.mem s.args.srcAddr.toNat s.args.count.toInt.toNat) s =
      .next { s with ch := t.ch }

/-- 43_stream_codec.md R120: a run decoded in two pieces that meet at an even code index, by consecutive
commands on the same channel, gives the samples and the channel state of one command on the whole
run, and the same memory. `t₁` is the state after the first piece, over which the host sets the
arguments of the second. -/
def Obligations.DecStreamInPieces : Prop :=
  ∀ (s t : State) (h n₂ : Nat), 0 < h → 0 < n₂ → Memory.wf s.mem = true →
    s.args.count.toInt = (2 * h + n₂ : Nat) → exec .decStream s = .next t → t.result = .success →
    ∃ t₁ t₂,
      exec .decStream { s with args := { s.args with count := BitVec.ofNat 32 (2 * h) } } = .next t₁ ∧
      exec .decStream { t₁ with args := { s.args with
        srcAddr := s.args.srcAddr + BitVec.ofNat 32 h
        dstAddr := s.args.dstAddr + BitVec.ofNat 32 (4 * h)
        count := BitVec.ofNat 32 n₂ } } = .next t₂ ∧
      t₁.result = .success ∧ t₂.result = .success ∧ t₂.ch = t.ch ∧ t₂.mem = t.mem

/-! ## The context and the block commands -/

/-- 44_block_framer.md R124: CTX_CREATE fails on its causes; else it completes with the context, the
seeded channels and a cleared `ERR_ACC`. -/
def Obligations.CtxCreateResult : Prop :=
  ∀ (s : State) (n : Nat), s.args.nch.toNat = n →
    (n < 1 ∨ s.nchMax < n ∨ s.args.srcAddr = 0 →
      exec .ctxCreate s = .next { s with result := .invalidParam, outCount := 0 }) ∧
    (1 ≤ n → n ≤ s.nchMax → s.args.srcAddr ≠ 0 →
      s.fits ⟨s.args.srcAddr.toNat, n⟩ noBuffer = true →
      ((∃ c < n, 88 < (readByte s.mem (s.args.srcAddr.toNat + c)).toNat) →
        exec .ctxCreate s = .next { s with result := .invalidParam, outCount := 0 }) ∧
      ((∀ c < n, (readByte s.mem (s.args.srcAddr.toNat + c)).toNat ≤ 88) →
        exec .ctxCreate s = .next
          { s with
            ch := ((List.range n).map fun c => ⟨0, readByte s.mem (s.args.srcAddr.toNat + c)⟩) ++
              s.ch.drop n
            ctx := ⟨true, s.args.nch, s.args.lookahead⟩
            errAcc := 0
            outCount := 0
            result := .success }))

/-- 44_block_framer.md R125: CTX_FREE always completes, clears the context and nothing else. -/
def Obligations.CtxFreeResult : Prop :=
  ∀ s : State, exec .ctxFree s = .next
    { s with ctx := ⟨false, 0, 0⟩, outCount := 0, result := .success }

/-- 44_block_framer.md R126 to R129, 30_encoding.md R58, R59: ENC_BLOCK fails on its causes; with a
context and fitting extents it completes, and these are its channels, accumulator, count, header
bytes, chunk bytes and frame. `w c` are the samples of channel `c`, `r c` its run after the first
sample from the index it held on entry. -/
def Obligations.EncBlockResult : Prop :=
  (∀ s : State, s.ctx.valid = false ∨ s.args.srcAddr = 0 ∨ s.args.dstAddr = 0 ∨
      s.args.count.toInt ≤ 0 ∨ (s.args.count.toInt - 1) % 8 ≠ 0 →
    exec .encBlock s = .next { s with result := .invalidParam, outCount := 0 }) ∧
  (∀ (s : State) (n k : Nat) (w : Nat → List Int) (x : Nat → Byte) (r : Nat → Run),
    s.ctx.valid = true → s.args.srcAddr ≠ 0 → s.args.dstAddr ≠ 0 → s.ctx.nch.toNat = n →
    n ≤ s.nchMax → s.args.count.toInt = (1 + 8 * k : Nat) → Memory.wf s.mem = true →
    s.fits ⟨s.args.srcAddr.toNat, 2 * (1 + 8 * k) * n⟩
      ⟨s.args.dstAddr.toNat, n * (4 + 4 * k)⟩ = true →
    (∀ c < n, w c = (List.range (1 + 8 * k)).map fun i =>
      (readHalf s.mem (s.args.srcAddr.toNat + 2 * (i * n + c))).toInt) →
    (∀ c < n, (s.ch[c]?).map Chan.index = some (x c)) →
    (∀ c < n, r c = encodeRun .squared s.ctx.la.toNat ⟨headSample (w c), (x c).toNat⟩ (w c).tail) →
    ∃ t, exec .encBlock s = .next t ∧
      t = { s with
        ch := ((List.range n).map fun c =>
            ⟨BitVec.ofInt 16 (r c).state.p, BitVec.ofNat 8 (r c).state.x⟩) ++ s.ch.drop n
        errAcc := s.errAcc + BitVec.ofNat 64 ((List.range n).map fun c => (r c).err).sum
        mem := t.mem
        outCount := BitVec.ofNat 32 (n * (4 + 4 * k))
        result := .success } ∧
      (∀ c < n,
        readHalf t.mem (s.args.dstAddr.toNat + 4 * c) = BitVec.ofInt 16 (headSample (w c)) ∧
        readByte t.mem (s.args.dstAddr.toNat + 4 * c + 2) = x c ∧
        readByte t.mem (s.args.dstAddr.toNat + 4 * c + 3) = 0x00) ∧
      (∀ j < k, ∀ c < n, ∀ b < 4,
        readByte t.mem (s.args.dstAddr.toNat + 4 * n + 4 * n * j + 4 * c + b) =
          (r c).codes.getD (8 * j + 2 * b + 1) 0x0 ++ (r c).codes.getD (8 * j + 2 * b) 0x0) ∧
      (∀ a, a < s.args.dstAddr.toNat ∨ s.args.dstAddr.toNat + n * (4 + 4 * k) ≤ a →
        readByte t.mem a = readByte s.mem a))

/-- 44_block_framer.md R131, R132, 60_exceptions.md R139, R144: DEC_BLOCK fails on its causes; a count
too short for the headers, or any bad header, gives zero samples with SUCCESS and changes nothing
else. -/
def Obligations.DecBlockRejects : Prop :=
  ∀ (s : State) (n : Nat), s.args.nch.toNat = n →
    (n < 1 ∨ s.nchMax < n ∨ s.args.srcAddr = 0 ∨ s.args.dstAddr = 0 ∨ s.args.count.toInt ≤ 0 →
      exec .decBlock s = .next { s with result := .invalidParam, outCount := 0 }) ∧
    (1 ≤ n → n ≤ s.nchMax → s.args.srcAddr ≠ 0 → s.args.dstAddr ≠ 0 → 0 < s.args.count.toInt →
      (s.args.count.toInt < 4 * n →
        exec .decBlock s = .next { s with result := .success, outCount := 0 }) ∧
      (4 * n ≤ s.args.count.toInt →
        s.fits ⟨s.args.srcAddr.toNat, 4 * n⟩ noBuffer = true →
        (∃ c < n, 88 < (readByte s.mem (s.args.srcAddr.toNat + 4 * c + 2)).toNat ∨
          readByte s.mem (s.args.srcAddr.toNat + 4 * c + 3) ≠ 0x00) →
        exec .decBlock s = .next { s with result := .success, outCount := 0 }))

/-- 44_block_framer.md R131 to R134: DEC_BLOCK on a block of `n` good headers and `k` whole chunk groups
completes, and these are its samples, its count and its frame: no channel register, no context, no
`ERR_ACC`. `codes c` are the codes of channel `c` in sample order. -/
def Obligations.DecBlockResult : Prop :=
  ∀ (s : State) (n k : Nat) (codes : Nat → List Code) (r : Nat → List Int),
    s.args.nch.toNat = n → 1 ≤ n → n ≤ s.nchMax → s.args.srcAddr ≠ 0 → s.args.dstAddr ≠ 0 →
    4 * n ≤ s.args.count.toInt → k = (s.args.count.toInt.toNat - 4 * n) / (4 * n) →
    Memory.wf s.mem = true →
    s.fits ⟨s.args.srcAddr.toNat, 4 * n⟩ noBuffer = true →
    s.fits ⟨s.args.srcAddr.toNat, 4 * n * (1 + k)⟩
      ⟨s.args.dstAddr.toNat, 2 * (1 + 8 * k) * n⟩ = true →
    (∀ c < n, (readByte s.mem (s.args.srcAddr.toNat + 4 * c + 2)).toNat ≤ 88 ∧
      readByte s.mem (s.args.srcAddr.toNat + 4 * c + 3) = 0x00) →
    (∀ c < n, (codes c).length = 8 * k ∧ ∀ j < k, ∀ b < 4,
      (codes c)[8 * j + 2 * b]? = some ((readByte s.mem
        (s.args.srcAddr.toNat + 4 * n + 4 * n * j + 4 * c + b)).extractLsb' 0 4) ∧
      (codes c)[8 * j + 2 * b + 1]? = some ((readByte s.mem
        (s.args.srcAddr.toNat + 4 * n + 4 * n * j + 4 * c + b)).extractLsb' 4 4)) →
    (∀ c < n, r c = (decodeRun ⟨(readHalf s.mem (s.args.srcAddr.toNat + 4 * c)).toInt,
      (readByte s.mem (s.args.srcAddr.toNat + 4 * c + 2)).toNat⟩ (codes c)).1) →
    ∃ t, exec .decBlock s = .next t ∧
      t = { s with
        mem := t.mem, outCount := BitVec.ofNat 32 (1 + 8 * k), result := .success } ∧
      (∀ c < n, readHalf t.mem (s.args.dstAddr.toNat + 2 * c) =
        readHalf s.mem (s.args.srcAddr.toNat + 4 * c)) ∧
      (∀ c < n, ∀ i < 8 * k, readHalf t.mem (s.args.dstAddr.toNat + 2 * ((i + 1) * n + c)) =
        BitVec.ofInt 16 ((r c).getD i 0)) ∧
      (∀ a, a < s.args.dstAddr.toNat ∨ s.args.dstAddr.toNat + 2 * (1 + 8 * k) * n ≤ a →
        readByte t.mem a = readByte s.mem a)

/-- 44_block_framer.md R135: a block encoded by ENC_BLOCK and decoded by DEC_BLOCK gives sample 0 of
each channel exactly, the encoder's own reconstruction after it, and a replay that ends in the channel
state ENC_BLOCK left. The decoder's state `d` may differ from the encoder's in everything but the
memory and what the rule names. -/
def Obligations.BlockRoundTrip : Prop :=
  ∀ (s t d : State) (n k : Nat),
    s.Inv → exec .encBlock s = .next t → t.result = .success → s.ctx.nch.toNat = n →
    s.args.count.toInt = (1 + 8 * k : Nat) →
    d.mem = t.mem → d.args.srcAddr = s.args.dstAddr → d.args.dstAddr ≠ 0 → d.args.nch = s.ctx.nch →
    n ≤ d.nchMax → d.args.count = t.outCount →
    d.fits ⟨d.args.srcAddr.toNat, 4 * n⟩ noBuffer = true →
    d.fits ⟨d.args.srcAddr.toNat, 4 * n * (1 + k)⟩
      ⟨d.args.dstAddr.toNat, 2 * (1 + 8 * k) * n⟩ = true →
    ∃ u, exec .decBlock d = .next u ∧ u.result = .success ∧ u.outCount.toNat = 1 + 8 * k ∧
      ∀ c < n, ∀ ch : Chan, s.ch[c]? = some ch → ∀ w : List Int,
        w = readSamples s.mem s.args.srcAddr.toNat n c (1 + 8 * k) →
        readHalf u.mem (d.args.dstAddr.toNat + 2 * c) =
          readHalf s.mem (s.args.srcAddr.toNat + 2 * c) ∧
        (∀ i < 8 * k, readHalf u.mem (d.args.dstAddr.toNat + 2 * ((i + 1) * n + c)) =
          u16 ((reconstruction .squared s.ctx.la.toNat ⟨headSample w, ch.index.toNat⟩ w.tail).getD i 0)) ∧
        t.ch[c]? = some (decodeRun ⟨headSample w, ch.index.toNat⟩
          (blockCodes d.mem d.args.srcAddr.toNat n k c)).2.chan

/-! ## Failures -/

/-- 30_encoding.md R63: the six reserved opcodes complete by failing, and change nothing but `RESULT`
and `OUT_COUNT`. -/
def Obligations.ReservedOpcodesFail : Prop :=
  ∀ s : State,
    exec .reserved0 s = .next { s with result := .invalidParam, outCount := 0 } ∧
    exec .reservedB s = .next { s with result := .invalidParam, outCount := 0 } ∧
    exec .reservedC s = .next { s with result := .invalidParam, outCount := 0 } ∧
    exec .reservedD s = .next { s with result := .invalidParam, outCount := 0 } ∧
    exec .reservedE s = .next { s with result := .invalidParam, outCount := 0 } ∧
    exec .reservedF s = .next { s with result := .invalidParam, outCount := 0 }

/-- 60_exceptions.md R143: a command that ends INVALID_PARAM changes nothing but `RESULT` and
`OUT_COUNT`. -/
def Obligations.FailuresArePrecise : Prop :=
  ∀ (i : Instr) (s t : State), i.isCommand = true → exec i s = .next t →
    t.result = .invalidParam → t = { s with result := .invalidParam, outCount := 0 }

/-- 60_exceptions.md R138: the causes of INVALID_PARAM, complete. A command that completes ends
INVALID_PARAM exactly when a cause of its own holds; and a cause makes it complete so, CTX_CREATE's
index bytes apart, which it must be able to read. -/
def Obligations.InvalidParamCausesComplete : Prop :=
  (∀ (i : Instr) (s t : State), i.isCommand = true → exec i s = .next t →
    (t.result = .invalidParam ↔ InvalidCause i s)) ∧
  (∀ (i : Instr) (s : State), i.isCommand = true → i ≠ .ctxCreate → InvalidCause i s →
    exec i s = .next { s with result := .invalidParam, outCount := 0 })

/-- Where the instruction `i` stops on its extents: one that passes the top of memory, extents that
share a byte, a byte of a device, a byte the platform does not back, each by its own name. Which name
is given where two apply is the model's choice (log 8). -/
def Sys2Proof.Claims.StopsOff (i : Instr) (s : State) (input output : Span) : Prop :=
  (2 ^ 32 < input.addr + input.len ∨ 2 ^ 32 < output.addr + output.len →
    exec i s = .refused .bufferWraps) ∧
  (input.addr + input.len ≤ 2 ^ 32 → output.addr + output.len ≤ 2 ^ 32 →
    ((∃ a, input.holds a = true ∧ output.holds a = true) →
      exec i s = .refused .buffersOverlap) ∧
    ((∀ a, input.holds a = true → output.holds a = false) →
      ((∃ a, (input.holds a = true ∨ output.holds a = true) ∧ s.platform.isDevice a = true) →
        exec i s = .refused .deviceAccess) ∧
      ((∀ a, input.holds a = true ∨ output.holds a = true → s.platform.isDevice a = false) →
        (∃ a, (input.holds a = true ∨ output.holds a = true) ∧ s.platform.backs a = false) →
        exec i s = .fault .unadmittedByte)))

/-- 20_memory.md R43, R44, R49, 93 U3, U4, U5: with its parameters valid, DEC_STREAM on extents that
wrap or overlap or touch a device is refused by name, and on plain extents the platform does not back
it is stuck. (Which name is given where two apply is the model's choice, log 8.) -/
def Obligations.DecStreamStopsOffItsBuffers : Prop :=
  ∀ (s : State) (n : Nat),
    s.args.chsel.toNat < s.nchMax → s.args.srcAddr ≠ 0 → s.args.dstAddr ≠ 0 →
    s.args.count.toInt = n → 0 < n →
    Claims.StopsOff .decStream s ⟨s.args.srcAddr.toNat, (n + 1) / 2⟩ ⟨s.args.dstAddr.toNat, 2 * n⟩

/-! ## Frames over all instructions -/

/-- No instruction changes an argument register: 10_state.md R22, R23, R27 say so of six of them, and of
`LOOKAHEAD`, `NCH` and `CHSEL` the instructions' own rules, which list all they write. Nor the
platform's parameters (the model's field, log 3), the number of channels (log 2), the host's pending
actions or what its last read returned (the model's fields, log 1). -/
def Obligations.NoInstructionChangesItsArguments : Prop :=
  ∀ (i : Instr) (s t : State), exec i s = .next t →
    t.args = s.args ∧ t.platform = s.platform ∧ t.nchMax = s.nchMax ∧ t.pending = s.pending ∧
    t.busRead = s.busRead

/-- 10_state.md R14, R19, R29, R30, 20_memory.md R38: each register and the memory change only by the
instructions the spec names as their writers (the codes as writers of a channel register are the
model's, log 5). -/
def Obligations.OnlyNamedWritersWrite : Prop :=
  ∀ (i : Instr) (s t : State), exec i s = .next t →
    (i.writesChannels = false → t.ch = s.ch) ∧
    (i ≠ .ctxCreate → i ≠ .ctxFree → t.ctx = s.ctx) ∧
    (i.writesErrAcc = false → t.errAcc = s.errAcc) ∧
    (i ≠ .choose → t.res.code = s.res.code ∧ t.res.err = s.res.err) ∧
    (i ≠ .step → t.res.sample = s.res.sample) ∧
    (i.writesMemory = false → t.mem = s.mem) ∧
    (i.isCommand = false → t.result = s.result ∧ t.outCount = s.outCount)

/-- 20_memory.md R48: whatever the instruction, every byte of memory outside its output extent reads
as before. The extent is empty for an instruction that stores nothing. -/
def Obligations.MemoryOutsideOutputIsKept : Prop :=
  ∀ (i : Instr) (s t : State) (a : Nat), Memory.wf s.mem = true → exec i s = .next t →
    (outputExtent i s).holds a = false → readByte t.mem a = readByte s.mem a

/-- 43_stream_codec.md R113 to R117, 44_block_framer.md R124, R128, 41_dequantizer_predictor.md R96: an
instruction on the selected channel leaves every other channel as it was, and CTX_CREATE and ENC_BLOCK
leave the channels from their count on. (That a code handed over alone acts on `CHSEL`'s channel is the
model's choice, log 5.) -/
def Obligations.OtherChannelsAreKept : Prop :=
  ∀ (i : Instr) (s t : State) (c : Nat), exec i s = .next t →
    (i ≠ .ctxCreate → i ≠ .encBlock → c ≠ s.args.chsel.toNat → t.ch[c]? = s.ch[c]?) ∧
    (i = .ctxCreate → s.args.nch.toNat ≤ c → t.ch[c]? = s.ch[c]?) ∧
    (i = .encBlock → s.ctx.nch.toNat ≤ c → t.ch[c]? = s.ch[c]?)

/-! ## The invariant and reset -/

/-- 10_state.md R17, R19: every step, of a host action or a code, keeps the invariant: canonical memory,
every channel in its range, a legal instance size, a context that fits the instance. -/
def Obligations.EveryStepKeepsInv : Prop :=
  ∀ s t : State, s.Inv → step s = .next t → t.Inv

/-- 10_state.md R17, R35, 70_reset_and_hazards.md R152: the reset state of an instance of any legal size,
over any canonical memory, is a legal state. (That `State.reset` has 2 channels and an empty memory is
the model's choice, log 2 and 4.) -/
def Obligations.ResetStateIsLegal : Prop :=
  State.reset.Inv ∧
  ∀ (p : Platform) (n : Nat) (mem : Memory) (pending : List Input) (busRead : Word),
    1 ≤ n → n ≤ 255 → Memory.wf mem = true → (State.resetOf p n mem pending busRead).Inv

/-- 10_state.md R19 (`CTX_NCH` is 1..NCH_MAX when `CTX_VALID` = 1): under the invariant no step stops
because a context is wider than the instance. -/
def Obligations.ContextAlwaysFits : Prop :=
  ∀ s : State, s.Inv → step s ≠ .fault .contextBeyondChannels

/-- 70_reset_and_hazards.md R151, 10_state.md R35: reset puts every register at 0 and touches neither
memory nor the platform nor the number of channels. -/
def Obligations.ResetClearsRegistersOnly : Prop :=
  ∀ (s : State) (rest : List Input), s.pending = .reset :: rest →
    ∃ t, step s = .next t ∧
      (∀ c ∈ t.ch, c = ⟨0, 0⟩) ∧ t.nchMax = s.nchMax ∧
      t.ctx = ⟨false, 0, 0⟩ ∧ t.result = .success ∧ t.args = ⟨0, 0, 0, 0, 0, 0, 0, 0, 0⟩ ∧
      t.outCount = 0 ∧ t.res = ⟨0, 0, 0⟩ ∧ t.errAcc = 0 ∧ t.mem = s.mem ∧ t.platform = s.platform ∧
      t.pending = rest

/-! ## The step and the host port -/

/-- 10_state.md R21, R36, 30_encoding.md R61: a word written to `CMD` runs the command it decodes to, a
code handed over runs that code, and an instruction presented by its table bits runs as the next
step. What the step does beside the instruction is to take the input off the list. The list of inputs
and the idle step are the model's (log 1), and so is a code as an input of its own (log 5). -/
def Obligations.StepRunsTheDecodedInstruction : Prop :=
  (∀ (s : State) (v : Word) (rest : List Input), s.pending = .regWrite 0x00 .word v :: rest →
    step s = exec (decodeCommand v) { s with pending := rest }) ∧
  (∀ (s : State) (c : Code) (rest : List Input), s.pending = .code c :: rest →
    step s = exec (decodeCode c) { s with pending := rest }) ∧
  (∀ (s : State) (nbits w : Nat) (i : Instr), decodeTableWord nbits w = some i →
    step (s.withFetchWord nbits w) = exec i s) ∧
  (∀ s : State, s.pending = [] → step s = .next s)

/-- The RW registers of 10_state.md R20: their offsets, and the bits that are not reserved. -/
def Sys2Proof.Claims.writable : List (BitVec 11 × Word) :=
  [(0x08, 0xFFFFFFFF), (0x0C, 0xFFFFFFFF), (0x10, 0xFFFFFFFF), (0x14, 0xFF), (0x18, 0xFF),
    (0x1C, 0xFF), (0x20, 0xFFFF), (0x24, 0xFF), (0x28, 0xF), (0x40, 0xFFFFFFFF), (0x44, 0xFFFFFFFF)]

/-- 10_state.md R31, R36: a RW register written by the host reads back with its reserved bits 0, and the
write changes no other register and no memory. -/
def Obligations.WrittenRegistersReadBack : Prop :=
  ∀ (s : State) (v : Word), ∀ e ∈ Claims.writable,
    ∃ t, act s (.regWrite e.1 .word v) = .next t ∧ readOffset t e.1 = v &&& e.2 ∧
      (∀ d ∈ Claims.writable, d.1 ≠ e.1 → readOffset t d.1 = readOffset s d.1) ∧
      t = { s with args := t.args, errAcc := t.errAcc }

/-- 10_state.md R20, R31: a write to a read-only, reserved or unmapped offset is ignored, and a read of
`CMD` or of a reserved or unmapped offset returns 0. -/
def Obligations.OtherOffsetsIgnoreWrites : Prop :=
  ∀ (s : State) (off : BitVec 11) (v : Word), off.toNat % 4 = 0 →
    (off ≠ 0x00 → off ∉ Claims.writable.map Prod.fst → act s (.regWrite off .word v) = .next s) ∧
    (off = 0x00 ∨ off = 0x3C ∨ (0x48 ≤ off.toNat ∧ off.toNat < 0x80) ∨
        0x80 + 4 * s.nchMax ≤ off.toNat →
      readOffset s off = 0)

/-- 10_state.md R14, R19, R20, R22 to R30: what the host reads of the state: `STATUS`, `CH_STATE[c]`, the
argument registers the commands read, the results and the accumulator, each at its own offset. -/
def Obligations.RegisterReadsShowTheState : Prop :=
  ∀ s : State,
    (readOffset s 0x04).toNat = (if s.result = .invalidParam then 1 else 0) +
      2 * (if s.ctx.valid then 1 else 0) + 2 ^ 8 * s.ctx.nch.toNat + 2 ^ 16 * s.ctx.la.toNat ∧
    (∀ (c : Nat) (ch : Chan), c < 480 → s.ch[c]? = some ch →
      (readOffset s (BitVec.ofNat 11 (0x80 + 4 * c))).toNat =
        ch.pred.toNat + 2 ^ 16 * ch.index.toNat) ∧
    readOffset s 0x08 = s.args.srcAddr ∧ readOffset s 0x0C = s.args.dstAddr ∧
    readOffset s 0x10 = s.args.count ∧ (readOffset s 0x14).toNat = s.args.lookahead.toNat ∧
    (readOffset s 0x18).toNat = s.args.nch.toNat ∧ (readOffset s 0x1C).toNat = s.args.chsel.toNat ∧
    (readOffset s 0x20).toNat = s.args.sample.toNat ∧
    (readOffset s 0x24).toNat = s.args.index.toNat ∧ (readOffset s 0x28).toNat = s.args.code.toNat ∧
    readOffset s 0x2C = s.outCount ∧ (readOffset s 0x30).toNat = s.res.code.toNat ∧
    readOffset s 0x34 = s.res.err ∧ readOffset s 0x38 = s.res.sample ∧
    readOffset s 0x44 ++ readOffset s 0x40 = s.errAcc

/-- 10_state.md R36: a host read returns the value and changes no register, and an access that is not an
aligned 32-bit one is refused (R31, 93 U6). What a read returned is kept in the model's own field
`busRead` (log 1). -/
def Obligations.HostReadsHaveNoSideEffect : Prop :=
  ∀ (s : State) (off : BitVec 11) (size : AccessSize) (v : Word),
    (size = .word → off.toNat % 4 = 0 →
      act s (.regRead off size) = .next { s with busRead := readOffset s off }) ∧
    (size ≠ .word ∨ off.toNat % 4 ≠ 0 →
      act s (.regRead off size) = .refused .registerAccess ∧
      act s (.regWrite off size v) = .refused .registerAccess)

/-- 70_reset_and_hazards.md R164, 20_memory.md R43, R44: a host store changes the one byte it names and
nothing else, and a host load returns the byte, where the platform has memory. That both stop by name
elsewhere, at a device first, is the model's choice (log 8: R43 and R44 speak of a command's buffers),
and what a load returns is kept in the model's own field `busRead` (log 1). -/
def Obligations.HostMemoryAccess : Prop :=
  ∀ (s : State) (a : Word) (b : Byte), Memory.wf s.mem = true →
    (s.platform.isDevice a.toNat = true →
      act s (.memWrite a b) = .refused .deviceAccess ∧ act s (.memRead a) = .refused .deviceAccess) ∧
    (s.platform.isDevice a.toNat = false → s.platform.backs a.toNat = false →
      act s (.memWrite a b) = .fault .unadmittedByte ∧ act s (.memRead a) = .fault .unadmittedByte) ∧
    (s.platform.isDevice a.toNat = false → s.platform.backs a.toNat = true →
      (∃ t, act s (.memWrite a b) = .next t ∧ t = { s with mem := t.mem } ∧
        readByte t.mem a.toNat = b ∧ ∀ k, k ≠ a.toNat → readByte t.mem k = readByte s.mem k) ∧
      (∃ t, act s (.memRead a) = .next t ∧ t = { s with busRead := t.busRead } ∧
        t.busRead.toNat = (readByte s.mem a.toNat).toNat))

/-! ## Memory -/

/-- 20_memory.md R39, R40, R41: a 16-bit write puts the low byte at the lower address, reads back as
written, and changes no other byte. -/
def Obligations.HalfwordIsTwoBytesLowFirst : Prop :=
  ∀ (m : Memory) (a : Nat) (v : Pattern), Memory.wf m = true → a + 1 < 2 ^ 32 →
    (readByte (writeBytes m a (halfBytes v)) a).toNat = v.toNat % 256 ∧
    (readByte (writeBytes m a (halfBytes v)) (a + 1)).toNat = v.toNat / 256 ∧
    readHalf (writeBytes m a (halfBytes v)) a = v ∧
    (readHalf m a).toNat = (readByte m a).toNat + 256 * (readByte m (a + 1)).toNat ∧
    ∀ k, k ≠ a → k ≠ a + 1 → readByte (writeBytes m a (halfBytes v)) k = readByte m k

/-- The model's canonical form of a memory (log 4): two canonical memories that read the same at every
address are the same list. -/
def Obligations.EqualReadsMakeEqualMemories : Prop :=
  ∀ m m' : Memory, Memory.wf m = true → Memory.wf m' = true →
    (∀ a, readByte m a = readByte m' a) → m = m'

/-! ## Runs sample by sample, and where the other commands stop -/

/-- 42_lookahead_code_selector.md R102, 43_stream_codec.md R111, R112, R117: a run is its samples, or its
codes, in order. Coding: there are states `st 0, st 1, ...`, from the run's start to its end, such that
sample `k` is searched from `st k` at depth `min(l, N - 1 - k)` over the rest of the run, its code moves
`st k` to `st (k + 1)`, and the run's error is the sum of the emitted codes' immediate errors. Decoding:
the same states, with each code's own sample. -/
def Obligations.RunsAreTheirStepsInOrder : Prop :=
  (∀ (m : Config.ErrMetric) (l : Nat) (s : Adaptive) (w : List Int),
    ∃ (st : Nat → Adaptive) (r : Nat → Choice),
      (∀ k, r k = search m (min l (w.length - 1 - k)) (st k) (w.drop k)) ∧
      st 0 = s ∧ st w.length = (encodeRun m l s w).state ∧
      (encodeRun m l s w).codes.length = w.length ∧
      (∀ k < w.length,
        st (k + 1) = (transition (st k) (r k).code).1 ∧
        encodeSample m l (st k) (w.drop k) = ⟨st (k + 1), (r k).code, (r k).imm⟩ ∧
        (encodeRun m l s w).codes[k]? = some (r k).code ∧
        (reconstruction m l s w)[k]? = some (transition (st k) (r k).code).2) ∧
      (encodeRun m l s w).err = ((List.range w.length).map fun k => (r k).imm).sum) ∧
  (∀ (s : Adaptive) (cs : List Code), ∃ st : Nat → Adaptive,
    st 0 = s ∧ st cs.length = (decodeRun s cs).2 ∧ (decodeRun s cs).1.length = cs.length ∧
    ∀ (k : Nat) (c : Code), cs[k]? = some c →
      st (k + 1) = (transition (st k) c).1 ∧
      (decodeRun s cs).1[k]? = some (transition (st k) c).2)

/-- 20_memory.md R43, R44, R48, R49, 93 U3, U4, U5: with their parameters valid, ENC_STREAM, CHOOSE and
CTX_CREATE stop off their buffers as `Claims.StopsOff` says. (Which name is given where two apply is
the model's choice, log 8.) -/
def Obligations.StreamCommandsStopOffTheirBuffers : Prop :=
  ∀ (s : State) (n : Nat), s.args.srcAddr ≠ 0 →
    (s.args.chsel.toNat < s.nchMax → s.args.dstAddr ≠ 0 → s.args.count.toInt = n → 0 < n →
      Claims.StopsOff .encStream s ⟨s.args.srcAddr.toNat, 2 * n⟩
        ⟨s.args.dstAddr.toNat, (n + 1) / 2⟩) ∧
    (s.args.chsel.toNat < s.nchMax → s.args.count.toInt = n → 0 < n →
      Claims.StopsOff .choose s
        ⟨s.args.srcAddr.toNat, 2 * (1 + min s.args.lookahead.toNat (n - 1))⟩ noBuffer) ∧
    (s.args.nch.toNat = n → 1 ≤ n → n ≤ s.nchMax →
      Claims.StopsOff .ctxCreate s ⟨s.args.srcAddr.toNat, n⟩ noBuffer)

/-- 20_memory.md R43, R44, R48, R49, 93 U3, U4, U5: with their parameters valid, ENC_BLOCK stops off its
buffers; and DEC_BLOCK off its headers first and then, when they are good, off its whole extents. That
the header extent is looked at first, the name given where two apply, and the fault on a context wider
than the instance, which no legal state holds, are the model's choices (log 8). -/
def Obligations.BlockCommandsStopOffTheirBuffers : Prop :=
  ∀ (s : State) (n k : Nat), s.args.srcAddr ≠ 0 → s.args.dstAddr ≠ 0 →
    (s.ctx.valid = true → s.ctx.nch.toNat = n → s.args.count.toInt = (1 + 8 * k : Nat) →
      (s.nchMax < n → exec .encBlock s = .fault .contextBeyondChannels) ∧
      (n ≤ s.nchMax →
        Claims.StopsOff .encBlock s ⟨s.args.srcAddr.toNat, 2 * (1 + 8 * k) * n⟩
          ⟨s.args.dstAddr.toNat, n * (4 + 4 * k)⟩)) ∧
    (s.args.nch.toNat = n → 1 ≤ n → n ≤ s.nchMax → 4 * n ≤ s.args.count.toInt →
      k = (s.args.count.toInt.toNat - 4 * n) / (4 * n) →
      Claims.StopsOff .decBlock s ⟨s.args.srcAddr.toNat, 4 * n⟩ noBuffer ∧
      (s.fits ⟨s.args.srcAddr.toNat, 4 * n⟩ noBuffer = true →
        (∀ c < n, (readByte s.mem (s.args.srcAddr.toNat + 4 * c + 2)).toNat ≤ 88 ∧
          readByte s.mem (s.args.srcAddr.toNat + 4 * c + 3) = 0x00) →
        Claims.StopsOff .decBlock s ⟨s.args.srcAddr.toNat, 4 * n * (1 + k)⟩
          ⟨s.args.dstAddr.toNat, 2 * (1 + 8 * k) * n⟩))
end

