-- ==== Sys2Proof/Laws/Dequantizer.lean ====
section
/-! SUPPORT. The transition: its clips, its domain, and the channel register that holds its result. -/

namespace Sys2Proof.Machine

/-- A clip into an interval lies in it. -/
theorem clip_mem (v lo hi : Int) (h : lo ≤ hi) : lo ≤ clip v lo hi ∧ clip v lo hi ≤ hi := by
  simp only [clip]
  split
  · omega
  · split <;> omega

/-- A value in the interval is kept. -/
theorem clip_of_mem (v lo hi : Int) (h1 : lo ≤ v) (h2 : v ≤ hi) : clip v lo hi = v := by
  simp only [clip]
  rw [if_neg (by omega), if_neg (by omega)]

theorem clipSample_isSample (v : Int) : IsSample (clipSample v) :=
  clip_mem v (-32768) 32767 (by decide)

theorem clipIndex_le (v : Int) : clipIndex v ≤ 88 := by
  have := clip_mem v 0 indexMax (by decide)
  simp only [clipIndex]
  simp only [indexMax] at *
  omega

/-- The reconstructed sample is the new predicted sample (41_dequantizer_predictor.md R79). -/
theorem transition_sample (s : Adaptive) (c : Code) : (transition s c).2 = (transition s c).1.p := rfl

/-- The reconstructed sample is a 16-bit sample, from any state. -/
theorem transition_isSample (s : Adaptive) (c : Code) : IsSample (transition s c).2 :=
  clipSample_isSample _

/-- The new index is at most 88, from any state. -/
theorem transition_index_le (s : Adaptive) (c : Code) : (transition s c).1.x ≤ 88 := clipIndex_le _

/-- A channel register read back as a state. -/
theorem chan_state_chan (c : Chan) : c.state.chan = c := by
  cases c with
  | mk p x => simp [Chan.state, Adaptive.chan, sext16, u16]

/-- A channel register holds any state of the domain exactly (10_state.md R15, R16). -/
theorem adaptive_chan_state (a : Adaptive) (h : a.InDomain) : a.chan.state = a := by
  obtain ⟨h1, h2, h3⟩ := h
  cases a with
  | mk p x =>
    simp only [Adaptive.chan, Chan.state, sext16, u16, Adaptive.mk.injEq] at *
    refine ⟨?_, ?_⟩
    · rw [BitVec.toInt_ofInt]
      simp only [Int.bmod]
      omega
    · rw [BitVec.toNat_ofNat]
      omega

/-- The index byte a state leaves in a channel register. -/
theorem adaptive_chan_index (a : Adaptive) (h : a.x ≤ 88) : a.chan.index.toNat = a.x := by
  simp only [Adaptive.chan, BitVec.toNat_ofNat]
  omega

/-- A channel register within 10_state.md R17 holds a state of the domain. -/
theorem chan_state_inDomain (c : Chan) (h : c.index.toNat ≤ 88) : c.state.InDomain := by
  have h1 := BitVec.toInt_lt (x := c.pred)
  have h2 := BitVec.le_toInt (x := c.pred)
  simp only [Chan.state, sext16, Adaptive.InDomain]
  refine ⟨?_, ?_, h⟩ <;> simp at h1 h2 <;> omega

/-- The pattern of a sample read back. -/
theorem sext16_u16 (r : Int) (h : IsSample r) : sext16 (u16 r) = r := by
  obtain ⟨h1, h2⟩ := h
  simp only [sext16, u16]
  rw [BitVec.toInt_ofInt]
  simp only [Int.bmod]
  omega

/-- The pattern of a pattern's signed value. -/
theorem u16_sext16 (v : Pattern) : u16 (sext16 v) = v := by simp [u16, sext16]

/-- A sample read from a pattern is a 16-bit sample. -/
theorem sext16_isSample (v : Pattern) : IsSample (sext16 v) := by
  have h1 := BitVec.toInt_lt (x := v)
  have h2 := BitVec.le_toInt (x := v)
  simp only [sext16, IsSample]
  simp at h1 h2
  omega

end Sys2Proof.Machine
end

