-- ==== Sys2Proof/Laws/Codec.lean ====
section
/-! SUPPORT. Runs of samples and codes: their lengths, the states they leave, packing, and that the
decoder's run over the encoder's codes gives the encoder's states and samples. -/

namespace Sys2Proof.Machine

variable (m : Config.ErrMetric) (l : Nat)

/-- One code for each sample. -/
@[simp] theorem encodeRun_length (s : Adaptive) (w : List Int) :
    (encodeRun m l s w).codes.length = w.length := by
  induction w generalizing s with
  | nil => rfl
  | cons t w ih => simp [encodeRun, ih]

/-- A run leaves its start state (when empty) or a state of the domain. -/
theorem encodeRun_state (s : Adaptive) (w : List Int) :
    (w = [] ∧ (encodeRun m l s w).state = s) ∨ (encodeRun m l s w).state.InDomain := by
  induction w generalizing s with
  | nil => exact .inl ⟨rfl, rfl⟩
  | cons t w ih =>
    right
    simp only [encodeRun]
    rcases ih (encodeSample m l s (t :: w)).state with ⟨rfl, h⟩ | h
    · rw [h]
      exact ⟨(transition_isSample _ _).1, (transition_isSample _ _).2, transition_index_le _ _⟩
    · exact h

/-- A run from a legal index leaves a legal index. -/
theorem encodeRun_index_le (s : Adaptive) (w : List Int) (h : s.x ≤ 88) :
    (encodeRun m l s w).state.x ≤ 88 := by
  rcases encodeRun_state m l s w with ⟨-, e⟩ | e
  · rw [e]; exact h
  · exact e.2.2

/-- One sample for each code. -/
@[simp] theorem decodeRun_length (s : Adaptive) (cs : List Code) :
    (decodeRun s cs).1.length = cs.length := by
  induction cs generalizing s with
  | nil => rfl
  | cons c cs ih => simp [decodeRun, ih]

/-- A decoded run leaves its start state (when empty) or a state of the domain. -/
theorem decodeRun_state (s : Adaptive) (cs : List Code) :
    (cs = [] ∧ (decodeRun s cs).2 = s) ∨ (decodeRun s cs).2.InDomain := by
  induction cs generalizing s with
  | nil => exact .inl ⟨rfl, rfl⟩
  | cons c cs ih =>
    right
    simp only [decodeRun]
    rcases ih (transition s c).1 with ⟨rfl, h⟩ | h
    · rw [h]
      exact ⟨(transition_isSample _ _).1, (transition_isSample _ _).2, transition_index_le _ _⟩
    · exact h

/-- Two runs of codes end to end are one run, the second from the state the first left
(43_stream_codec.md R120). -/
theorem decodeRun_append (s : Adaptive) (cs ds : List Code) : decodeRun s (cs ++ ds) =
    ((decodeRun s cs).1 ++ (decodeRun (decodeRun s cs).2 ds).1, (decodeRun (decodeRun s cs).2 ds).2) := by
  induction cs generalizing s with
  | nil => rfl
  | cons c cs ih => simp [decodeRun, ih]

/-- A decoded run from a legal index leaves a legal index. -/
theorem decodeRun_index_le (s : Adaptive) (cs : List Code) (h : s.x ≤ 88) :
    (decodeRun s cs).2.x ≤ 88 := by
  rcases decodeRun_state s cs with ⟨-, e⟩ | e
  · rw [e]; exact h
  · exact e.2.2

/-- Every decoded sample is a 16-bit sample. -/
theorem decodeRun_isSample (s : Adaptive) (cs : List Code) : ∀ r ∈ (decodeRun s cs).1, IsSample r := by
  induction cs generalizing s with
  | nil => intro r hr; cases hr
  | cons c cs ih =>
    intro r hr
    rcases List.mem_cons.1 hr with rfl | hr
    · exact transition_isSample s c
    · exact ih _ r hr

/-- One reconstructed sample for each sample coded. -/
@[simp] theorem reconstruction_length (s : Adaptive) (w : List Int) :
    (reconstruction m l s w).length = w.length := by
  induction w generalizing s with
  | nil => rfl
  | cons t w ih => simp [reconstruction, ih]

/-- The decoder over the encoder's codes: the encoder's reconstruction and the encoder's final state
(41_dequantizer_predictor.md R97). -/
theorem decodeRun_encodeRun (s : Adaptive) (w : List Int) :
    decodeRun s (encodeRun m l s w).codes = (reconstruction m l s w, (encodeRun m l s w).state) := by
  induction w generalizing s with
  | nil => rfl
  | cons t w ih =>
    simp only [encodeRun, decodeRun, reconstruction]
    rw [show (transition s (encodeSample m l s (t :: w)).code).1 =
      (encodeSample m l s (t :: w)).state from rfl, ih]

/-- The low half of a packed byte. -/
@[simp] theorem earlierCode_packByte (a b : Code) : earlierCode (packByte a b) = a := by
  apply BitVec.eq_of_getLsbD_eq
  intro i hi
  simp only [earlierCode, packByte, BitVec.getLsbD_extractLsb', BitVec.getLsbD_append]
  simp [hi]

/-- The high half of a packed byte. -/
@[simp] theorem laterCode_packByte (a b : Code) : laterCode (packByte a b) = b := by
  apply BitVec.eq_of_getLsbD_eq
  intro i hi
  simp only [laterCode, packByte, BitVec.getLsbD_extractLsb', BitVec.getLsbD_append]
  simp [hi]

/-- `N` codes take `ceil(N/2)` bytes. -/
@[simp] theorem packCodes_length : ∀ cs : List Code, (packCodes cs).length = packedLength cs.length
  | [] => by simp [packCodes, packedLength]
  | [_] => by simp [packCodes, packedLength]
  | c :: d :: cs => by
    simp only [packCodes, List.length_cons, packCodes_length cs, packedLength]
    omega

/-- Byte `j` of a packed run holds codes `2j` and `2j + 1`, the second 0 past an odd end
(30_encoding.md R57). -/
theorem packCodes_getD : ∀ (cs : List Code) (j : Nat), j < packedLength cs.length →
    (packCodes cs).getD j 0 = packByte (cs.getD (2 * j) 0) (cs.getD (2 * j + 1) 0)
  | [], j, h => by simp [packedLength] at h
  | [c], j, h => by
    have : j = 0 := by simp [packedLength] at h; omega
    subst this
    simp [packCodes]
  | c :: d :: cs, 0, _ => by simp [packCodes]
  | c :: d :: cs, j + 1, h => by
    have h' : j < packedLength cs.length := by
      simp only [packedLength, List.length_cons] at *
      omega
    have e : 2 * (j + 1) = 2 * j + 1 + 1 := by omega
    rw [packCodes, e, List.getD_cons_succ, packCodes_getD cs j h']
    simp

/-- Unpacking a packed run gives the codes, and one 0 more when their number is odd. -/
theorem take_unpackCodes_packCodes : ∀ cs : List Code, (unpackCodes (packCodes cs)).take cs.length = cs
  | [] => rfl
  | [c] => by simp [packCodes, unpackCodes]
  | c :: d :: cs => by
    have h := take_unpackCodes_packCodes cs
    simp only [unpackCodes] at h
    simp only [packCodes, unpackCodes, List.flatMap_cons, List.length_cons]
    simpa using h

/-- Two codes a byte. -/
@[simp] theorem unpackCodes_length (bs : List Byte) : (unpackCodes bs).length = 2 * bs.length := by
  induction bs with
  | nil => rfl
  | cons b bs ih =>
    simp only [unpackCodes, List.flatMap_cons, List.length_append, List.length_cons] at *
    simp only [List.length_nil]
    omega

end Sys2Proof.Machine
end

