-- ==== Sys2Proof/Laws/Lists.lean ====
section
/-! SUPPORT. Lists of equal-length pieces joined end to end: the layout of a block (30_encoding.md R59)
and of a PCM buffer (20_memory.md R47). -/

namespace Sys2Proof.Laws

variable {α β : Type}

/-- The length of pieces of length `n`. -/
theorem length_flatMap_const (f : α → List β) (n : Nat) (l : List α) (h : ∀ a ∈ l, (f a).length = n) :
    (l.flatMap f).length = l.length * n := by
  induction l with
  | nil => simp
  | cons a l ih =>
    have h1 := h a (by simp)
    have h2 := ih fun b hb => h b (by simp [hb])
    simp [h1, h2, Nat.succ_mul, Nat.add_comm]

/-- Element `j` of piece `i` stands at `i * n + j`. -/
theorem getElem?_flatMap_const (f : α → List β) (n : Nat) (l : List α)
    (h : ∀ a ∈ l, (f a).length = n) (i j : Nat) (hj : j < n) :
    (l.flatMap f)[i * n + j]? = (l[i]?).bind fun a => (f a)[j]? := by
  induction l generalizing i with
  | nil => simp
  | cons a l ih =>
    have h1 := h a (by simp)
    have h2 := ih fun b hb => h b (by simp [hb])
    cases i with
    | zero => simp [List.flatMap_cons, List.getElem?_append_left, h1, hj]
    | succ i =>
      have e : (i + 1) * n + j = (f a).length + (i * n + j) := by rw [h1, Nat.succ_mul]; omega
      rw [List.flatMap_cons, e, List.getElem?_append_right (Nat.le_add_right ..)]
      simpa using h2 i

/-- The same over the numbers `0 .. k-1`. -/
theorem getElem?_flatMap_range (f : Nat → List β) (n k : Nat) (h : ∀ i < k, (f i).length = n)
    (i j : Nat) (hi : i < k) (hj : j < n) : ((List.range k).flatMap f)[i * n + j]? = (f i)[j]? := by
  rw [getElem?_flatMap_const f n _ (fun a ha => h a (by simpa using ha)) i j hj]
  simp [hi]

/-- The length of `k` pieces of length `n`. -/
theorem length_flatMap_range (f : Nat → List β) (n k : Nat) (h : ∀ i < k, (f i).length = n) :
    ((List.range k).flatMap f).length = k * n := by
  rw [length_flatMap_const f n _ (fun a ha => h a (by simpa using ha))]
  simp

end Sys2Proof.Laws
end

