-- ==== Sys2Proof/Laws/Memory.lean ====
section
/-! SUPPORT. The memory: a read after a write, the canonical form is kept, and equal reads mean equal
memories. -/

namespace Sys2Proof.Machine

/-- What the canonical form says of the first entry. -/
theorem Memory.wf_cons (a : Nat) (b : Byte) (rest : Memory) :
    Memory.wf ((a, b) :: rest) = true ↔
      a < 2 ^ 32 ∧ b ≠ Config.unlistedByte ∧ (∀ e ∈ rest, a < e.1) ∧ Memory.wf rest = true := by
  simp [Memory.wf, and_assoc]

/-- An address below every listed one reads as an unlisted byte. -/
theorem readByte_of_lt (m : Memory) (a : Nat) (h : ∀ e ∈ m, a < e.1) :
    readByte m a = Config.unlistedByte := by
  induction m with
  | nil => rfl
  | cons e rest ih =>
    obtain ⟨k, b⟩ := e
    have hk : a < k := h (k, b) (by simp)
    rw [readByte, if_neg (by omega)]
    exact ih fun e he => h e (by simp [he])

/-- An address a write leaves listed is the written one or was listed. -/
theorem mem_writeByte (m : Memory) (a : Nat) (v : Byte) (e : Host.Cell) (h : e ∈ writeByte m a v) :
    e.1 = a ∨ e ∈ m := by
  induction m with
  | nil =>
    rw [writeByte] at h
    split at h
    · cases h
    · left; simp at h; rw [h]
  | cons d rest ih =>
    obtain ⟨k, b⟩ := d
    rw [writeByte] at h
    split at h
    · split at h
      · exact .inr h
      · rcases List.mem_cons.1 h with h | h
        · left; rw [h]
        · exact .inr h
    · split at h
      · split at h
        · exact .inr (by simp [h])
        · rcases List.mem_cons.1 h with h | h
          · left; rw [h]
          · exact .inr (by simp [h])
      · rcases List.mem_cons.1 h with h | h
        · exact .inr (by simp [h])
        · rcases ih h with h | h
          · exact .inl h
          · exact .inr (by simp [h])

/-- A write below 2^32 keeps the canonical form. -/
theorem wf_writeByte (m : Memory) (a : Nat) (v : Byte) (ha : a < 2 ^ 32) (h : Memory.wf m = true) :
    Memory.wf (writeByte m a v) = true := by
  induction m with
  | nil =>
    rw [writeByte]
    split
    · rfl
    · simp_all [Memory.wf]
  | cons d rest ih =>
    obtain ⟨k, b⟩ := d
    obtain ⟨h1, h2, h3, h4⟩ := (Memory.wf_cons k b rest).1 h
    rw [writeByte]
    split
    · next hak =>
      split
      · exact h
      · next hv =>
        refine (Memory.wf_cons ..).2 ⟨ha, hv, fun e he => ?_, h⟩
        rcases List.mem_cons.1 he with rfl | he
        · exact hak
        · exact Nat.lt_trans hak (h3 e he)
    · split
      · next hak =>
        subst hak
        split
        · exact h4
        · next hv => exact (Memory.wf_cons ..).2 ⟨ha, hv, h3, h4⟩
      · refine (Memory.wf_cons ..).2 ⟨h1, h2, fun e he => ?_, ih h4⟩
        rcases mem_writeByte rest a v e he with he | he
        · omega
        · exact h3 e he

/-- A read after a write: the written byte at its address, the old byte everywhere else. -/
theorem readByte_writeByte (m : Memory) (a : Nat) (v : Byte) (k : Nat) (h : Memory.wf m = true) :
    readByte (writeByte m a v) k = if k = a then v else readByte m k := by
  induction m with
  | nil =>
    rw [writeByte]
    split
    · next hv => split <;> simp_all [readByte]
    · simp only [readByte]; split <;> split <;> simp_all
  | cons d rest ih =>
    obtain ⟨j, b⟩ := d
    obtain ⟨-, -, h3, h4⟩ := (Memory.wf_cons j b rest).1 h
    rw [writeByte]
    split
    · next hak =>
      have hlow : readByte ((j, b) :: rest) a = Config.unlistedByte := by
        apply readByte_of_lt
        intro e he
        rcases List.mem_cons.1 he with rfl | he
        · exact hak
        · exact Nat.lt_trans hak (h3 e he)
      split
      · next hv => split <;> simp_all
      · rw [readByte]
        by_cases hk : k = a
        · simp [hk]
        · rw [if_neg (Ne.symm hk), if_neg hk]
    · split
      · next hak =>
        subst hak
        have hlow : readByte rest a = Config.unlistedByte := readByte_of_lt rest a h3
        split
        · next hv =>
          by_cases hk : k = a
          · subst hk; simp [hlow, hv]
          · rw [if_neg hk, readByte, if_neg (Ne.symm hk)]
        · simp only [readByte]
          by_cases hk : k = a
          · simp [hk]
          · rw [if_neg (Ne.symm hk), if_neg hk, if_neg (Ne.symm hk)]
      · next h5 h6 =>
        simp only [readByte]
        split
        · next hjk => subst hjk; rw [if_neg (by omega)]
        · exact ih h4

/-- A run of writes below 2^32 keeps the canonical form. -/
theorem wf_writeBytes (m : Memory) (a : Nat) (bs : List Byte) (ha : a + bs.length ≤ 2 ^ 32)
    (h : Memory.wf m = true) : Memory.wf (writeBytes m a bs) = true := by
  induction bs generalizing m a with
  | nil => exact h
  | cons b bs ih =>
    rw [List.length_cons] at ha
    exact ih _ _ (by omega) (wf_writeByte m a b (by omega) h)

/-- A read after a run of writes: byte `k - a` of the run inside it, the old byte outside. The run may
go anywhere; what keeps the memory readable is its canonical form below 2^32. -/
theorem readByte_writeBytes (m : Memory) (a : Nat) (bs : List Byte) (k : Nat)
    (ha : a + bs.length ≤ 2 ^ 32) (h : Memory.wf m = true) :
    readByte (writeBytes m a bs) k =
      if a ≤ k ∧ k < a + bs.length then bs.getD (k - a) 0 else readByte m k := by
  induction bs generalizing m a with
  | nil => simp [writeBytes]
  | cons b bs ih =>
    rw [List.length_cons] at ha
    rw [writeBytes, ih _ _ (by omega) (wf_writeByte m a b (by omega) h), readByte_writeByte m a b k h,
      List.length_cons]
    by_cases h1 : k = a
    · subst h1
      rw [if_neg (by omega), if_pos rfl, if_pos (by omega)]
      simp
    · by_cases h2 : a + 1 ≤ k ∧ k < a + 1 + bs.length
      · rw [if_pos h2, if_pos (by omega)]
        obtain ⟨d, rfl⟩ : ∃ d, k = a + 1 + d := ⟨k - (a + 1), by omega⟩
        have e1 : a + 1 + d - (a + 1) = d := by omega
        have e2 : a + 1 + d - a = d + 1 := by omega
        rw [e1, e2, List.getD_cons_succ]
      · rw [if_neg h2, if_neg h1, if_neg (by omega)]

/-- Bytes outside a run of writes are kept. -/
theorem readByte_writeBytes_outside (m : Memory) (a : Nat) (bs : List Byte) (k : Nat)
    (ha : a + bs.length ≤ 2 ^ 32) (h : Memory.wf m = true) (hk : k < a ∨ a + bs.length ≤ k) :
    readByte (writeBytes m a bs) k = readByte m k := by
  rw [readByte_writeBytes m a bs k ha h, if_neg (by omega)]

/-- Byte `i` of a run of writes. -/
theorem readByte_writeBytes_inside (m : Memory) (a : Nat) (bs : List Byte) (i : Nat)
    (ha : a + bs.length ≤ 2 ^ 32) (h : Memory.wf m = true) (hi : i < bs.length) :
    readByte (writeBytes m a bs) (a + i) = bs.getD i 0 := by
  rw [readByte_writeBytes m a bs _ ha h, if_pos (by omega)]
  congr 1
  omega

/-- Two runs of writes end to end are one run. -/
theorem writeBytes_append (m : Memory) (a : Nat) (bs cs : List Byte) :
    writeBytes m a (bs ++ cs) = writeBytes (writeBytes m a bs) (a + bs.length) cs := by
  induction bs generalizing m a with
  | nil => rfl
  | cons b bs ih =>
    rw [List.cons_append, writeBytes, writeBytes, ih, List.length_cons, Nat.add_assoc, Nat.add_comm 1]

/-- The two bytes of a halfword give it back. -/
theorem halfBytes_append (v : Pattern) : v.extractLsb' 8 8 ++ v.extractLsb' 0 8 = v := by
  apply BitVec.eq_of_getLsbD_eq
  intro i hi
  simp only [BitVec.getLsbD_append, BitVec.getLsbD_extractLsb']
  by_cases h : i < 8
  · simp [h]
  · have e : 8 + (i - 8) = i := by omega
    have : i - 8 < 8 := by omega
    simp [h, e, this]

@[simp] theorem halfBytes_length (v : Pattern) : (halfBytes v).length = 2 := rfl

@[simp] theorem sampleBytes_length (r : Int) : (sampleBytes r).length = 2 := rfl

@[simp] theorem headerBytes_length (v : Pattern) (x : Byte) : (headerBytes v x).length = 4 := rfl

/-- Reset memory is in canonical form. -/
theorem reset_mem_wf : Memory.wf State.reset.mem = true := rfl

end Sys2Proof.Machine
end

