-- ==== Sys2Proof/Laws/Buffers.lean ====
section
/-! SUPPORT. The buffers of the commands: how many samples and codes are read, and how a run of sample
bytes reads back. -/

namespace Sys2Proof.Machine

variable (m : Memory) (a : Nat)

@[simp] theorem readBytes_length (n : Nat) : (readBytes m a n).length = n := by simp [readBytes]

@[simp] theorem readSamples_length (n c len : Nat) : (readSamples m a n c len).length = len := by
  simp [readSamples]

@[simp] theorem readCodes_length (n : Nat) : (readCodes m a n).length = n := by
  simp [readCodes, packedLength]
  omega

/-- A byte of a run of writes, named by the list. -/
theorem readByte_writeBytes_of_getElem? (bs : List Byte) (i : Nat) (v : Byte)
    (ha : a + bs.length ≤ 2 ^ 32) (h : Memory.wf m = true) (hv : bs[i]? = some v) :
    readByte (writeBytes m a bs) (a + i) = v := by
  obtain ⟨h1, h2⟩ := List.getElem?_eq_some_iff.1 hv
  rw [readByte_writeBytes_inside m a bs i ha h h1, List.getD_eq_getElem _ _ h1, h2]

/-- A halfword of a run of writes, when the run holds a sample's two bytes there. -/
theorem readHalf_writeBytes_of_sample (bs : List Byte) (i : Nat) (r : Int)
    (ha : a + bs.length ≤ 2 ^ 32) (h : Memory.wf m = true)
    (hv : ∀ j < 2, bs[i + j]? = (sampleBytes r)[j]?) : readHalf (writeBytes m a bs) (a + i) = u16 r := by
  have h0 := hv 0 (by decide)
  rw [Nat.add_zero] at h0
  rw [readHalf, readByte_writeBytes_of_getElem? m a bs i _ ha h h0, Nat.add_assoc,
    readByte_writeBytes_of_getElem? m a bs (i + 1) _ ha h (hv 1 (by decide))]
  exact halfBytes_append _

/-- The bytes of `n` samples. -/
theorem sampleBytes_flatMap_length (rs : List Int) : (rs.flatMap sampleBytes).length = 2 * rs.length := by
  rw [Laws.length_flatMap_const _ 2 _ (by simp)]
  omega

/-- Sample `k` of a run of samples written from `a` up. -/
theorem readHalf_writeBytes_samples (rs : List Int) (k : Nat) (hk : k < rs.length)
    (ha : a + 2 * rs.length ≤ 2 ^ 32) (h : Memory.wf m = true) :
    readHalf (writeBytes m a (rs.flatMap sampleBytes)) (a + 2 * k) = u16 (rs.getD k 0) := by
  refine readHalf_writeBytes_of_sample m a _ _ _ (by rw [sampleBytes_flatMap_length]; exact ha) h
    fun j hj => ?_
  rw [Nat.mul_comm 2 k, Laws.getElem?_flatMap_const _ 2 _ (by simp) k j hj]
  simp [List.getElem?_eq_getElem hk]

end Sys2Proof.Machine
end

