-- ==== Sys2Proof/Laws/Block.lean ====
section
/-! SUPPORT. The layout of a block and of a multi-channel PCM buffer: where each header, chunk byte, code
and sample stands (30_encoding.md R59, 20_memory.md R47). -/

namespace Sys2Proof.Machine

/-- One coded channel for each channel of the context. -/
theorem encodeChannels_length (s : State) (n len : Nat) (h : n ≤ s.nchMax) :
    (encodeChannels s n len).length = n := by
  simp only [encodeChannels, State.nchMax, List.length_map, List.length_zipIdx, List.length_take] at *
  omega

/-- Coded channel `c`. -/
theorem encodeChannels_getElem? (s : State) (n len c : Nat) (ch : Chan) (h : s.ch[c]? = some ch)
    (hc : c < n) : (encodeChannels s n len)[c]? =
      some (encodeChannel errMetric s.ctx.la.toNat ch.index (readSamples s.mem s.src n c len)) := by
  simp [encodeChannels, List.getElem?_zipIdx, h, hc]

/-- Every coded channel comes from a channel register. -/
theorem mem_encodeChannels (s : State) (n len : Nat) (b : ChannelBlock)
    (h : b ∈ encodeChannels s n len) : ∃ ch ∈ s.ch, ∃ c,
      b = encodeChannel errMetric s.ctx.la.toNat ch.index (readSamples s.mem s.src n c len) := by
  obtain ⟨⟨ch, c⟩, hz, rfl⟩ := List.mem_map.1 h
  exact ⟨ch, List.mem_of_mem_take (List.fst_mem_of_mem_zipIdx hz), c, rfl⟩

/-- A chunk is four bytes. -/
theorem encodeChannel_chunk_length (m : Config.ErrMetric) (l : Nat) (x : Byte) (w : List Int)
    (k j : Nat) (hw : w.length = 1 + 8 * k) (hj : j < k) :
    ((encodeChannel m l x w).chunk j).length = 4 := by
  simp [ChannelBlock.chunk, encodeChannel, packedLength, hw]
  omega

/-- Byte `j` of chunk `i`: codes `8i + 2j` and `8i + 2j + 1`. -/
theorem chunk_getElem? (b : ChannelBlock) (k i j : Nat) (hl : b.run.codes.length = 8 * k) (hi : i < k)
    (hj : j < 4) : (b.chunk i)[j]? = some
      (packByte (b.run.codes.getD (8 * i + 2 * j) 0) (b.run.codes.getD (8 * i + 2 * j + 1) 0)) := by
  have hlen : ((b.run.codes.drop (8 * i)).take 8).length = 8 := by simp [hl]; omega
  have hj' : j < (b.chunk i).length := by simp [ChannelBlock.chunk, packedLength, hl]; omega
  have key := packCodes_getD ((b.run.codes.drop (8 * i)).take 8) j
    (by rw [hlen]; simp [packedLength]; omega)
  rw [show packCodes ((b.run.codes.drop (8 * i)).take 8) = b.chunk i from rfl,
    List.getD_eq_getElem _ _ hj'] at key
  rw [List.getElem?_eq_getElem hj', key]
  congr 2 <;> simp [List.getD_eq_getElem?_getD, List.getElem?_take, List.getElem?_drop, Nat.add_assoc]
  · rw [if_pos (by omega)]
  · rw [if_pos (by omega)]

section
variable (bs : List ChannelBlock) (k : Nat) (h : ∀ b ∈ bs, ∀ j < k, (b.chunk j).length = 4)

/-- The headers are four bytes a channel. -/
theorem headers_length : (bs.flatMap ChannelBlock.header).length = bs.length * 4 :=
  Laws.length_flatMap_const _ 4 _ (by simp [ChannelBlock.header])

/-- Byte `j` of header `c`. -/
theorem blockBytes_header (c j : Nat) (hc : c < bs.length) (hj : j < 4) :
    (blockBytes bs k)[4 * c + j]? = (bs[c]?).bind fun b => b.header[j]? := by
  rw [blockBytes, List.getElem?_append_left (by rw [headers_length]; omega), Nat.mul_comm 4 c]
  exact Laws.getElem?_flatMap_const _ 4 _ (by simp [ChannelBlock.header]) c j hj

include h

/-- A chunk group is four bytes a channel. -/
theorem chunkGroup_length : ∀ j < k, (bs.flatMap fun b => b.chunk j).length = bs.length * 4 :=
  fun j hj => Laws.length_flatMap_const _ 4 _ fun b hb => h b hb j hj

/-- The size of a block (30_encoding.md R60). -/
theorem blockBytes_length : (blockBytes bs k).length = blockLength bs.length k := by
  have h2 := Laws.length_flatMap_range (fun j => bs.flatMap fun b => b.chunk j) (bs.length * 4) k
    (chunkGroup_length bs k h)
  simp only [blockBytes, List.length_append, headers_length, h2, blockLength]
  ring

/-- Byte `b` of chunk `i` of channel `c`. -/
theorem blockBytes_chunk (i c b : Nat) (hi : i < k) (hc : c < bs.length) (hb : b < 4) :
    (blockBytes bs k)[4 * bs.length + 4 * bs.length * i + 4 * c + b]? =
      (bs[c]?).bind fun x => (x.chunk i)[b]? := by
  rw [blockBytes, List.getElem?_append_right (by rw [headers_length]; omega), headers_length]
  have e : 4 * bs.length + 4 * bs.length * i + 4 * c + b - bs.length * 4 =
      i * (bs.length * 4) + (4 * c + b) := by
    rw [show i * (bs.length * 4) = 4 * bs.length * i by ring]
    omega
  rw [e, Laws.getElem?_flatMap_range _ _ k (chunkGroup_length bs k h) i _ hi (by omega),
    Nat.mul_comm 4 c]
  exact Laws.getElem?_flatMap_const (fun x => ChannelBlock.chunk x i) 4 _ (fun x hx => h x hx i hi) c b hb

end

/-- The bytes ENC_BLOCK writes, as many as the block is long. -/
theorem encodeChannels_blockBytes_length (s : State) (n k : Nat) (h : n ≤ s.nchMax) :
    (blockBytes (encodeChannels s n (1 + 8 * k)) k).length = blockLength n k := by
  rw [blockBytes_length, encodeChannels_length s n _ h]
  intro b hb j hj
  obtain ⟨ch, -, c, rfl⟩ := mem_encodeChannels _ _ _ b hb
  exact encodeChannel_chunk_length _ _ _ _ k j (by simp) hj

/-- Eight codes a chunk. -/
@[simp] theorem blockCodes_length (m : Memory) (a n k c : Nat) :
    (blockCodes m a n k c).length = k * 8 :=
  Laws.length_flatMap_range _ 8 _ (by simp)

/-- The two codes of byte `b` of chunk `j` of channel `c`. -/
theorem blockCodes_getElem? (m : Memory) (a n k c j b : Nat) (hj : j < k) (hb : b < 4) :
    (blockCodes m a n k c)[8 * j + 2 * b]? =
      some (earlierCode (readByte m (a + 4 * n + 4 * n * j + 4 * c + b))) ∧
    (blockCodes m a n k c)[8 * j + 2 * b + 1]? =
      some (laterCode (readByte m (a + 4 * n + 4 * n * j + 4 * c + b))) := by
  have key : ∀ q < 2, (blockCodes m a n k c)[8 * j + 2 * b + q]? =
      [earlierCode (readByte m (a + 4 * n + 4 * n * j + 4 * c + b)),
        laterCode (readByte m (a + 4 * n + 4 * n * j + 4 * c + b))][q]? := by
    intro q hq
    rw [blockCodes, show 8 * j + 2 * b + q = j * 8 + (2 * b + q) by omega,
      Laws.getElem?_flatMap_range _ 8 _ (by simp) j _ hj (by omega), unpackCodes, Nat.mul_comm 2 b,
      Laws.getElem?_flatMap_const _ 2 _ (by simp) b q hq]
    simp [readBytes, hb]
  exact ⟨key 0 (by omega), key 1 (by omega)⟩

/-- The bytes of `len` frames. -/
theorem frameBytes_length (chans : List (List Int)) (len : Nat) :
    (frameBytes chans len).length = len * (chans.length * 2) :=
  Laws.length_flatMap_range _ _ _ fun _ _ => Laws.length_flatMap_const _ 2 _ (by simp)

/-- Sample `i` of channel `c` of a multi-channel PCM buffer written from `a` up. -/
theorem readHalf_writeBytes_frames (m : Memory) (a : Nat) (chans : List (List Int)) (len i c : Nat)
    (hi : i < len) (hc : c < chans.length) (ha : a + len * (chans.length * 2) ≤ 2 ^ 32)
    (h : Memory.wf m = true) :
    readHalf (writeBytes m a (frameBytes chans len)) (a + 2 * (i * chans.length + c)) =
      u16 (chans[c].getD i 0) := by
  refine readHalf_writeBytes_of_sample m a _ _ _ (by rw [frameBytes_length]; exact ha) h fun j hj => ?_
  have e : 2 * (i * chans.length + c) + j = i * (chans.length * 2) + (c * 2 + j) := by ring
  rw [e, frameBytes, Laws.getElem?_flatMap_range _ (chans.length * 2) len
    (fun _ _ => Laws.length_flatMap_const _ 2 _ (by simp)) i _ hi (by omega),
    Laws.getElem?_flatMap_const _ 2 _ (by simp) c j hj, List.getElem?_eq_getElem hc]
  rfl

end Sys2Proof.Machine
end

