-- ==== Sys2Proof/Laws/State.lean ====
section
/-! SUPPORT. One lemma for each field of the state and each named update: what the field holds after. -/

namespace Sys2Proof.Machine

variable (s : State)

/-! `State.setSelected` -/

@[simp] theorem State.setSelected_platform (c : Chan) : (s.setSelected c).platform = s.platform := rfl
@[simp] theorem State.setSelected_ch (c : Chan) : (s.setSelected c).ch = s.ch.set s.args.chsel.toNat c := rfl
@[simp] theorem State.setSelected_ctx (c : Chan) : (s.setSelected c).ctx = s.ctx := rfl
@[simp] theorem State.setSelected_result (c : Chan) : (s.setSelected c).result = s.result := rfl
@[simp] theorem State.setSelected_args (c : Chan) : (s.setSelected c).args = s.args := rfl
@[simp] theorem State.setSelected_outCount (c : Chan) : (s.setSelected c).outCount = s.outCount := rfl
@[simp] theorem State.setSelected_res (c : Chan) : (s.setSelected c).res = s.res := rfl
@[simp] theorem State.setSelected_errAcc (c : Chan) : (s.setSelected c).errAcc = s.errAcc := rfl
@[simp] theorem State.setSelected_mem (c : Chan) : (s.setSelected c).mem = s.mem := rfl
@[simp] theorem State.setSelected_pending (c : Chan) : (s.setSelected c).pending = s.pending := rfl
@[simp] theorem State.setSelected_busRead (c : Chan) : (s.setSelected c).busRead = s.busRead := rfl

/-! `State.setFirst` -/

@[simp] theorem State.setFirst_platform (cs : List Chan) : (s.setFirst cs).platform = s.platform := rfl
@[simp] theorem State.setFirst_ch (cs : List Chan) : (s.setFirst cs).ch = cs ++ s.ch.drop cs.length := rfl
@[simp] theorem State.setFirst_ctx (cs : List Chan) : (s.setFirst cs).ctx = s.ctx := rfl
@[simp] theorem State.setFirst_result (cs : List Chan) : (s.setFirst cs).result = s.result := rfl
@[simp] theorem State.setFirst_args (cs : List Chan) : (s.setFirst cs).args = s.args := rfl
@[simp] theorem State.setFirst_outCount (cs : List Chan) : (s.setFirst cs).outCount = s.outCount := rfl
@[simp] theorem State.setFirst_res (cs : List Chan) : (s.setFirst cs).res = s.res := rfl
@[simp] theorem State.setFirst_errAcc (cs : List Chan) : (s.setFirst cs).errAcc = s.errAcc := rfl
@[simp] theorem State.setFirst_mem (cs : List Chan) : (s.setFirst cs).mem = s.mem := rfl
@[simp] theorem State.setFirst_pending (cs : List Chan) : (s.setFirst cs).pending = s.pending := rfl
@[simp] theorem State.setFirst_busRead (cs : List Chan) : (s.setFirst cs).busRead = s.busRead := rfl

/-! `State.addError` -/

@[simp] theorem State.addError_platform (e : Nat) : (s.addError e).platform = s.platform := rfl
@[simp] theorem State.addError_ch (e : Nat) : (s.addError e).ch = s.ch := rfl
@[simp] theorem State.addError_ctx (e : Nat) : (s.addError e).ctx = s.ctx := rfl
@[simp] theorem State.addError_result (e : Nat) : (s.addError e).result = s.result := rfl
@[simp] theorem State.addError_args (e : Nat) : (s.addError e).args = s.args := rfl
@[simp] theorem State.addError_outCount (e : Nat) : (s.addError e).outCount = s.outCount := rfl
@[simp] theorem State.addError_res (e : Nat) : (s.addError e).res = s.res := rfl
@[simp] theorem State.addError_errAcc (e : Nat) : (s.addError e).errAcc = s.errAcc + BitVec.ofNat 64 e := rfl
@[simp] theorem State.addError_mem (e : Nat) : (s.addError e).mem = s.mem := rfl
@[simp] theorem State.addError_pending (e : Nat) : (s.addError e).pending = s.pending := rfl
@[simp] theorem State.addError_busRead (e : Nat) : (s.addError e).busRead = s.busRead := rfl

/-! `State.clearError` -/

@[simp] theorem State.clearError_platform : (s.clearError).platform = s.platform := rfl
@[simp] theorem State.clearError_ch : (s.clearError).ch = s.ch := rfl
@[simp] theorem State.clearError_ctx : (s.clearError).ctx = s.ctx := rfl
@[simp] theorem State.clearError_result : (s.clearError).result = s.result := rfl
@[simp] theorem State.clearError_args : (s.clearError).args = s.args := rfl
@[simp] theorem State.clearError_outCount : (s.clearError).outCount = s.outCount := rfl
@[simp] theorem State.clearError_res : (s.clearError).res = s.res := rfl
@[simp] theorem State.clearError_errAcc : (s.clearError).errAcc = 0 := rfl
@[simp] theorem State.clearError_mem : (s.clearError).mem = s.mem := rfl
@[simp] theorem State.clearError_pending : (s.clearError).pending = s.pending := rfl
@[simp] theorem State.clearError_busRead : (s.clearError).busRead = s.busRead := rfl

/-! `State.store` -/

@[simp] theorem State.store_platform (a : Nat) (bs : List Byte) : (s.store a bs).platform = s.platform := rfl
@[simp] theorem State.store_ch (a : Nat) (bs : List Byte) : (s.store a bs).ch = s.ch := rfl
@[simp] theorem State.store_ctx (a : Nat) (bs : List Byte) : (s.store a bs).ctx = s.ctx := rfl
@[simp] theorem State.store_result (a : Nat) (bs : List Byte) : (s.store a bs).result = s.result := rfl
@[simp] theorem State.store_args (a : Nat) (bs : List Byte) : (s.store a bs).args = s.args := rfl
@[simp] theorem State.store_outCount (a : Nat) (bs : List Byte) : (s.store a bs).outCount = s.outCount := rfl
@[simp] theorem State.store_res (a : Nat) (bs : List Byte) : (s.store a bs).res = s.res := rfl
@[simp] theorem State.store_errAcc (a : Nat) (bs : List Byte) : (s.store a bs).errAcc = s.errAcc := rfl
@[simp] theorem State.store_mem (a : Nat) (bs : List Byte) : (s.store a bs).mem = writeBytes s.mem a bs := rfl
@[simp] theorem State.store_pending (a : Nat) (bs : List Byte) : (s.store a bs).pending = s.pending := rfl
@[simp] theorem State.store_busRead (a : Nat) (bs : List Byte) : (s.store a bs).busRead = s.busRead := rfl

/-! `State.setContext` -/

@[simp] theorem State.setContext_platform (c : Context) : (s.setContext c).platform = s.platform := rfl
@[simp] theorem State.setContext_ch (c : Context) : (s.setContext c).ch = s.ch := rfl
@[simp] theorem State.setContext_ctx (c : Context) : (s.setContext c).ctx = c := rfl
@[simp] theorem State.setContext_result (c : Context) : (s.setContext c).result = s.result := rfl
@[simp] theorem State.setContext_args (c : Context) : (s.setContext c).args = s.args := rfl
@[simp] theorem State.setContext_outCount (c : Context) : (s.setContext c).outCount = s.outCount := rfl
@[simp] theorem State.setContext_res (c : Context) : (s.setContext c).res = s.res := rfl
@[simp] theorem State.setContext_errAcc (c : Context) : (s.setContext c).errAcc = s.errAcc := rfl
@[simp] theorem State.setContext_mem (c : Context) : (s.setContext c).mem = s.mem := rfl
@[simp] theorem State.setContext_pending (c : Context) : (s.setContext c).pending = s.pending := rfl
@[simp] theorem State.setContext_busRead (c : Context) : (s.setContext c).busRead = s.busRead := rfl

/-! `State.setChoice` -/

@[simp] theorem State.setChoice_platform (c : Code) (e : Nat) : (s.setChoice c e).platform = s.platform := rfl
@[simp] theorem State.setChoice_ch (c : Code) (e : Nat) : (s.setChoice c e).ch = s.ch := rfl
@[simp] theorem State.setChoice_ctx (c : Code) (e : Nat) : (s.setChoice c e).ctx = s.ctx := rfl
@[simp] theorem State.setChoice_result (c : Code) (e : Nat) : (s.setChoice c e).result = s.result := rfl
@[simp] theorem State.setChoice_args (c : Code) (e : Nat) : (s.setChoice c e).args = s.args := rfl
@[simp] theorem State.setChoice_outCount (c : Code) (e : Nat) : (s.setChoice c e).outCount = s.outCount := rfl
@[simp] theorem State.setChoice_res (c : Code) (e : Nat) : (s.setChoice c e).res = { s.res with code := c, err := BitVec.ofNat 32 e } := rfl
@[simp] theorem State.setChoice_errAcc (c : Code) (e : Nat) : (s.setChoice c e).errAcc = s.errAcc := rfl
@[simp] theorem State.setChoice_mem (c : Code) (e : Nat) : (s.setChoice c e).mem = s.mem := rfl
@[simp] theorem State.setChoice_pending (c : Code) (e : Nat) : (s.setChoice c e).pending = s.pending := rfl
@[simp] theorem State.setChoice_busRead (c : Code) (e : Nat) : (s.setChoice c e).busRead = s.busRead := rfl

/-! `State.done` -/

@[simp] theorem State.done_platform (n : Nat) : (s.done n).platform = s.platform := rfl
@[simp] theorem State.done_ch (n : Nat) : (s.done n).ch = s.ch := rfl
@[simp] theorem State.done_ctx (n : Nat) : (s.done n).ctx = s.ctx := rfl
@[simp] theorem State.done_result (n : Nat) : (s.done n).result = .success := rfl
@[simp] theorem State.done_args (n : Nat) : (s.done n).args = s.args := rfl
@[simp] theorem State.done_outCount (n : Nat) : (s.done n).outCount = BitVec.ofNat 32 n := rfl
@[simp] theorem State.done_res (n : Nat) : (s.done n).res = s.res := rfl
@[simp] theorem State.done_errAcc (n : Nat) : (s.done n).errAcc = s.errAcc := rfl
@[simp] theorem State.done_mem (n : Nat) : (s.done n).mem = s.mem := rfl
@[simp] theorem State.done_pending (n : Nat) : (s.done n).pending = s.pending := rfl
@[simp] theorem State.done_busRead (n : Nat) : (s.done n).busRead = s.busRead := rfl

/-! `State.failed` -/

@[simp] theorem State.failed_platform : (s.failed).platform = s.platform := rfl
@[simp] theorem State.failed_ch : (s.failed).ch = s.ch := rfl
@[simp] theorem State.failed_ctx : (s.failed).ctx = s.ctx := rfl
@[simp] theorem State.failed_result : (s.failed).result = .invalidParam := rfl
@[simp] theorem State.failed_args : (s.failed).args = s.args := rfl
@[simp] theorem State.failed_outCount : (s.failed).outCount = 0 := rfl
@[simp] theorem State.failed_res : (s.failed).res = s.res := rfl
@[simp] theorem State.failed_errAcc : (s.failed).errAcc = s.errAcc := rfl
@[simp] theorem State.failed_mem : (s.failed).mem = s.mem := rfl
@[simp] theorem State.failed_pending : (s.failed).pending = s.pending := rfl
@[simp] theorem State.failed_busRead : (s.failed).busRead = s.busRead := rfl

/-! `State.setSample` -/

@[simp] theorem State.setSample_platform (r : Int) : (s.setSample r).platform = s.platform := rfl
@[simp] theorem State.setSample_ch (r : Int) : (s.setSample r).ch = s.ch := rfl
@[simp] theorem State.setSample_ctx (r : Int) : (s.setSample r).ctx = s.ctx := rfl
@[simp] theorem State.setSample_result (r : Int) : (s.setSample r).result = s.result := rfl
@[simp] theorem State.setSample_args (r : Int) : (s.setSample r).args = s.args := rfl
@[simp] theorem State.setSample_outCount (r : Int) : (s.setSample r).outCount = s.outCount := rfl
@[simp] theorem State.setSample_res (r : Int) : (s.setSample r).res = { s.res with sample := BitVec.ofInt 32 r } := rfl
@[simp] theorem State.setSample_errAcc (r : Int) : (s.setSample r).errAcc = s.errAcc := rfl
@[simp] theorem State.setSample_mem (r : Int) : (s.setSample r).mem = s.mem := rfl
@[simp] theorem State.setSample_pending (r : Int) : (s.setSample r).pending = s.pending := rfl
@[simp] theorem State.setSample_busRead (r : Int) : (s.setSample r).busRead = s.busRead := rfl

/-! `resetBlock` -/

@[simp] theorem resetBlock_platform : (resetBlock s).platform = s.platform := rfl
@[simp] theorem resetBlock_ch : (resetBlock s).ch = List.replicate s.ch.length ⟨0, 0⟩ := rfl
@[simp] theorem resetBlock_ctx : (resetBlock s).ctx = ⟨false, 0, 0⟩ := rfl
@[simp] theorem resetBlock_result : (resetBlock s).result = .success := rfl
@[simp] theorem resetBlock_args : (resetBlock s).args = ⟨0, 0, 0, 0, 0, 0, 0, 0, 0⟩ := rfl
@[simp] theorem resetBlock_outCount : (resetBlock s).outCount = 0 := rfl
@[simp] theorem resetBlock_res : (resetBlock s).res = ⟨0, 0, 0⟩ := rfl
@[simp] theorem resetBlock_errAcc : (resetBlock s).errAcc = 0 := rfl
@[simp] theorem resetBlock_mem : (resetBlock s).mem = s.mem := rfl
@[simp] theorem resetBlock_pending : (resetBlock s).pending = s.pending := rfl
@[simp] theorem resetBlock_busRead : (resetBlock s).busRead = s.busRead := rfl

/-! `writeReg`: only the argument registers and `ERR_ACC` are writable. -/

@[simp] theorem writeReg_platform (v : Word) (r : Reg) : (writeReg s v r).platform = s.platform := by cases r <;> rfl
@[simp] theorem writeReg_ch (v : Word) (r : Reg) : (writeReg s v r).ch = s.ch := by cases r <;> rfl
@[simp] theorem writeReg_ctx (v : Word) (r : Reg) : (writeReg s v r).ctx = s.ctx := by cases r <;> rfl
@[simp] theorem writeReg_result (v : Word) (r : Reg) : (writeReg s v r).result = s.result := by cases r <;> rfl
@[simp] theorem writeReg_outCount (v : Word) (r : Reg) : (writeReg s v r).outCount = s.outCount := by cases r <;> rfl
@[simp] theorem writeReg_res (v : Word) (r : Reg) : (writeReg s v r).res = s.res := by cases r <;> rfl
@[simp] theorem writeReg_mem (v : Word) (r : Reg) : (writeReg s v r).mem = s.mem := by cases r <;> rfl
@[simp] theorem writeReg_pending (v : Word) (r : Reg) : (writeReg s v r).pending = s.pending := by cases r <;> rfl
@[simp] theorem writeReg_busRead (v : Word) (r : Reg) : (writeReg s v r).busRead = s.busRead := by cases r <;> rfl

/-! The number of channels. -/

theorem State.nchMax_eq : s.nchMax = s.ch.length := rfl
@[simp] theorem State.setSelected_nchMax (c : Chan) : (s.setSelected c).nchMax = s.nchMax := by
  simp [State.nchMax]
theorem State.setFirst_nchMax (cs : List Chan) (h : cs.length ≤ s.nchMax) :
    (s.setFirst cs).nchMax = s.nchMax := by
  simp only [State.nchMax, State.setFirst_ch, List.length_append, List.length_drop] at *; omega

end Sys2Proof.Machine
end

