-- ==== Sys2Proof/Laws/Ops.lean ====
section
/-! SUPPORT. What each shared operation can do: the buffer check, the two endings, one code. -/

namespace Sys2Proof.Machine

/-- The buffer check lets the body run exactly where the extents fit. -/
theorem withBuffers_of_fits (s : State) (input output : Span) (body : Outcome)
    (h : s.fits input output = true) : withBuffers s input output body = body := by
  simp only [State.fits, Bool.and_eq_true, Bool.not_eq_true'] at h
  simp [withBuffers, h]

/-- A command that completes behind the buffer check has fitting extents and completes in its body. -/
theorem withBuffers_next (s t : State) (input output : Span) (body : Outcome)
    (h : withBuffers s input output body = .next t) :
    s.fits input output = true ∧ body = .next t := by
  simp only [withBuffers] at h
  split at h
  · cases h
  · split at h
    · cases h
    · split at h
      · cases h
      · split at h
        · cases h
        · refine ⟨?_, h⟩
          simp_all [State.fits]

/-- A run wraps exactly when it ends past 2^32. -/
theorem wraps_iff (r : Span) : r.wraps = true ↔ 2 ^ 32 < r.addr + r.len := by simp [Span.wraps]

/-- An address in a run, as numbers. -/
theorem holds_iff (r : Span) (a : Nat) : r.holds a = true ↔ r.addr ≤ a ∧ a < r.addr + r.len := by
  simp [Span.holds]

/-- Two runs meet exactly when some address lies in both. -/
theorem meets_iff (r t : Span) : r.meets t = true ↔ ∃ a, r.holds a = true ∧ t.holds a = true := by
  simp only [Span.meets, decide_eq_true_iff, holds_iff]
  refine ⟨fun h => ⟨max r.addr t.addr, ?_⟩, fun ⟨a, h⟩ => ?_⟩ <;> omega

/-- A run is clear of devices exactly when none of its addresses belongs to one. -/
theorem clearOfDevices_iff (p : Platform) (r : Span) :
    p.clearOfDevices r = true ↔ ∀ a, r.holds a = true → p.isDevice a = false := by
  simp only [Platform.clearOfDevices, List.all_eq_true, List.mem_range, Bool.not_eq_true', holds_iff]
  refine ⟨fun h a ha => ?_, fun h i hi => h _ (by omega)⟩
  have := h (a - r.addr) (by omega)
  rwa [show r.addr + (a - r.addr) = a by omega] at this

/-- A run is backed exactly when all its addresses are. -/
theorem backsAll_iff (p : Platform) (r : Span) :
    p.backsAll r = true ↔ ∀ a, r.holds a = true → p.backs a = true := by
  simp only [Platform.backsAll, List.all_eq_true, List.mem_range, holds_iff]
  refine ⟨fun h a ha => ?_, fun h i hi => h _ (by omega)⟩
  have := h (a - r.addr) (by omega)
  rwa [show r.addr + (a - r.addr) = a by omega] at this

/-- The buffer check refuses a run past the top of memory. -/
theorem withBuffers_wraps (s : State) (input output : Span) (body : Outcome)
    (h : input.wraps = true ∨ output.wraps = true) :
    withBuffers s input output body = .refused .bufferWraps := by
  rw [withBuffers, if_pos (by simpa using h)]

/-- The buffer check refuses runs that share a byte. -/
theorem withBuffers_meets (s : State) (input output : Span) (body : Outcome)
    (hi : input.wraps = false) (ho : output.wraps = false) (h : input.meets output = true) :
    withBuffers s input output body = .refused .buffersOverlap := by
  simp [withBuffers, hi, ho, h]

/-- The buffer check refuses a run that covers a device's address. -/
theorem withBuffers_device (s : State) (input output : Span) (body : Outcome)
    (hi : input.wraps = false) (ho : output.wraps = false) (hm : input.meets output = false)
    (h : s.platform.clearOfDevices input = false ∨ s.platform.clearOfDevices output = false) :
    withBuffers s input output body = .refused .deviceAccess := by
  rw [withBuffers, hi, ho, hm]
  rcases h with h | h <;> simp [h]

/-- The buffer check is stuck on a byte the platform does not back. -/
theorem withBuffers_unadmitted (s : State) (input output : Span) (body : Outcome)
    (hi : input.wraps = false) (ho : output.wraps = false) (hm : input.meets output = false)
    (hc : s.platform.clearOfDevices input = true) (hd : s.platform.clearOfDevices output = true)
    (h : s.platform.backsAll input = false ∨ s.platform.backsAll output = false) :
    withBuffers s input output body = .fault .unadmittedByte := by
  rw [withBuffers, hi, ho, hm, hc, hd]
  rcases h with h | h <;> simp [h]

/-- Everything the buffer check stops on, in its order, by the addresses of the two runs. -/
theorem withBuffers_stops (s : State) (input output : Span) (body : Outcome) :
    (2 ^ 32 < input.addr + input.len ∨ 2 ^ 32 < output.addr + output.len →
      withBuffers s input output body = .refused .bufferWraps) ∧
    (input.addr + input.len ≤ 2 ^ 32 → output.addr + output.len ≤ 2 ^ 32 →
      ((∃ a, input.holds a = true ∧ output.holds a = true) →
        withBuffers s input output body = .refused .buffersOverlap) ∧
      ((∀ a, input.holds a = true → output.holds a = false) →
        ((∃ a, (input.holds a = true ∨ output.holds a = true) ∧ s.platform.isDevice a = true) →
          withBuffers s input output body = .refused .deviceAccess) ∧
        ((∀ a, input.holds a = true ∨ output.holds a = true → s.platform.isDevice a = false) →
          (∃ a, (input.holds a = true ∨ output.holds a = true) ∧ s.platform.backs a = false) →
          withBuffers s input output body = .fault .unadmittedByte))) := by
  refine ⟨fun h => withBuffers_wraps _ _ _ _ (by rwa [wraps_iff, wraps_iff]), fun w₁ w₂ => ?_⟩
  have hi : input.wraps = false := by rw [← Bool.not_eq_true, wraps_iff]; omega
  have ho : output.wraps = false := by rw [← Bool.not_eq_true, wraps_iff]; omega
  refine ⟨fun h => withBuffers_meets _ _ _ _ hi ho ((meets_iff _ _).2 h), fun hd => ?_⟩
  have hm : input.meets output = false := by
    rw [← Bool.not_eq_true, meets_iff]
    rintro ⟨a, q₁, q₂⟩
    simp [hd a q₁] at q₂
  refine ⟨fun ⟨a, q, h⟩ => withBuffers_device _ _ _ _ hi ho hm ?_, fun hn ⟨a, q, h⟩ =>
    withBuffers_unadmitted _ _ _ _ hi ho hm ((clearOfDevices_iff _ _).2 fun a h => hn a (.inl h))
      ((clearOfDevices_iff _ _).2 fun a h => hn a (.inr h)) ?_⟩
  · simp only [← Bool.not_eq_true, clearOfDevices_iff]
    exact q.imp (fun q hh => by simp [hh a q] at h) fun q hh => by simp [hh a q] at h
  · simp only [← Bool.not_eq_true, backsAll_iff]
    exact q.imp (fun q hh => by simp [hh a q] at h) fun q hh => by simp [hh a q] at h

/-- What it means that a command's extents fit: neither passes the top of memory, no address lies in
both, and every address of either is memory that the platform backs. -/
theorem fits_iff (s : State) (input output : Span) : s.fits input output = true ↔
    input.addr + input.len ≤ 2 ^ 32 ∧ output.addr + output.len ≤ 2 ^ 32 ∧
      (∀ a, input.holds a = true → output.holds a = false) ∧
      ∀ a, input.holds a = true ∨ output.holds a = true →
        s.platform.isDevice a = false ∧ s.platform.backs a = true := by
  have hw : ∀ r : Span, r.wraps = false ↔ r.addr + r.len ≤ 2 ^ 32 := fun r => by
    rw [← Bool.not_eq_true, wraps_iff, Nat.not_lt]
  have hm : input.meets output = false ↔ ∀ a, input.holds a = true → output.holds a = false := by
    rw [← Bool.not_eq_true, meets_iff]
    simp
  simp only [State.fits, Bool.and_eq_true, Bool.not_eq_true', hw, hm, clearOfDevices_iff, backsAll_iff]
  constructor
  · rintro ⟨⟨⟨⟨h1, h2⟩, h3⟩, h4, h5⟩, h6, h7⟩
    exact ⟨h1, h2, h3, fun a h => h.elim (fun h => ⟨h4 a h, h6 a h⟩) fun h => ⟨h5 a h, h7 a h⟩⟩
  · rintro ⟨h1, h2, h3, h4⟩
    exact ⟨⟨⟨⟨h1, h2⟩, h3⟩, fun a h => (h4 a (.inl h)).1, fun a h => (h4 a (.inr h)).1⟩,
      fun a h => (h4 a (.inl h)).2, fun a h => (h4 a (.inr h)).2⟩

/-- An output extent that fits does not pass the top of memory. -/
theorem fits_output_bound (s : State) (input output : Span) (h : s.fits input output = true) :
    output.addr + output.len ≤ 2 ^ 32 := by
  simp only [State.fits, Bool.and_eq_true, Bool.not_eq_true'] at h
  have := h.1.1.1.2
  simp only [Span.wraps, decide_eq_false_iff_not] at this
  omega

/-- An input extent that fits does not pass the top of memory. -/
theorem fits_input_bound (s : State) (input output : Span) (h : s.fits input output = true) :
    input.addr + input.len ≤ 2 ^ 32 := by
  simp only [State.fits, Bool.and_eq_true, Bool.not_eq_true'] at h
  have := h.1.1.1.1
  simp only [Span.wraps, decide_eq_false_iff_not] at this
  omega

/-- Extents that fit share no byte. -/
theorem fits_disjoint (s : State) (input output : Span) (h : s.fits input output = true) (a : Nat)
    (hi : input.addr ≤ a ∧ a < input.addr + input.len) :
    ¬ (output.addr ≤ a ∧ a < output.addr + output.len) := by
  simp only [State.fits, Bool.and_eq_true, Bool.not_eq_true'] at h
  have := h.1.1.2
  simp only [Span.meets, decide_eq_false_iff_not] at this
  omega

/-- SUCCESS completion answers a next state, this one. -/
@[simp] theorem complete_next (s t : State) (n : Nat) : complete s n = .next t ↔ t = s.done n := by
  simp only [complete, State.done, Host.Outcome.next.injEq]
  exact eq_comm

/-- `fail INVALID_PARAM` answers a next state, this one. -/
@[simp] theorem failInvalidParam_next (s t : State) : failInvalidParam s = .next t ↔ t = s.failed := by
  simp only [failInvalidParam, State.failed, Host.Outcome.next.injEq]
  exact eq_comm

/-- The selected channel is there exactly when `CHSEL < NCH_MAX`. -/
theorem selected_none_iff (s : State) : s.selected = none ↔ s.NoChannel := by
  simp [State.selected, State.NoChannel, State.nchMax]

/-- A selected channel means `CHSEL < NCH_MAX`. -/
theorem selected_some (s : State) (c : Chan) (h : s.selected = some c) :
    s.args.chsel.toNat < s.ch.length ∧ c ∈ s.ch := by
  simp only [State.selected] at h
  exact ⟨(List.getElem?_eq_some_iff.1 h).1, List.mem_of_getElem? h⟩

/-- What one code does: with a selected channel it completes and changes that channel alone. -/
theorem runCode_next (s t : State) (d : Nat → Int) (dx : Int) :
    runCode s d dx = .next t ↔ ∃ c, s.selected = some c ∧
      t = s.setSelected (Adaptive.chan ⟨clipSample (c.state.p + d (stepSize c.state.x)),
        clipIndex ((c.state.x : Int) + dx)⟩) := by
  simp only [runCode]
  cases s.selected with
  | none => simp
  | some c => simp [eq_comm]

/-- Legal channels stay legal under a legal write of the selected one. -/
theorem setSelected_legal (s : State) (c : Chan) (h : s.ChannelsLegal) (hc : c.index.toNat ≤ 88) :
    (s.setSelected c).ChannelsLegal := by
  intro d hd
  rcases List.mem_or_eq_of_mem_set hd with hd | rfl
  · exact h d hd
  · exact hc

/-- Legal channels stay legal under legal writes of the first ones. -/
theorem setFirst_legal (s : State) (cs : List Chan) (h : s.ChannelsLegal)
    (hc : ∀ c ∈ cs, c.index.toNat ≤ 88) : (s.setFirst cs).ChannelsLegal := by
  intro d hd
  rcases List.mem_append.1 hd with hd | hd
  · exact hc d hd
  · exact h d (List.mem_of_mem_drop hd)

/-- The index byte check as a number. -/
theorem indexLegal_iff (b : Byte) : indexLegal b = true ↔ b.toNat ≤ 88 := by simp [indexLegal]

/-- The channel count check as a number. -/
theorem nchLegal_iff (s : State) :
    s.nchLegal = true ↔ 1 ≤ s.args.nch.toNat ∧ s.args.nch.toNat ≤ s.nchMax := by
  simp only [State.nchLegal, Bool.and_eq_true, decide_eq_true_iff]
  exact Iff.rfl

/-- `SRC_ADDR` = 0. -/
theorem srcAbsent_iff (s : State) : s.srcAbsent = true ↔ s.args.srcAddr = 0 := by
  simp [State.srcAbsent]

/-- `DST_ADDR` = 0. -/
theorem dstAbsent_iff (s : State) : s.dstAbsent = true ↔ s.args.dstAddr = 0 := by
  simp [State.dstAbsent]

end Sys2Proof.Machine
end

