-- ==== Sys2Proof/Laws/Exec.lean ====
section
/-! SUPPORT. One inversion lemma for each command: everything it can do when it answers a next state. -/

namespace Sys2Proof.Machine

variable (s t : State)

/-- STEP fails without a channel, and else moves the selected channel and shows the sample. -/
theorem execStep_next : execStep s = .next t ↔
    (s.selected = none ∧ t = s.failed) ∨
    ∃ c, s.selected = some c ∧
      t = ((s.setSelected (transition c.state s.args.code).1.chan).setSample
        (transition c.state s.args.code).2).done 0 := by
  simp only [execStep]
  cases s.selected <;> simp

/-- INIT_ENC fails without a channel or with a bad index, and else seeds the channel and clears
`ERR_ACC`. -/
theorem execInitEnc_next : execInitEnc s = .next t ↔
    ((s.selected = none ∨ indexLegal s.args.index = false) ∧ t = s.failed) ∨
    (s.selected ≠ none ∧ indexLegal s.args.index = true ∧
      t = ((s.setSelected ⟨s.args.sample, s.args.index⟩).clearError).done 0) := by
  simp only [execInitEnc]
  cases s.selected <;> cases indexLegal s.args.index <;> simp

/-- INIT_DEC is the same and keeps `ERR_ACC`. -/
theorem execInitDec_next : execInitDec s = .next t ↔
    ((s.selected = none ∨ indexLegal s.args.index = false) ∧ t = s.failed) ∨
    (s.selected ≠ none ∧ indexLegal s.args.index = true ∧
      t = (s.setSelected ⟨s.args.sample, s.args.index⟩).done 0) := by
  simp only [execInitDec]
  cases s.selected <;> cases indexLegal s.args.index <;> simp

/-- CTX_FREE always completes. -/
theorem execCtxFree_next : execCtxFree s = .next t ↔ t = (s.setContext ⟨false, 0, 0⟩).done 0 := by
  simp only [execCtxFree, complete_next]

/-- CHOOSE fails on a cause of its own, and else shows the search's code and immediate error. -/
theorem execChoose_next (h : execChoose s = .next t) :
    ((s.selected = none ∨ s.srcAbsent = true ∨ s.count ≤ 0) ∧ t = s.failed) ∨
    ∃ c, s.selected = some c ∧ s.srcAbsent = false ∧ 0 < s.count ∧
      s.fits ⟨s.src, 2 * (1 + min s.lookahead (s.count.toNat - 1))⟩ noBuffer = true ∧
      ∃ r, r = search errMetric (min s.lookahead (s.count.toNat - 1)) c.state
          (readSamples s.mem s.src 1 0 (min s.lookahead (s.count.toNat - 1) + 1)) ∧
        t = (s.setChoice r.code r.imm).done 0 := by
  simp only [execChoose] at h
  split at h
  · next e => exact .inl ⟨.inl e, (failInvalidParam_next ..).1 h⟩
  · next c e =>
    split at h
    · next e1 => exact .inl ⟨.inr (.inl e1), (failInvalidParam_next ..).1 h⟩
    · next e1 =>
      split at h
      · next e2 => exact .inl ⟨.inr (.inr e2), (failInvalidParam_next ..).1 h⟩
      · next e2 =>
        obtain ⟨hf, hb⟩ := withBuffers_next _ _ _ _ _ h
        exact .inr ⟨c, e, by simpa using e1, by omega, hf, _, rfl, (complete_next ..).1 hb⟩

/-- ENC_STREAM fails on a cause of its own, and else codes the run from the selected channel. -/
theorem execEncStream_next (h : execEncStream s = .next t) :
    ((s.selected = none ∨ s.srcAbsent = true ∨ s.dstAbsent = true ∨ s.count ≤ 0) ∧ t = s.failed) ∨
    ∃ c, s.selected = some c ∧ s.srcAbsent = false ∧ s.dstAbsent = false ∧ 0 < s.count ∧
      s.fits ⟨s.src, 2 * s.count.toNat⟩ ⟨s.dst, packedLength s.count.toNat⟩ = true ∧
      ∃ r, r = encodeRun errMetric s.lookahead c.state (readSamples s.mem s.src 1 0 s.count.toNat) ∧
        t = (((s.setSelected r.state.chan).addError r.err).store s.dst (packCodes r.codes)).done
          (packedLength s.count.toNat) := by
  simp only [execEncStream] at h
  split at h
  · next e => exact .inl ⟨.inl e, (failInvalidParam_next ..).1 h⟩
  · next c e =>
    split at h
    · next e1 =>
      simp only [Bool.or_eq_true] at e1
      exact .inl ⟨by tauto, (failInvalidParam_next ..).1 h⟩
    · next e1 =>
      split at h
      · next e2 => exact .inl ⟨by tauto, (failInvalidParam_next ..).1 h⟩
      · next e2 =>
        simp only [Bool.or_eq_true, not_or, Bool.not_eq_true] at e1
        obtain ⟨hf, hb⟩ := withBuffers_next _ _ _ _ _ h
        exact .inr ⟨c, e, e1.1, e1.2, by omega, hf, _, rfl, (complete_next ..).1 hb⟩

/-- DEC_STREAM fails on a cause of its own, and else replays the codes from the selected channel. -/
theorem execDecStream_next (h : execDecStream s = .next t) :
    ((s.selected = none ∨ s.srcAbsent = true ∨ s.dstAbsent = true ∨ s.count ≤ 0) ∧ t = s.failed) ∨
    ∃ c, s.selected = some c ∧ s.srcAbsent = false ∧ s.dstAbsent = false ∧ 0 < s.count ∧
      s.fits ⟨s.src, packedLength s.count.toNat⟩ ⟨s.dst, 2 * s.count.toNat⟩ = true ∧
      ∃ r, r = decodeRun c.state (readCodes s.mem s.src s.count.toNat) ∧
        t = ((s.setSelected r.2.chan).store s.dst (r.1.flatMap sampleBytes)).done s.count.toNat := by
  simp only [execDecStream] at h
  split at h
  · next e => exact .inl ⟨.inl e, (failInvalidParam_next ..).1 h⟩
  · next c e =>
    split at h
    · next e1 =>
      simp only [Bool.or_eq_true] at e1
      exact .inl ⟨by tauto, (failInvalidParam_next ..).1 h⟩
    · next e1 =>
      split at h
      · next e2 => exact .inl ⟨by tauto, (failInvalidParam_next ..).1 h⟩
      · next e2 =>
        simp only [Bool.or_eq_true, not_or, Bool.not_eq_true] at e1
        obtain ⟨hf, hb⟩ := withBuffers_next _ _ _ _ _ h
        exact .inr ⟨c, e, e1.1, e1.2, by omega, hf, _, rfl, (complete_next ..).1 hb⟩

/-- CTX_CREATE fails on a cause of its own, and else seeds the first channels and sets the context. -/
theorem execCtxCreate_next (h : execCtxCreate s = .next t) :
    ((s.nchLegal = false ∨ s.srcAbsent = true ∨
        (readBytes s.mem s.src s.nchArg).all indexLegal = false) ∧ t = s.failed) ∨
    (s.nchLegal = true ∧ s.srcAbsent = false ∧ s.fits ⟨s.src, s.nchArg⟩ noBuffer = true ∧
      (readBytes s.mem s.src s.nchArg).all indexLegal = true ∧
      t = (((s.setFirst ((readBytes s.mem s.src s.nchArg).map fun b => ⟨0, b⟩)).setContext
        ⟨true, s.args.nch, s.args.lookahead⟩).clearError).done 0) := by
  simp only [execCtxCreate] at h
  split at h
  · next e => exact .inl ⟨.inl (by simpa using e), (failInvalidParam_next ..).1 h⟩
  · next e =>
    split at h
    · next e1 => exact .inl ⟨.inr (.inl e1), (failInvalidParam_next ..).1 h⟩
    · next e1 =>
      obtain ⟨hf, hb⟩ := withBuffers_next _ _ _ _ _ h
      split at hb
      · next e2 =>
        exact .inl ⟨.inr (.inr (Bool.not_eq_true' _ ▸ e2)), (failInvalidParam_next ..).1 hb⟩
      · next e2 =>
        refine .inr ⟨by simpa using e, by simpa using e1, hf, ?_, (complete_next ..).1 hb⟩
        simpa only [Bool.not_eq_true', Bool.not_eq_false] using e2

/-- ENC_BLOCK fails on a cause of its own, and else codes the context's channels over the block. -/
theorem execEncBlock_next (h : execEncBlock s = .next t) :
    ((s.ctx.valid = false ∨ s.srcAbsent = true ∨ s.dstAbsent = true ∨ s.count ≤ 0 ∨
        (s.count - 1) % 8 ≠ 0) ∧ t = s.failed) ∨
    (s.ctx.valid = true ∧ s.srcAbsent = false ∧ s.dstAbsent = false ∧ 0 < s.count ∧
      (s.count - 1) % 8 = 0 ∧ s.ctx.nch.toNat ≤ s.nchMax ∧
      s.fits ⟨s.src, 2 * s.count.toNat * s.ctx.nch.toNat⟩
        ⟨s.dst, blockLength s.ctx.nch.toNat ((s.count.toNat - 1) / 8)⟩ = true ∧
      ∃ bs, bs = encodeChannels s s.ctx.nch.toNat s.count.toNat ∧
        t = (((s.setFirst (bs.map fun b => b.run.state.chan)).addError
            (bs.map fun b => b.run.err).sum).store s.dst
            (blockBytes bs ((s.count.toNat - 1) / 8))).done
          (blockLength s.ctx.nch.toNat ((s.count.toNat - 1) / 8))) := by
  simp only [execEncBlock] at h
  split at h
  · next e => exact .inl ⟨.inl (by simpa using e), (failInvalidParam_next ..).1 h⟩
  · next e =>
    split at h
    · next e1 =>
      simp only [Bool.or_eq_true] at e1
      exact .inl ⟨by tauto, (failInvalidParam_next ..).1 h⟩
    · next e1 =>
      split at h
      · next e2 => exact .inl ⟨by tauto, (failInvalidParam_next ..).1 h⟩
      · next e2 =>
        split at h
        · next e3 => exact .inl ⟨by tauto, (failInvalidParam_next ..).1 h⟩
        · next e3 =>
          split at h
          · cases h
          · next e4 =>
            simp only [Bool.or_eq_true, not_or, Bool.not_eq_true] at e1
            obtain ⟨hf, hb⟩ := withBuffers_next _ _ _ _ _ h
            exact .inr ⟨by simpa using e, e1.1, e1.2, by omega, by omega, by omega, hf, _, rfl,
              (complete_next ..).1 hb⟩

/-- DEC_BLOCK fails on a cause of its own, completes with zero samples on a corrupt block, and else
writes the replayed samples and nothing more. -/
theorem execDecBlock_next (h : execDecBlock s = .next t) :
    ((s.nchLegal = false ∨ s.srcAbsent = true ∨ s.dstAbsent = true ∨ s.count ≤ 0) ∧ t = s.failed) ∨
    (s.nchLegal = true ∧ s.srcAbsent = false ∧ s.dstAbsent = false ∧ 0 < s.count ∧
      ((s.count.toNat < 4 * s.nchArg ∧ t = s.done 0) ∨
        (4 * s.nchArg ≤ s.count.toNat ∧ s.fits ⟨s.src, 4 * s.nchArg⟩ noBuffer = true ∧
          ((((List.range s.nchArg).all fun c => (readHeader s.mem s.src c).legal) = false ∧
              t = s.done 0) ∨
            (((List.range s.nchArg).all fun c => (readHeader s.mem s.src c).legal) = true ∧
              ∃ k, k = (s.count.toNat - 4 * s.nchArg) / (4 * s.nchArg) ∧
                s.fits ⟨s.src, 4 * s.nchArg * (1 + k)⟩
                  ⟨s.dst, 2 * (1 + 8 * k) * s.nchArg⟩ = true ∧
                t = (s.store s.dst (frameBytes (decodeChannels s.mem s.src s.nchArg k)
                  (1 + 8 * k))).done (1 + 8 * k)))))) := by
  simp only [execDecBlock] at h
  split at h
  · next e => exact .inl ⟨.inl (by simpa using e), (failInvalidParam_next ..).1 h⟩
  · next e =>
    split at h
    · next e1 =>
      simp only [Bool.or_eq_true] at e1
      exact .inl ⟨by tauto, (failInvalidParam_next ..).1 h⟩
    · next e1 =>
      split at h
      · next e2 => exact .inl ⟨by tauto, (failInvalidParam_next ..).1 h⟩
      · next e2 =>
        simp only [Bool.or_eq_true, not_or, Bool.not_eq_true] at e1
        refine .inr ⟨by simpa using e, e1.1, e1.2, by omega, ?_⟩
        split at h
        · next e3 => exact .inl ⟨e3, (complete_next ..).1 h⟩
        · next e3 =>
          obtain ⟨hf, hb⟩ := withBuffers_next _ _ _ _ _ h
          refine .inr ⟨by omega, hf, ?_⟩
          split at hb
          · next e4 => exact .inl ⟨by rwa [Bool.not_eq_true'] at e4, (complete_next ..).1 hb⟩
          · next e4 =>
            obtain ⟨hf2, hb2⟩ := withBuffers_next _ _ _ _ _ hb
            rw [Bool.not_eq_true', Bool.not_eq_false] at e4
            exact .inr ⟨e4, _, rfl, hf2, (complete_next ..).1 hb2⟩

/-- The reserved opcodes only fail. -/
theorem execReserved_next (i : Instr)
    (h : i = .reserved0 ∨ i = .reservedB ∨ i = .reservedC ∨ i = .reservedD ∨ i = .reservedE ∨
      i = .reservedF) : exec i s = .next t ↔ t = s.failed := by
  rcases h with rfl | rfl | rfl | rfl | rfl | rfl <;>
    simp [exec, execReserved0, execReservedB, execReservedC, execReservedD, execReservedE,
      execReservedF]

/-- A code completes exactly when a channel is selected, and then changes that channel alone, to a
state of the domain. -/
theorem exec_code_next (i : Instr) (h : i.isCommand = false) (e : exec i s = .next t) :
    ∃ (c : Chan) (a : Adaptive), s.selected = some c ∧ a.InDomain ∧ t = s.setSelected a.chan := by
  have key : ∀ d dx, runCode s d dx = .next t →
      ∃ (c : Chan) (a : Adaptive), s.selected = some c ∧ a.InDomain ∧ t = s.setSelected a.chan := fun d dx hr =>
    let ⟨c, hc, ht⟩ := (runCode_next s t d dx).1 hr
    ⟨c, _, hc, ⟨(clipSample_isSample _).1, (clipSample_isSample _).2, clipIndex_le _⟩, ht⟩
  cases i <;> first
    | exact absurd h (by decide)
    | (simp only [exec, execCode0, execCode1, execCode2, execCode3, execCode4, execCode5, execCode6,
        execCode7, execCode8, execCode9, execCodeA, execCodeB, execCodeC, execCodeD, execCodeE,
        execCodeF] at e
       exact key _ _ e)

end Sys2Proof.Machine
end

