-- ==== Sys2Proof/Laws/PerInstr.lean ====
section
/-! SUPPORT. The family RoundTrip: decoding the encoding of an instruction gives it back, one lemma for
each constructor. -/

/-- Decoding the encoding of `i` gives `i`. -/
def Sys2Proof.Laws.RoundTrip.Statement (i : Sys2Proof.Instr) : Prop :=
  Sys2Proof.decode (Sys2Proof.encode i) = i

namespace Sys2Proof.Laws.RoundTrip

theorem code0 : Statement .code0 := by unfold Statement; decide
theorem code1 : Statement .code1 := by unfold Statement; decide
theorem code2 : Statement .code2 := by unfold Statement; decide
theorem code3 : Statement .code3 := by unfold Statement; decide
theorem code4 : Statement .code4 := by unfold Statement; decide
theorem code5 : Statement .code5 := by unfold Statement; decide
theorem code6 : Statement .code6 := by unfold Statement; decide
theorem code7 : Statement .code7 := by unfold Statement; decide
theorem code8 : Statement .code8 := by unfold Statement; decide
theorem code9 : Statement .code9 := by unfold Statement; decide
theorem codeA : Statement .codeA := by unfold Statement; decide
theorem codeB : Statement .codeB := by unfold Statement; decide
theorem codeC : Statement .codeC := by unfold Statement; decide
theorem codeD : Statement .codeD := by unfold Statement; decide
theorem codeE : Statement .codeE := by unfold Statement; decide
theorem codeF : Statement .codeF := by unfold Statement; decide
theorem initEnc : Statement .initEnc := by unfold Statement; decide
theorem initDec : Statement .initDec := by unfold Statement; decide
theorem encStream : Statement .encStream := by unfold Statement; decide
theorem decStream : Statement .decStream := by unfold Statement; decide
theorem ctxCreate : Statement .ctxCreate := by unfold Statement; decide
theorem encBlock : Statement .encBlock := by unfold Statement; decide
theorem decBlock : Statement .decBlock := by unfold Statement; decide
theorem ctxFree : Statement .ctxFree := by unfold Statement; decide
theorem step : Statement .step := by unfold Statement; decide
theorem choose : Statement .choose := by unfold Statement; decide
theorem reserved0 : Statement .reserved0 := by unfold Statement; decide
theorem reservedB : Statement .reservedB := by unfold Statement; decide
theorem reservedC : Statement .reservedC := by unfold Statement; decide
theorem reservedD : Statement .reservedD := by unfold Statement; decide
theorem reservedE : Statement .reservedE := by unfold Statement; decide
theorem reservedF : Statement .reservedF := by unfold Statement; decide

end Sys2Proof.Laws.RoundTrip
end

