-- ==== Sys2Proof/Laws/Registers.lean ====
section
/-! SUPPORT. The register window: a write to a RW register changes what no other register reads. -/

namespace Sys2Proof.Machine

variable (s : State) (v : Word)

/-- `ERR_ACC_LO` keeps its value under a write of the high word. -/
theorem errAcc_lo_of_hi (a : BitVec 64) : (v ++ a.extractLsb' 0 32).extractLsb' 0 32 = a.extractLsb' 0 32 := by
  apply BitVec.eq_of_getLsbD_eq
  intro i hi
  rw [BitVec.getLsbD_extractLsb', BitVec.getLsbD_append]
  simp [hi]

/-- `ERR_ACC_HI` keeps its value under a write of the low word. -/
theorem errAcc_hi_of_lo (a : BitVec 64) : (a.extractLsb' 32 32 ++ v).extractLsb' 32 32 = a.extractLsb' 32 32 := by
  apply BitVec.eq_of_getLsbD_eq
  intro i hi
  rw [BitVec.getLsbD_extractLsb', BitVec.getLsbD_append]
  simp [hi]

/-- What a register reads does not depend on a write to another one. -/
theorem readReg_writeReg_of_ne (r q : Reg) (h : q ≠ r) : readReg (writeReg s v r) q = readReg s q := by
  cases r <;> cases q <;> simp_all only [readReg, writeReg, State.status, errAcc_lo_of_hi, errAcc_hi_of_lo,
    ne_eq, not_true_eq_false]

/-- A write reaches the argument registers and `ERR_ACC` only. -/
theorem writeReg_frame (r : Reg) :
    writeReg s v r = { s with args := (writeReg s v r).args, errAcc := (writeReg s v r).errAcc } := by
  cases r <;> rfl

end Sys2Proof.Machine
end

