-- ==== Sys2Proof/Laws/Selector.lean ====
section
/-! SUPPORT. Step 5 of `Search` as a running minimum: what one candidate does, and what a fold of
candidates in ascending order keeps (42_lookahead_code_selector.md R103 to R105). -/

namespace Sys2Proof.Machine

/-- A window with a sample in it starts with that sample. -/
@[simp] theorem headSample_cons (t : Int) (w : List Int) : headSample (t :: w) = t := rfl

/-- Keep the best choice, or take `c` at cost `f c` when that is strictly smaller. -/
def takeIfLess (f g : Code → Nat) (best : Choice) (c : Code) : Choice :=
  if f c < best.total then ⟨c, g c, f c⟩ else best

/-- The prune changes no candidate's outcome: a code whose immediate error alone is above the best
total could not have been taken. -/
theorem tryCode_eq_takeIfLess (m : Config.ErrMetric) (s : Adaptive) (t : Int) (sub : Adaptive → Nat)
    (best : Choice) (c : Code) : tryCode m s t sub best c =
      takeIfLess (costOf m sub s t) (fun c => err m (transition s c).2 t) best c := by
  unfold tryCode takeIfLess
  have e : costOf m sub s t c = err m (transition s c).2 t + sub (transition s c).1 := rfl
  by_cases h : err m (transition s c).2 t > best.total
  · have h2 : ¬ costOf m sub s t c < best.total := by omega
    simp only [h, h2, if_true, if_false]
  · simp only [h, if_false]
    rfl

/-- The result `r` of a running minimum over ascending codes that starts from `b`: it costs no more
than any code tried; it is `b` unless something was strictly cheaper; and it is the smallest code
tried among those of its cost, unless it is `b`. -/
theorem foldl_takeIfLess (f g : Code → Nat) (l : List Code)
    (hl : l.Pairwise fun a b => a.toNat < b.toNat) (b : Code) :
    ∃ r, l.foldl (takeIfLess f g) ⟨b, g b, f b⟩ = ⟨r, g r, f r⟩ ∧ f r ≤ f b ∧ (∀ c ∈ l, f r ≤ f c) ∧
      (r = b ∨ (r ∈ l ∧ f r < f b)) ∧ (r ≠ b → ∀ c ∈ l, f c = f r → r.toNat ≤ c.toNat) := by
  induction l generalizing b with
  | nil => exact ⟨b, rfl, le_refl _, by simp, .inl rfl, by simp⟩
  | cons a l ih =>
    rw [List.pairwise_cons] at hl
    simp only [List.foldl_cons, takeIfLess]
    by_cases h : f a < f b
    · rw [if_pos h]
      obtain ⟨r, h1, h2, h3, h4, h5⟩ := ih hl.2 a
      refine ⟨r, h1, by omega, ?_, .inr ?_, fun _ c hc e => ?_⟩
      · intro c hc
        rcases List.mem_cons.1 hc with rfl | hc
        · exact h2
        · exact h3 c hc
      · rcases h4 with rfl | h4
        · exact ⟨by simp, h⟩
        · exact ⟨by simp [h4.1], by omega⟩
      · rcases List.mem_cons.1 hc with rfl | hc
        · rcases h4 with h4 | h4
          · rw [h4]
          · omega
        · by_cases hra : r = a
          · rw [hra]
            exact Nat.le_of_lt (hl.1 c hc)
          · exact h5 hra c hc e
    · rw [if_neg h]
      obtain ⟨r, h1, h2, h3, h4, h5⟩ := ih hl.2 b
      refine ⟨r, h1, h2, ?_, ?_, fun hr c hc e => ?_⟩
      · intro c hc
        rcases List.mem_cons.1 hc with rfl | hc
        · omega
        · exact h3 c hc
      · rcases h4 with h4 | h4
        · exact .inl h4
        · exact .inr ⟨by simp [h4.1], h4.2⟩
      · rcases List.mem_cons.1 hc with rfl | hc
        · rcases h4 with h4 | h4
          · exact absurd h4 hr
          · omega
        · exact h5 hr c hc e

/-- Every code is one of the sixteen. -/
theorem mem_allCodes (c : Code) : c ∈ allCodes := by
  revert c
  decide

/-- The fifteen other codes, still in ascending order. -/
theorem otherCodes_ascending (g : Code) :
    (allCodes.filter (· != g)).Pairwise fun a b => a.toNat < b.toNat :=
  List.Pairwise.filter _ (by decide)

end Sys2Proof.Machine
end

