-- ==== Sys2Proof/Tests/Slice0.lean ====
section
/-! SUPPORT. Tests. First the instructions: words written out bit by bit from the encodings of the spec,
and one step of each instruction against the vectors of 95_test_vectors.md (each test names its
vector). Then, for each statement with hypotheses, a witness that meets them all together. -/

namespace Sys2Proof.Tests

open Sys2Proof.Machine

/-- A channel register holding `(p, x)`. -/
def chan (p : Int) (x : Nat) : Chan := ⟨BitVec.ofInt 16 p, BitVec.ofNat 8 x⟩

/-- The argument registers after reset. -/
def noArgs : Args := ⟨0, 0, 0, 0, 0, 0, 0, 0, 0⟩

/-- Argument registers of a command that uses buffers. -/
def bufArgs (src dst count : Word) : Args :=
  { noArgs with srcAddr := src, dstAddr := dst, count := count }

/-- The reset state with these channels, these arguments, and bytes stored at an address. -/
def machine (chs : List Chan) (args : Args) (a : Nat) (bs : List Byte) : State :=
  { State.reset with ch := chs, args := args, mem := writeBytes [] a bs }

/-- One channel `(p, x)` beside another, `CHSEL` = 1. -/
def one (p : Int) (x : Nat) : State := machine [chan 5 5, chan p x] { noArgs with chsel := 1 } 0 []

/-- What a test looks at of the state an outcome answers. -/
def answer {α : Type} (o : Outcome) (f : State → α) : Option α :=
  match o with
  | .next t => some (f t)
  | .fault _ => none
  | .refused _ => none

/-- Why an outcome stops, if it does. -/
def stop (o : Outcome) : Option (Fault ⊕ Refusal) :=
  match o with
  | .next _ => none
  | .fault f => some (.inl f)
  | .refused r => some (.inr r)

/-- The selected channel as `(p, x)`. -/
def sel (s : State) : Option (Int × Nat) := s.selected.map fun c => (c.state.p, c.state.x)

/-- All channels as `(p, x)`. -/
def allCh (s : State) : List (Int × Nat) := s.ch.map fun c => (c.state.p, c.state.x)

/-! ## Words written out from the spec's encodings -/

/-- 30_encoding.md R55, the `bits` column. -/
theorem test_decode_codes :
    decodeTableWord 8 0b0000 = some .code0 ∧ decodeTableWord 8 0b0001 = some .code1 ∧
    decodeTableWord 8 0b0010 = some .code2 ∧ decodeTableWord 8 0b0011 = some .code3 ∧
    decodeTableWord 8 0b0100 = some .code4 ∧ decodeTableWord 8 0b0101 = some .code5 ∧
    decodeTableWord 8 0b0110 = some .code6 ∧ decodeTableWord 8 0b0111 = some .code7 ∧
    decodeTableWord 8 0b1000 = some .code8 ∧ decodeTableWord 8 0b1001 = some .code9 ∧
    decodeTableWord 8 0b1010 = some .codeA ∧ decodeTableWord 8 0b1011 = some .codeB ∧
    decodeTableWord 8 0b1100 = some .codeC ∧ decodeTableWord 8 0b1101 = some .codeD ∧
    decodeTableWord 8 0b1110 = some .codeE ∧ decodeTableWord 8 0b1111 = some .codeF := by decide

/-- 30_encoding.md R62, the `OPCODE` column. -/
theorem test_decode_commands :
    decodeTableWord 32 0x1 = some .initEnc ∧ decodeTableWord 32 0x2 = some .initDec ∧
    decodeTableWord 32 0x3 = some .encStream ∧ decodeTableWord 32 0x4 = some .decStream ∧
    decodeTableWord 32 0x5 = some .ctxCreate ∧ decodeTableWord 32 0x6 = some .encBlock ∧
    decodeTableWord 32 0x7 = some .decBlock ∧ decodeTableWord 32 0x8 = some .ctxFree ∧
    decodeTableWord 32 0x9 = some .step ∧ decodeTableWord 32 0xA = some .choose := by decide

/-- 30_encoding.md R63. -/
theorem test_decode_reserved :
    decodeTableWord 32 0x0 = some .reserved0 ∧ decodeTableWord 32 0xB = some .reservedB ∧
    decodeTableWord 32 0xC = some .reservedC ∧ decodeTableWord 32 0xD = some .reservedD ∧
    decodeTableWord 32 0xE = some .reservedE ∧ decodeTableWord 32 0xF = some .reservedF := by decide

/-- 30_encoding.md R61: bits 31:4 of a command word are ignored (V-ERR-17: 0x19 is STEP). -/
theorem test_decode_ignores_high_bits :
    decodeCommand 0x00000019 = .step ∧ decodeCommand 0xFFFFFFF1 = .initEnc ∧
    decodeCommand 0x80000000 = .reserved0 := by decide

/-- What is no instruction is refused by name (30_encoding.md R53 has no other format), and so is the
one thing that can be ill formed here, a host access that is not an aligned 32-bit one (10_state.md
R31). `Instr.wellFormed` itself has no check that could fail: no constructor has a field. -/
theorem test_refused_forms :
    encodedOfBytes [] = .error (.noFormatOfLength 0) ∧ decodeTableWord 16 0 = none ∧
    accessLegal 0x02 .word = false ∧ accessLegal 0x04 .half = false ∧ accessLegal 0x04 .byte = false ∧
    accessLegal 0x7FC .word = true ∧ Instr.choose.wellFormed = true := by decide

/-- 30_encoding.md R57, R68: codes `[0x2, 0x9, 0xE]` are the bytes `92 0E`. -/
theorem test_pack_golden :
    packCodes [0x2, 0x9, 0xE] = [0x92, 0x0E] ∧ unpackCodes [0x92, 0x0E] = [0x2, 0x9, 0xE, 0x0] := by
  decide

/-! ## The tables -/

/-- 40_step_table.md R74: three rows, and the checks over the whole table of 95_test_vectors.md 2.1. -/
theorem test_step_table :
    stepSize 20 = 50 ∧ stepSize 44 = 494 ∧ stepSize 87 = 29794 ∧ stepTable.sum = 360393 ∧
    ((List.range 89).flatMap fun x =>
      (List.range 8).map fun c => delta (stepSize x) (BitVec.ofNat 4 c)).sum = 2882600 := by
  decide +kernel

/-- V-TRN-X: the sum of `abs(sample)` over every index and code from `(0, x)`. -/
theorem test_transition_sum :
    ((List.range 89).flatMap fun x =>
      allCodes.map fun c => (transition ⟨0, x⟩ c).2.natAbs).sum = 5386991 := by decide +kernel

/-! ## The codes, one step each -/

/-- V-TRN-6. -/
theorem test_code0 : answer (exec .code0 (one 100 20)) sel = some (some (106, 19)) := by decide

/-- V-TRN-21: the sample clips. -/
theorem test_code1 : answer (exec .code1 (one 32767 10)) sel = some (some (32767, 9)) := by
  decide

/-- V-TRN-3: the index stays at its floor; the other channel is untouched. -/
theorem test_code2 : answer (exec .code2 (one 0 0)) allCh = some [(5, 5), (3, 0)] := by decide

/-- V-TRN-17. -/
theorem test_code3 : answer (exec .code3 (one 5 1)) sel = some (some (12, 0)) := by decide

/-- V-TRN-16: the index clips. -/
theorem test_code4 : answer (exec .code4 (one 5 87)) sel = some (some (32767, 88)) := by decide

/-- V-TRN-31. -/
theorem test_code5 : answer (exec .code5 (one (-20000) 60)) sel = some (some (-16876, 64)) := by
  decide

/-- V-TRN-29. -/
theorem test_code6 : answer (exec .code6 (one (-1) 0)) sel = some (some (9, 6)) := by decide

/-- V-TRN-19: `80 + 8` is the largest index exactly. -/
theorem test_code7 : answer (exec .code7 (one 5 80)) sel = some (some (28671, 88)) := by
  decide

/-- V-TRN-20. -/
theorem test_code8 : answer (exec .code8 (one (-32768) 0)) sel = some (some (-32768, 0)) := by
  decide

/-- V-TRN-4. -/
theorem test_code9 : answer (exec .code9 (one 3 0)) sel = some (some (2, 0)) := by decide

/-- V-GRD-9. -/
theorem test_codeA : answer (exec .codeA (one 100 10)) sel = some (some (89, 9)) := by decide

/-- V-TRN-10. -/
theorem test_codeB : answer (exec .codeB (one 100 20)) sel = some (some (57, 19)) := by decide

/-- 41_dequantizer_predictor.md R92, worked example. -/
theorem test_codeC : answer (exec .codeC (one 100 20)) sel = some (some (44, 22)) := by decide

/-- V-TRN-30. -/
theorem test_codeD : answer (exec .codeD (one 12345 44)) sel = some (some (11667, 48)) := by
  decide

/-- V-TRN-5. -/
theorem test_codeE : answer (exec .codeE (one 2 0)) sel = some (some (-8, 6)) := by decide

/-- V-TRN-12: both clips, the smallest intermediate. -/
theorem test_codeF : answer (exec .codeF (one (-32768) 88)) sel = some (some (-32768, 88)) := by
  decide

/-! ## The commands, one step each -/

/-- V-TRN-S, the negative result: `RES_SAMPLE` is sign-extended. -/
theorem test_step : answer
    (exec .step (machine [chan 2 0] { noArgs with code := 0xE } 0 []))
    (fun t => (t.res.sample, readOffset t 0x80, t.outCount, t.result)) =
    some (0xFFFFFFF8, 0x0006FFF8, 0, .success) := by decide

/-- V-ERR-8: no such channel, `RES_SAMPLE` unchanged. -/
theorem test_step_no_channel : answer
    (exec .step { machine [chan 2 0, chan 0 0] { noArgs with chsel := 2 } 0 [] with res := ⟨0, 0, 7⟩ })
    (fun t => (t.res.sample, allCh t, t.outCount, t.result)) =
    some (7, [(2, 0), (0, 0)], 0, .invalidParam) := by decide

/-- 43_stream_codec.md R113, worked example; `ERR_ACC` is cleared. -/
theorem test_initEnc : answer
    (exec .initEnc { machine [chan 9 9] { noArgs with sample := 0xFFFF } 0 [] with errAcc := 5 })
    (fun t => (allCh t, readOffset t 0x80, t.errAcc, t.result)) =
    some ([(-1, 0)], 0x0000FFFF, 0, .success) := by decide

/-- V-ERR-7: `ERR_ACC` is not cleared. -/
theorem test_initEnc_bad_index : answer
    (exec .initEnc { machine [chan 9 9] { noArgs with index := 255 } 0 [] with errAcc := 5 })
    (fun t => (allCh t, t.errAcc, t.result)) = some ([(9, 9)], 5, .invalidParam) := by decide

/-- V-ERR-6: index 88 is legal; `ERR_ACC` is kept. -/
theorem test_initDec : answer
    (exec .initDec
      { machine [chan 9 9] { noArgs with sample := 0x8000, index := 88 } 0 [] with errAcc := 5 })
    (fun t => (allCh t, t.errAcc, t.result)) = some ([(-32768, 88)], 5, .success) := by
  decide

/-- V-ERR-5: index 89 is not. -/
theorem test_initDec_bad_index : answer
    (exec .initDec (machine [chan 9 9] { noArgs with index := 89 } 0 []))
    (fun t => (allCh t, t.result)) = some ([(9, 9)], .invalidParam) := by decide

/-- The state before ENC_STREAM of V-STR-1 and V-STR-2: the samples `[10, 55, 95, 60, -20]`. -/
def encState (la : Byte) : State :=
  machine [chan (-1) 0] { bufArgs 0x1000 0x2000 5 with lookahead := la } 0x1000
    [0x0A, 0x00, 0x37, 0x00, 0x5F, 0x00, 0x3C, 0x00, 0xEC, 0xFF]

/-- V-STR-1: no lookahead. -/
theorem test_encStream_greedy : answer (exec .encStream (encState 0))
    (fun t => (readBytes t.mem 0x2000 4, allCh t, t.errAcc, t.outCount)) =
    some ([0x76, 0x97, 0x0D, 0x00], [(-12, 25)], 719, 3) := by decide

/-- V-STR-2: lookahead 1. -/
theorem test_encStream_lookahead : answer (exec .encStream (encState 1))
    (fun t => (readBytes t.mem 0x2000 4, allCh t, t.errAcc, t.outCount)) =
    some ([0x77, 0xA6, 0x0D, 0x00], [(-16, 25)], 245, 3) := by decide +kernel

/-- The state before DEC_STREAM of P1, with the unused half byte set: the codes `[2, 9, E]`. -/
def decState : State := machine [chan 0 0] (bufArgs 0x2000 0x3000 3) 0x2000 [0x92, 0xFE]

/-- V-SRC-1 and P1: samples `[3, 2, -8]`, bits 7:4 of the last byte ignored. -/
theorem test_decStream : answer (exec .decStream decState)
    (fun t => (readBytes t.mem 0x3000 7, allCh t, t.outCount, t.result)) =
    some ([0x03, 0x00, 0x02, 0x00, 0xF8, 0xFF, 0x00], [(-8, 6)], 3, .success) := by decide

/-- V-ERR-4: the count is -2^31. -/
theorem test_decStream_negative_count : answer
    (exec .decStream (machine [chan 0 0] (bufArgs 0x2000 0x3000 0x80000000) 0x2000 [0x92, 0x0E]))
    (fun t => (t.mem == writeBytes [] 0x2000 [0x92, 0x0E], allCh t, t.outCount, t.result)) =
    some (true, [(0, 0)], 0, .invalidParam) := by decide

/-- The state before CTX_CREATE with two index bytes at 0x0F00. -/
def ctxState (x₀ x₁ : Byte) : State :=
  { machine [chan 7 7, chan 8 8] { bufArgs 0x0F00 0 0 with nch := 2, lookahead := 1 } 0x0F00 [x₀, x₁]
    with errAcc := 9 }

/-- 44_block_framer.md R124, worked example. -/
theorem test_ctxCreate : answer (exec .ctxCreate (ctxState 0x00 0x1E))
    (fun t => (allCh t, readOffset t 0x04, t.errAcc)) = some ([(0, 0), (0, 30)], 0x00010202, 0) := by
  decide

/-- V-ERR-11: the second index is 89, and nothing is written. -/
theorem test_ctxCreate_bad_index : answer (exec .ctxCreate (ctxState 0x00 0x59))
    (fun t => (allCh t, readOffset t 0x04, t.errAcc)) = some ([(7, 7), (8, 8)], 1, 9) := by
  decide

/-- The state before ENC_BLOCK of V-BLK-3: two channels, nine frames, lookahead 1. -/
def encBlockState : State :=
  { machine [chan 123 0, chan 0 30] (bufArgs 0x1000 0x2000 9) 0x1000
      [0xFF, 0xFF, 0xD4, 0xFE, 0x0A, 0x00, 0x06, 0xFF, 0x37, 0x00, 0x9C, 0xFF, 0x5F, 0x00, 0x32, 0x00,
        0x3C, 0x00, 0xC8, 0x00, 0xEC, 0xFF, 0x04, 0x01, 0x1E, 0x00, 0xB4, 0x00, 0x05, 0x00, 0x5A, 0x00,
        0x00, 0x00, 0xF6, 0xFF]
    with ctx := ⟨true, 2, 1⟩ }

/-- V-BLK-3: the block's bytes, the channels after it, the count. -/
theorem test_encBlock : answer (exec .encBlock encBlockState)
    (fun t => (readBytes t.mem 0x2000 16, allCh t, t.errAcc, t.outCount)) =
    some ([0xFF, 0xFF, 0x00, 0x00, 0xD4, 0xFE, 0x1E, 0x00, 0x77, 0xA6, 0x2D, 0x89, 0x51, 0x33, 0xA1,
      0xBA], [(-1, 22), (1, 27)], 952, 16) := by decide +kernel

/-- V-ERR-14: a count of 8 is not 1 mod 8. -/
theorem test_encBlock_bad_count : answer
    (exec .encBlock { encBlockState with args := bufArgs 0x1000 0x2000 8 })
    (fun t => (allCh t, t.outCount, t.result, t.ctx.valid)) =
    some ([(123, 0), (0, 30)], 0, .invalidParam, true) := by decide

/-- The block of V-BLK-2, at 0x2000, with its reserved byte as given. -/
def decBlockState (reserved : Byte) : State :=
  machine [chan 4 4] { bufArgs 0x2000 0x3000 8 with nch := 1 } 0x2000
    [0xFF, 0xFF, 0x00, reserved, 0x77, 0xA6, 0x2D, 0x89]

/-- V-BLK-2 decoded: `[-1, 10, 40, 95, 58, -16, 34, 7, -1]`; the channel is untouched. -/
theorem test_decBlock : answer (exec .decBlock (decBlockState 0x00))
    (fun t => (readSamples t.mem 0x3000 1 0 9, allCh t, t.outCount, t.result)) =
    some ([-1, 10, 40, 95, 58, -16, 34, 7, -1], [(4, 4)], 9, .success) := by decide

/-- V-BLK-6: a nonzero reserved byte rejects the block softly. -/
theorem test_decBlock_corrupt : answer (exec .decBlock (decBlockState 0x01))
    (fun t => (t.mem == (decBlockState 0x01).mem, t.outCount, t.result)) =
    some (true, 0, .success) := by decide

/-- P3, its last command: no context, channels kept. -/
theorem test_ctxFree : answer (exec .ctxFree encBlockState)
    (fun t => (readOffset t 0x04, allCh t)) = some (0, [(123, 0), (0, 30)]) := by decide

/-- The state before CHOOSE of V-SEL-1 and V-SEL-2: window `[10, 55]`. -/
def chooseState (la : Byte) : State :=
  machine [chan (-1) 0] { bufArgs 0x1000 0 2 with lookahead := la } 0x1000 [0x0A, 0x00, 0x37, 0x00]

/-- V-SEL-1: lookahead 1 picks 0x7. -/
theorem test_choose : answer (exec .choose (chooseState 1))
    (fun t => (t.res.code, t.res.err, allCh t, t.outCount)) = some (0x7, 0, [(-1, 0)], 0) := by
  decide

/-- V-SEL-2: lookahead 0 is the greedy code 0x6. -/
theorem test_choose_greedy : answer (exec .choose (chooseState 0))
    (fun t => (t.res.code, t.res.err)) = some (0x6, 1) := by decide

/-- V-SEL-5 at depth 2 and V-SEL-11: the sign opposite to the greedy code, and a tie. -/
theorem test_search :
    search .squared 2 ⟨-19, 8⟩ [-32, -72, 59] = ⟨0x7, 1849, 2298⟩ ∧
    search .squared 1 ⟨-3, 0⟩ [0, 8] = ⟨0x2, 0, 1⟩ ∧
    search .absolute 1 ⟨27, 3⟩ [6, 120] = ⟨0xF, 3, 76⟩ := by decide +kernel

/-- V-ERR-16, and V-ERR-19: the context fields of `STATUS` stay. -/
theorem test_reserved :
    answer (exec .reserved0 encBlockState) (fun t => readOffset t 0x04) = some 0x00010203 ∧
    answer (exec .reservedB State.reset) (fun t => t.result) = some .invalidParam ∧
    answer (exec .reservedC State.reset) (fun t => t.result) = some .invalidParam ∧
    answer (exec .reservedD State.reset) (fun t => t.result) = some .invalidParam ∧
    answer (exec .reservedE State.reset) (fun t => t.result) = some .invalidParam ∧
    answer (exec .reservedF State.reset) (fun t => t.result) = some .invalidParam := by decide

/-! ## The step and the host port -/

/-- An instruction presented to the reset state runs as the next step. -/
theorem test_withFetchWord :
    answer (step (State.reset.withFetchWord 8 0b0111)) sel = some (some (11, 8)) ∧
    answer (step (State.reset.withFetchWord 32 0xB)) (fun t => t.result) = some .invalidParam ∧
    answer (step State.reset) (fun t => t == State.reset) = some true := by decide

/-- V-TRN-S: `WR ARG_CODE, 0x1B` stores 0xB; a read-only register ignores a write. -/
theorem test_register_write :
    answer (act State.reset (.regWrite 0x28 .word 0x1B)) (fun t => readOffset t 0x28) = some 0xB ∧
    answer (act State.reset (.regWrite 0x2C .word 5)) (fun t => t == State.reset) = some true ∧
    stop (act State.reset (.regWrite 0x28 .byte 5)) = some (.inr .registerAccess) := by decide

/-- 10_state.md R36: the value a host read returns; and a host store, where memory ends. -/
theorem test_host_port :
    answer (act encBlockState (.regRead 0x84 .word)) (fun t => t.busRead) = some 0x001E0000 ∧
    answer (act encBlockState (.memRead 0x1004)) (fun t => t.busRead) = some 0x0A ∧
    stop (act State.reset (.memWrite 0xFFFFF800 1)) = some (.inr .deviceAccess) ∧
    stop (act { State.reset with platform := ⟨0xFFFFF800, [⟨0, 0x100⟩], []⟩ } (.memWrite 0x100 1)) =
      some (.inl .unadmittedByte) := by decide

/-! ## Witnesses: a state and operands that meet the hypotheses of each statement together -/

/-- DecodeEncodeAgree, DeltaIsSumOfTruncatedParts: an instruction of each format, and steps at the
least value the rule admits and at the table's ends. -/
theorem test_witness_encoding_and_delta :
    Instr.codeF.wellFormed = true ∧ Instr.reservedF.wellFormed = true ∧ 1 ≤ 1 ∧ 1 ≤ stepSize 0 ∧
    1 ≤ stepSize 88 := by decide

/-- The transition and greedy statements (`Claims.Moves`, TransitionKeepsDomain,
TransitionIntermediatesBounded, GreedyCodeRule, ErrorMetricBounds): states and samples at both ends. -/
theorem test_witness_domain :
    Adaptive.InDomain ⟨-32768, 0⟩ ∧ Adaptive.InDomain ⟨32767, 88⟩ ∧ IsSample (-32768) ∧
    IsSample 32767 := by decide

/-- StepTableShape: its two bounds at their ends. -/
theorem test_witness_StepTableShape : 0 < 88 ∧ 87 < 88 ∧ 88 ≤ 88 := by decide

/-- CodesCompleteWithTheirTransition: the last channel of two is selected. -/
theorem test_witness_CodesComplete : (one 3 0).ch[(one 3 0).args.chsel.toNat]? = some (chan 3 0) := by
  decide

/-- CodeWithoutChannelIsRefused: `CHSEL` is the number of channels; the code is refused there. -/
theorem test_witness_CodeWithoutChannel :
    Instr.code7.isCommand = false ∧
    (machine [chan 0 0, chan 0 0] { noArgs with chsel := 2 } 0 []).nchMax ≤ 2 ∧
    stop (exec .code7 (machine [chan 0 0, chan 0 0] { noArgs with chsel := 2 } 0 [])) =
      some (.inr .codeWithoutChannel) := by decide

/-- StepResult: no channel at `CHSEL` = 1 of one; a channel at `CHSEL` = 1 of two. -/
theorem test_witness_StepResult :
    (machine [chan 0 0] { noArgs with chsel := 1 } 0 []).nchMax ≤ 1 ∧
    (one (-32768) 88).ch[(one (-32768) 88).args.chsel.toNat]? = some (chan (-32768) 88) := by decide

/-- StepIsOneCode: the code of `ARG_CODE` runs and the selected channel is there after it. -/
theorem test_witness_StepIsOneCode : answer
    (exec (decodeCode 0xE) (machine [chan 2 0] { noArgs with code := 0xE } 0 []))
    (fun u => u.ch[(0 : Nat)]?) = some (some (chan (-8) 6)) := by decide

/-- `one 0 0` with a seed index. -/
def seeded (x : Byte) : State := machine [chan 5 5, chan 0 0] { noArgs with chsel := 1, index := x } 0 []

/-- InitEncResult, InitDecResult: no channel, index 89, and the last channel with index 88. -/
theorem test_witness_InitResults :
    (machine [chan 0 0] { noArgs with chsel := 1 } 0 []).nchMax ≤ 1 ∧
    88 < (seeded 89).args.index.toNat ∧ (seeded 88).args.chsel.toNat < (seeded 88).nchMax ∧
    (seeded 88).args.index.toNat ≤ 88 := by decide

/-- GreedyErrorBelowStep: quotient 6 of V-GRD-6, and quotient exactly 7 of V-GRD-20. -/
theorem test_witness_GreedyErrorBelowStep :
    4 * ((12 : Int) - 0).natAbs / stepSize 0 ≤ 7 ∧ IsSample (0 + delta (stepSize 0) (greedy ⟨0, 0⟩ 12)) ∧
    4 * ((-100 : Int) - 500).natAbs / stepSize 40 = 7 ∧
    IsSample (500 + delta (stepSize 40) (greedy ⟨500, 40⟩ (-100))) := by decide

/-- SearchTieRule: V-SEL-16, where the greedy code is of least total; V-SEL-11, where it is not and 0x2
and 0x3 are. SearchTotalIsMinTotal's last clause: depth 1 is `0 + 1`. -/
theorem test_witness_SearchTieRule :
    (∀ c, costOf .squared (fun s' => minTotal .squared 0 s' [0]) ⟨0, 0⟩ 0 (greedy ⟨0, 0⟩ 0) ≤
      costOf .squared (fun s' => minTotal .squared 0 s' [0]) ⟨0, 0⟩ 0 c) ∧
    (¬ ∀ c, costOf .squared (fun s' => minTotal .squared 0 s' [8]) ⟨-3, 0⟩ 0 (greedy ⟨-3, 0⟩ 0) ≤
      costOf .squared (fun s' => minTotal .squared 0 s' [8]) ⟨-3, 0⟩ 0 c) ∧
    costOf .squared (fun s' => minTotal .squared 0 s' [8]) ⟨-3, 0⟩ 0 0x2 =
      minTotal .squared 1 ⟨-3, 0⟩ [0, 8] ∧
    costOf .squared (fun s' => minTotal .squared 0 s' [8]) ⟨-3, 0⟩ 0 0x3 =
      minTotal .squared 1 ⟨-3, 0⟩ [0, 8] := by decide

/-- RunsAreTheirStepsInOrder: the first and the last position of V-STR-2's run, whose depths are 1 and
0, and the last code of P1. -/
theorem test_witness_Runs :
    0 < ([10, 55, 95, 60, -20] : List Int).length ∧ min 1 (5 - 1 - 0) = 1 ∧
    4 < ([10, 55, 95, 60, -20] : List Int).length ∧ min 1 (5 - 1 - 4) = 0 ∧
    ([0x2, 0x9, 0xE] : List Code)[2]? = some 0xE := by decide

/-- ChooseResult: each cause, and a count of 2 with lookahead 1. -/
theorem test_witness_ChooseResult :
    (machine [chan 0 0] { noArgs with chsel := 1 } 0 []).nchMax ≤ 1 ∧
    State.reset.args.srcAddr = 0 ∧ State.reset.args.count.toInt ≤ 0 ∧
    (chooseState 1).args.srcAddr ≠ 0 ∧ (chooseState 1).args.count.toInt = 2 ∧
    (chooseState 1).ch[(chooseState 1).args.chsel.toNat]? = some (chan (-1) 0) ∧
    1 = min (chooseState 1).args.lookahead.toNat (2 - 1) ∧
    (chooseState 1).fits ⟨(chooseState 1).args.srcAddr.toNat, 2 * (1 + 1)⟩ noBuffer = true := by
  decide

/-- EncStreamResult, with extents that end at the last byte of memory: five samples at 0x1000, three
bytes below the window. -/
theorem test_witness_EncStreamResult :
    (encState 1).ch[(encState 1).args.chsel.toNat]? = some (chan (-1) 0) ∧
    (encState 1).args.srcAddr ≠ 0 ∧ (encState 1).args.dstAddr ≠ 0 ∧
    (encState 1).args.count.toInt = 5 ∧ Memory.wf (encState 1).mem = true ∧
    (encState 1).fits ⟨(encState 1).args.srcAddr.toNat, 2 * 5⟩
      ⟨(encState 1).args.dstAddr.toNat, (5 + 1) / 2⟩ = true ∧
    (encState 1).fits ⟨0x1000, 10⟩ ⟨0xFFFFF7FD, 3⟩ = true := by decide

/-- DecStreamResult: an odd count. -/
theorem test_witness_DecStreamResult :
    decState.ch[decState.args.chsel.toNat]? = some (chan 0 0) ∧ decState.args.srcAddr ≠ 0 ∧
    decState.args.dstAddr ≠ 0 ∧ decState.args.count.toInt = 3 ∧ Memory.wf decState.mem = true ∧
    decState.fits ⟨decState.args.srcAddr.toNat, (3 + 1) / 2⟩ ⟨decState.args.dstAddr.toNat, 2 * 3⟩ =
      true := by decide

/-- What ENC_STREAM leaves of `encState 1` (V-STR-2), with the decoder's arguments set: channel 0
seeded again, output at 0x3000. -/
def afterEnc : State :=
  machine [chan (-1) 0] (bufArgs 0x2000 0x3000 5) 0x2000 [0x77, 0xA6, 0x0D]

/-- The samples of `encState`, then the bytes ENC_STREAM makes of them. -/
def encodedMem : Memory := writeBytes (encState 1).mem 0x2000 [0x77, 0xA6, 0x0D]

/-- StreamRoundTrip: the encoder completes with SUCCESS, and a decoder over its memory has fitting
extents. EncStreamDependsOnInputsAlone: two such encoders with different output buffers. -/
theorem test_witness_StreamRoundTrip :
    answer (exec .encStream (encState 1)) (fun t => (t.result, t.mem == encodedMem)) =
      some (.success, true) ∧
    answer (exec .encStream { encState 1 with args := { (encState 1).args with dstAddr := 0x2801 } })
      (fun t => t.result) = some .success ∧
    afterEnc.ch[afterEnc.args.chsel.toNat]? = (encState 1).ch[(encState 1).args.chsel.toNat]? ∧
    afterEnc.args.srcAddr = (encState 1).args.dstAddr ∧ afterEnc.args.dstAddr ≠ 0 ∧
    afterEnc.args.count = (encState 1).args.count ∧ Memory.wf encodedMem = true ∧
    State.fits { afterEnc with mem := encodedMem } ⟨afterEnc.args.srcAddr.toNat, (5 + 1) / 2⟩
      ⟨afterEnc.args.dstAddr.toNat, 2 * 5⟩ = true := by decide +kernel

/-- DecStreamRunsItsCodes, DecStreamInPieces (2 codes, then 1): DEC_STREAM completes with SUCCESS on a
canonical memory. -/
theorem test_witness_DecStream_completes :
    answer (exec .decStream decState) (fun t => t.result) = some .success ∧
    Memory.wf decState.mem = true ∧ decState.args.count.toInt = (2 * 1 + 1 : Nat) := by
  decide

/-- CtxCreateResult: no channels, one too many, no array; two channels with a bad index and with good
ones, the largest among them. -/
theorem test_witness_CtxCreateResult :
    State.reset.args.nch.toNat = 0 ∧
    (machine [chan 0 0, chan 0 0] { noArgs with nch := 3 } 0 []).nchMax < 3 ∧
    (ctxState 0 88).args.nch.toNat = 2 ∧
    2 ≤ (ctxState 0 88).nchMax ∧ (ctxState 0 88).args.srcAddr ≠ 0 ∧
    (ctxState 0 88).fits ⟨(ctxState 0 88).args.srcAddr.toNat, 2⟩ noBuffer = true ∧
    (∀ c < 2, (readByte (ctxState 0 88).mem ((ctxState 0 88).args.srcAddr.toNat + c)).toNat ≤ 88) ∧
    (ctxState 0 89).fits ⟨(ctxState 0 89).args.srcAddr.toNat, 2⟩ noBuffer = true ∧
    (∃ c < 2, 88 < (readByte (ctxState 0 89).mem ((ctxState 0 89).args.srcAddr.toNat + c)).toNat) := by
  decide

/-- EncBlockResult: two channels, one chunk each; a block of no chunk fits as well. -/
theorem test_witness_EncBlockResult :
    encBlockState.ctx.valid = true ∧ encBlockState.args.srcAddr ≠ 0 ∧ encBlockState.args.dstAddr ≠ 0 ∧
    encBlockState.ctx.nch.toNat = 2 ∧ 2 ≤ encBlockState.nchMax ∧
    encBlockState.args.count.toInt = (1 + 8 * 1 : Nat) ∧ Memory.wf encBlockState.mem = true ∧
    encBlockState.fits ⟨encBlockState.args.srcAddr.toNat, 2 * (1 + 8 * 1) * 2⟩
      ⟨encBlockState.args.dstAddr.toNat, 2 * (4 + 4 * 1)⟩ = true ∧
    encBlockState.fits ⟨encBlockState.args.srcAddr.toNat, 2 * (1 + 8 * 0) * 2⟩
      ⟨encBlockState.args.dstAddr.toNat, 2 * (4 + 4 * 0)⟩ = true ∧
    (∀ c < 2, (encBlockState.ch[c]?).map Chan.index = some (if c = 0 then 0 else 30)) := by
  decide

/-- EncBlockResult's causes: no context, and counts 0, 8 and 10. -/
theorem test_witness_EncBlock_causes :
    State.reset.ctx.valid = false ∧ State.reset.args.count.toInt ≤ 0 ∧
    ((machine [] (bufArgs 1 2 8) 0 []).args.count.toInt - 1) % 8 ≠ 0 ∧
    ((machine [] (bufArgs 1 2 10) 0 []).args.count.toInt - 1) % 8 ≠ 0 := by decide

/-- V-BLK-18: two channels, seven bytes. -/
def shortBlock : State :=
  machine [chan 0 0, chan 0 0] { bufArgs 0x2000 0x3000 7 with nch := 2 } 0x2000 [0xFF, 0xFF]

/-- DecBlockRejects: a count one short of the headers (V-BLK-18), and the corrupt block of V-BLK-6. -/
theorem test_witness_DecBlockRejects :
    (decBlockState 1).args.nch.toNat = 1 ∧ 1 ≤ (decBlockState 1).nchMax ∧
    (decBlockState 1).args.srcAddr ≠ 0 ∧ (decBlockState 1).args.dstAddr ≠ 0 ∧
    shortBlock.args.nch.toNat = 2 ∧ 2 ≤ shortBlock.nchMax ∧ shortBlock.args.srcAddr ≠ 0 ∧
    shortBlock.args.dstAddr ≠ 0 ∧ 0 < shortBlock.args.count.toInt ∧
    shortBlock.args.count.toInt < 4 * (2 : Nat) ∧
    4 * (1 : Nat) ≤ (decBlockState 1).args.count.toInt ∧
    (decBlockState 1).fits ⟨(decBlockState 1).args.srcAddr.toNat, 4 * 1⟩ noBuffer = true ∧
    (∃ c < 1, 88 < (readByte (decBlockState 1).mem
        ((decBlockState 1).args.srcAddr.toNat + 4 * c + 2)).toNat ∨
      readByte (decBlockState 1).mem ((decBlockState 1).args.srcAddr.toNat + 4 * c + 3) ≠ 0x00) := by
  decide

/-- DecBlockResult: one channel, one chunk, with the codes `7 7 6 A D 2 9 8` of V-BLK-2. -/
theorem test_witness_DecBlockResult :
    (decBlockState 0).args.nch.toNat = 1 ∧ 1 ≤ (decBlockState 0).nchMax ∧
    4 * (1 : Nat) ≤ (decBlockState 0).args.count.toInt ∧
    1 = ((decBlockState 0).args.count.toInt.toNat - 4 * 1) / (4 * 1) ∧
    Memory.wf (decBlockState 0).mem = true ∧
    (decBlockState 0).fits ⟨(decBlockState 0).args.srcAddr.toNat, 4 * 1⟩ noBuffer = true ∧
    (decBlockState 0).fits ⟨(decBlockState 0).args.srcAddr.toNat, 4 * 1 * (1 + 1)⟩
      ⟨(decBlockState 0).args.dstAddr.toNat, 2 * (1 + 8 * 1) * 1⟩ = true ∧
    (∀ c < 1, (readByte (decBlockState 0).mem
        ((decBlockState 0).args.srcAddr.toNat + 4 * c + 2)).toNat ≤ 88 ∧
      readByte (decBlockState 0).mem ((decBlockState 0).args.srcAddr.toNat + 4 * c + 3) = 0x00) ∧
    (∀ j < 1, ∀ b < 4,
      ([0x7, 0x7, 0x6, 0xA, 0xD, 0x2, 0x9, 0x8] : List Code)[8 * j + 2 * b]? =
        some ((readByte (decBlockState 0).mem
          ((decBlockState 0).args.srcAddr.toNat + 4 * 1 + 4 * 1 * j + 4 * 0 + b)).extractLsb' 0 4) ∧
      ([0x7, 0x7, 0x6, 0xA, 0xD, 0x2, 0x9, 0x8] : List Code)[8 * j + 2 * b + 1]? =
        some ((readByte (decBlockState 0).mem
          ((decBlockState 0).args.srcAddr.toNat + 4 * 1 + 4 * 1 * j + 4 * 0 + b)).extractLsb' 4 4)) := by
  decide

/-- The decoder's arguments for the block ENC_BLOCK writes for `encBlockState`. -/
def decArgs : Args := { bufArgs 0x2000 0x3000 16 with nch := 2 }

/-- BlockRoundTrip: the encoder's state meets the invariant, ENC_BLOCK completes with SUCCESS and 16
bytes, and the decoder's extents fit. -/
theorem test_witness_BlockRoundTrip :
    encBlockState.Inv ∧
    answer (exec .encBlock encBlockState) (fun t => (t.result, t.outCount)) = some (.success, 16) ∧
    decArgs.srcAddr = encBlockState.args.dstAddr ∧ decArgs.dstAddr ≠ 0 ∧
    decArgs.nch = encBlockState.ctx.nch ∧ 2 ≤ encBlockState.nchMax ∧
    encBlockState.fits ⟨decArgs.srcAddr.toNat, 4 * 2⟩ noBuffer = true ∧
    encBlockState.fits ⟨decArgs.srcAddr.toNat, 4 * 2 * (1 + 1)⟩
      ⟨decArgs.dstAddr.toNat, 2 * (1 + 8 * 1) * 2⟩ = true := by decide

/-- FailuresArePrecise, InvalidParamCausesComplete: a command that completes INVALID_PARAM, with its
cause, and one that completes SUCCESS. -/
theorem test_witness_failures :
    Instr.encStream.isCommand = true ∧ Instr.encStream ≠ .ctxCreate ∧
    answer (exec .encStream State.reset) (fun t => t.result) = some .invalidParam ∧
    InvalidCause .encStream State.reset ∧
    answer (exec .ctxFree State.reset) (fun t => t.result) = some .success := by decide

/-- A platform with 0x2000 bytes of memory. -/
def smallRam : Platform := ⟨0xFFFFF800, [⟨0, 0x2000⟩], []⟩

/-- DEC_STREAM arguments that meet its parameter checks. -/
def decAt (src dst count : Word) (p : Platform) : State :=
  { machine [chan 0 0] (bufArgs src dst count) 0 [] with platform := p }

/-- DecStreamStopsOffItsBuffers, clause by clause at the boundary: an output that ends one byte past
memory, extents that share one byte, an output whose last byte is the window's first, an output
whose last byte the platform does not back; and where all fit, it completes. -/
theorem test_witness_DecStreamStops :
    2 ^ 32 < (0xFFFFFFFF : Word).toNat + 2 * 1 ∧
    stop (exec .decStream (decAt 0x1000 0xFFFFFFFF 1 Platform.default)) = some (.inr .bufferWraps) ∧
    Span.holds ⟨0x1000, 1⟩ 0x1000 = true ∧ Span.holds ⟨0x0FFF, 2⟩ 0x1000 = true ∧
    stop (exec .decStream (decAt 0x1000 0x0FFF 1 Platform.default)) = some (.inr .buffersOverlap) ∧
    Platform.default.isDevice 0xFFFFF800 = true ∧
    stop (exec .decStream (decAt 0x1000 0xFFFFF7FF 1 Platform.default)) = some (.inr .deviceAccess) ∧
    smallRam.backs 0x2000 = false ∧
    stop (exec .decStream (decAt 0x1000 0x1FFF 1 smallRam)) =
      some (.inl .unadmittedByte) ∧
    stop (exec .decStream (decAt 0x1000 0xFFFFF7FE 1 Platform.default)) = none := by decide

/-- StreamCommandsStopOffTheirBuffers, clause by clause at the boundary, with one sample: ENC_STREAM. -/
theorem test_witness_EncStreamStops :
    (decAt 0x1000 0x1001 1 smallRam).args.chsel.toNat < (decAt 0x1000 0x1001 1 smallRam).nchMax ∧
    (decAt 0x1000 0x1001 1 smallRam).args.count.toInt = (1 : Nat) ∧
    stop (exec .encStream (decAt 0xFFFFFFFF 0x1000 1 Platform.default)) = some (.inr .bufferWraps) ∧
    stop (exec .encStream (decAt 0x1000 0x1001 1 Platform.default)) = some (.inr .buffersOverlap) ∧
    stop (exec .encStream (decAt 0x1000 0xFFFFF800 1 Platform.default)) =
      some (.inr .deviceAccess) ∧
    stop (exec .encStream (decAt 0x1FFF 0x1000 1 smallRam)) = some (.inl .unadmittedByte) ∧
    stop (exec .encStream (decAt 0x1FFE 0x1FFD 1 smallRam)) = none := by decide

/-- The same, CHOOSE with one sample. -/
theorem test_witness_ChooseStops :
    stop (exec .choose (decAt 0xFFFFFFFF 0 1 Platform.default)) = some (.inr .bufferWraps) ∧
    stop (exec .choose (decAt 0xFFFFF7FF 0 1 Platform.default)) = some (.inr .deviceAccess) ∧
    stop (exec .choose (decAt 0x1FFF 0 1 smallRam)) = some (.inl .unadmittedByte) ∧
    stop (exec .choose (decAt 0x1FFE 0 1 smallRam)) = none := by decide

/-- Arguments for two channels, with a context of two. -/
def pairAt (src dst count : Word) (p : Platform) : State :=
  { machine [chan 0 0, chan 0 0] { bufArgs src dst count with nch := 2 } 0 [] with
    platform := p, ctx := ⟨true, 2, 0⟩ }

/-- The same, CTX_CREATE with two index bytes. -/
theorem test_witness_CtxCreateStops :
    (pairAt 0x1000 0 0 smallRam).args.nch.toNat = 2 ∧ 2 ≤ (pairAt 0x1000 0 0 smallRam).nchMax ∧
    stop (exec .ctxCreate (pairAt 0xFFFFFFFF 0 0 Platform.default)) = some (.inr .bufferWraps) ∧
    stop (exec .ctxCreate (pairAt 0xFFFFF7FF 0 0 Platform.default)) = some (.inr .deviceAccess) ∧
    stop (exec .ctxCreate (pairAt 0x1FFF 0 0 smallRam)) = some (.inl .unadmittedByte) ∧
    stop (exec .ctxCreate (pairAt 0x1FFE 0 0 smallRam)) = none := by decide

/-- BlockCommandsStopOffTheirBuffers, ENC_BLOCK with one frame of two channels: 4 bytes in, 8 out; and a
context of three channels on an instance of two. -/
theorem test_witness_EncBlockStops :
    (pairAt 0x1000 0x1004 1 smallRam).args.count.toInt = (1 + 8 * 0 : Nat) ∧
    stop (exec .encBlock (pairAt 0x1000 0xFFFFFFF9 1 Platform.default)) = some (.inr .bufferWraps) ∧
    stop (exec .encBlock (pairAt 0x1000 0x1003 1 Platform.default)) = some (.inr .buffersOverlap) ∧
    stop (exec .encBlock (pairAt 0xFFFFF7FD 0x1000 1 Platform.default)) =
      some (.inr .deviceAccess) ∧
    stop (exec .encBlock (pairAt 0x1000 0x1FF9 1 smallRam)) = some (.inl .unadmittedByte) ∧
    stop (exec .encBlock (pairAt 0x1000 0x1FF8 1 smallRam)) = none ∧
    stop (exec .encBlock { pairAt 0x1000 0x1FF8 1 smallRam with ctx := ⟨true, 3, 0⟩ }) =
      some (.inl .contextBeyondChannels) := by decide

/-- BlockCommandsStopOffTheirBuffers, DEC_BLOCK with two headers and no chunk, 8 bytes in, 4 out: first
on the headers alone, then on the output as well. -/
theorem test_witness_DecBlockStops :
    4 * (2 : Nat) ≤ (pairAt 0x1000 0x1800 8 smallRam).args.count.toInt ∧
    0 = ((pairAt 0x1000 0x1800 8 smallRam).args.count.toInt.toNat - 4 * 2) / (4 * 2) ∧
    (pairAt 0x1000 0x1800 8 smallRam).fits ⟨0x1000, 4 * 2⟩ noBuffer = true ∧
    stop (exec .decBlock (pairAt 0xFFFFFFF9 0x1800 8 Platform.default)) = some (.inr .bufferWraps) ∧
    stop (exec .decBlock (pairAt 0xFFFFF7F9 0x1800 8 Platform.default)) =
      some (.inr .deviceAccess) ∧
    stop (exec .decBlock (pairAt 0x1FF9 0x1800 8 smallRam)) = some (.inl .unadmittedByte) ∧
    stop (exec .decBlock (pairAt 0x1000 0xFFFFFFFD 8 Platform.default)) = some (.inr .bufferWraps) ∧
    stop (exec .decBlock (pairAt 0x1000 0x1007 8 Platform.default)) = some (.inr .buffersOverlap) ∧
    stop (exec .decBlock (pairAt 0x1000 0xFFFFF7FD 8 Platform.default)) =
      some (.inr .deviceAccess) ∧
    stop (exec .decBlock (pairAt 0x1000 0x1FFD 8 smallRam)) = some (.inl .unadmittedByte) ∧
    stop (exec .decBlock (pairAt 0x1000 0x1FFC 8 smallRam)) = none := by decide

/-- NoInstructionChangesItsArguments, OnlyNamedWritersWrite, MemoryOutsideOutputIsKept,
OtherChannelsAreKept: instructions that complete, and the premises of their clauses. -/
theorem test_witness_frames :
    answer (exec .choose (chooseState 1)) (fun t => t.result) = some .success ∧
    Instr.choose.writesChannels = false ∧ Instr.choose.writesErrAcc = false ∧
    Instr.choose.writesMemory = false ∧ Instr.code0.isCommand = false ∧
    Memory.wf (encState 1).mem = true ∧
    (outputExtent .encStream (encState 1)).holds 0x1FFF = false ∧
    (outputExtent .encStream (encState 1)).holds 0x2003 = false ∧
    1 ≠ (encState 1).args.chsel.toNat ∧ (ctxState 0 0).args.nch.toNat ≤ 2 ∧
    encBlockState.ctx.nch.toNat ≤ 2 := by decide

/-- EveryStepKeepsInv, ContextAlwaysFits: a legal state with a context, about to run ENC_BLOCK, which
completes. -/
theorem test_witness_Inv :
    State.Inv (encBlockState.withFetchWord 32 0x6) ∧
    answer (step (encBlockState.withFetchWord 32 0x6)) (fun t => t.outCount) = some 16 := by
  decide

/-- ResetStateIsLegal: the reset state, and its premises at both ends. -/
theorem test_witness_ResetStateIsLegal :
    State.reset.Inv ∧ Memory.wf [(0, 1), (0xFFFFFFFF, 2)] = true ∧
    (State.resetOf Platform.default 255 [(0, 1), (0xFFFFFFFF, 2)] [] 0).Inv := by decide +kernel

/-- ResetClearsRegistersOnly, StepRunsTheDecodedInstruction: pending inputs of each kind. -/
theorem test_witness_pending :
    { State.reset with pending := [.reset] }.pending = [.reset] ∧
    (State.reset.withFetchWord 32 0x9).pending = [.regWrite 0x00 .word 0x9] ∧
    (State.reset.withFetchWord 8 0x9).pending = [.code 0x9] ∧ State.reset.pending = [] := by decide

/-- WrittenRegistersReadBack, OtherOffsetsIgnoreWrites: a register of the list and another, the
read-only ones, and the first offset past the channels. -/
theorem test_witness_registers :
    ((0x28, 0xF) : BitVec 11 × Word) ∈ Claims.writable ∧ ((0x08, 0xFFFFFFFF) : BitVec 11 × Word) ∈
      Claims.writable ∧ (0x04 : BitVec 11) ∉ Claims.writable.map Prod.fst ∧
    (0x7FC : BitVec 11) ∉ Claims.writable.map Prod.fst ∧ (0x7FC : BitVec 11).toNat % 4 = 0 ∧
    0x80 + 4 * State.reset.nchMax ≤ (0x88 : BitVec 11).toNat := by decide

/-- RegisterReadsShowTheState: the last channel of two. -/
theorem test_witness_RegisterReads :
    encBlockState.ch[1]? = some (chan 0 30) ∧ readOffset encBlockState 0x84 = 0x001E0000 ∧
    readOffset encBlockState 0x04 = 0x00010202 ∧ readOffset encBlockState 0x08 = 0x1000 ∧
    readOffset encBlockState 0x0C = 0x2000 := by decide

/-- HostReadsHaveNoSideEffect: an aligned 32-bit access, a narrow one, a misaligned one. -/
theorem test_witness_HostReads :
    (0x7FC : BitVec 11).toNat % 4 = 0 ∧ AccessSize.half ≠ .word ∧ (0x05 : BitVec 11).toNat % 4 ≠ 0 := by
  decide

/-- HostMemoryAccess: the last byte of memory below the window, the window's first byte, and a byte a
smaller platform does not have. -/
theorem test_witness_HostMemoryAccess :
    Memory.wf State.reset.mem = true ∧
    Platform.default.isDevice (0xFFFFF7FF : Word).toNat = false ∧
    Platform.default.backs (0xFFFFF7FF : Word).toNat = true ∧
    Platform.default.isDevice (0xFFFFF800 : Word).toNat = true ∧
    Platform.isDevice ⟨0, [⟨0x800, 0x100⟩], []⟩ (0x900 : Word).toNat = false ∧
    Platform.backs ⟨0, [⟨0x800, 0x100⟩], []⟩ (0x900 : Word).toNat = false := by decide

/-- HalfwordIsTwoBytesLowFirst at the top of memory; EqualReadsMakeEqualMemories: two ways to the same
bytes. -/
theorem test_witness_memory :
    Memory.wf (writeBytes [] 0xFFFFFFFE [1, 2]) = true ∧ 0xFFFFFFFE + 1 < 2 ^ 32 ∧
    Memory.wf (writeByte (writeByte [] 5 7) 3 9) = true ∧
    writeByte (writeByte [] 5 7) 3 9 = writeByte (writeByte (writeByte [] 3 9) 5 1) 5 7 := by decide

end Sys2Proof.Tests
end

section
/-! PROOFS. The codes as instructions, one at a time and in a run, and what DEC_STREAM makes of its
codes (00_scope.md R4, 43_stream_codec.md R117; log 5). -/

namespace Sys2Proof.Machine

/-! A code moves the selected channel by its transition. -/

/-- The rules of R80 to R95, written out one by one, are R76's `Delta` and R72's `IndexDelta` at the
sixteen codes. -/
theorem exec_decodeCode (c : Code) (s : State) :
    exec (decodeCode c) s = runCode s (fun step => delta step c) (indexDelta (magnitude c)) := by
  obtain ⟨n, hn, rfl⟩ : ∃ n < 16, c = BitVec.ofNat 4 n := ⟨c.toNat, c.isLt, by simp⟩
  interval_cases n <;> rfl

/-- A code executed on a selected channel completes, with the channel moved by the transition. -/
theorem exec_decodeCode_of_selected (c : Code) (s : State) (k : Chan) (h : s.selected = some k) :
    exec (decodeCode c) s = .next (s.setSelected (transition k.state c).1.chan) := by
  rw [exec_decodeCode]
  exact (runCode_next ..).2 ⟨k, h, rfl⟩

/-- A transition's new state is in the domain, from any state (R77). -/
theorem transition_inDomain (a : Adaptive) (c : Code) : (transition a c).1.InDomain :=
  ⟨(transition_isSample a c).1, (transition_isSample a c).2, transition_index_le a c⟩

/-! Writes of the selected channel, in sequence. -/

/-- The selected channel reads back as written. -/
theorem selected_setSelected (s : State) (k c : Chan) (h : s.selected = some k) :
    (s.setSelected c).selected = some c := by
  simp [State.selected, (selected_some s k h).1]

/-- The later of two writes stays. -/
@[simp] theorem setSelected_setSelected (s : State) (c d : Chan) :
    (s.setSelected c).setSelected d = s.setSelected d := by
  simp [State.setSelected]

/-- Writing the selected channel's own value changes nothing. -/
theorem setSelected_self (s : State) (k : Chan) (h : s.selected = some k) : s.setSelected k = s := by
  obtain ⟨hlt, rfl⟩ := List.getElem?_eq_some_iff.1 h
  simp [State.setSelected]

/-! Runs of codes. -/

/-- A run of codes executed as instructions moves the selected channel as the decoder's run does. The
channel register holds each state between two codes exactly, since a transition ends in the domain. -/
theorem runCodes_of_selected (cs : List Code) (s : State) (k : Chan) (h : s.selected = some k) :
    runCodes cs s = .next (s.setSelected (decodeRun k.state cs).2.chan) := by
  induction cs generalizing s k with
  | nil => simp [runCodes, decodeRun, chan_state_chan, setSelected_self s k h]
  | cons c cs ih =>
    have hnext := ih _ _ (selected_setSelected s k (transition k.state c).1.chan h)
    rw [adaptive_chan_state _ (transition_inDomain _ _), setSelected_setSelected] at hnext
    simp only [runCodes, exec_decodeCode_of_selected c s k h, decodeRun, hnext]

/-- Settles O29: DEC_STREAM that succeeds wrote its channel's decoded run, which is what the run of its
codes as instructions writes. -/
theorem decStreamRunsItsCodes : Obligations.DecStreamRunsItsCodes := by
  intro s t hexec hok
  rcases execDecStream_next s t hexec with ⟨-, rfl⟩ | ⟨k, hk, -, -, -, -, r, rfl, rfl⟩
  · cases hok
  · exact runCodes_of_selected _ s k hk

end Sys2Proof.Machine
end

section
/-! PROOFS. What an instruction can change: one relation for all that `exec` can complete with, then the
fields every instruction keeps and the named writers of the others (10_state.md R14, R19, R22 to R30,
20_memory.md R38). -/

namespace Sys2Proof.Machine

/-- The ways an instruction can complete: one constructor for each, with all it writes and the checks that
keep its writes in bounds. It collects the inversion lemmas of Laws/Exec.lean, and `exec_completes` ties
it to `exec`. -/
inductive Completes (s : State) : Instr → State → Prop
  /-- A command that fails (60_exceptions.md R143). -/
  | fail (i : Instr) (hi : i.isCommand = true) : Completes s i s.failed
  /-- A code moves the selected channel (41_dequantizer_predictor.md R80 to R95). -/
  | code (i : Instr) (c : Chan) (a : Adaptive) (hi : i.isCommand = false)
      (hc : s.selected = some c) (ha : a.InDomain) : Completes s i (s.setSelected a.chan)
  /-- STEP (41_dequantizer_predictor.md R96). -/
  | step (c : Chan) (hc : s.selected = some c) :
      Completes s .step (((s.setSelected (transition c.state s.args.code).1.chan).setSample
        (transition c.state s.args.code).2).done 0)
  /-- CHOOSE (42_lookahead_code_selector.md R109). -/
  | choose (c : Chan) (r : Choice) (hc : s.selected = some c)
      (hr : r = search errMetric (min s.lookahead (s.count.toNat - 1)) c.state
        (readSamples s.mem s.src 1 0 (min s.lookahead (s.count.toNat - 1) + 1))) :
      Completes s .choose ((s.setChoice r.code r.imm).done 0)
  /-- INIT_ENC (43_stream_codec.md R113). -/
  | initEnc (hx : s.args.index.toNat ≤ 88) :
      Completes s .initEnc (((s.setSelected ⟨s.args.sample, s.args.index⟩).clearError).done 0)
  /-- INIT_DEC (43_stream_codec.md R114). -/
  | initDec (hx : s.args.index.toNat ≤ 88) :
      Completes s .initDec ((s.setSelected ⟨s.args.sample, s.args.index⟩).done 0)
  /-- ENC_STREAM (43_stream_codec.md R115). -/
  | encStream (c : Chan) (r : Run) (hc : s.selected = some c)
      (hf : s.fits ⟨s.src, 2 * s.count.toNat⟩ ⟨s.dst, packedLength s.count.toNat⟩ = true)
      (hr : r = encodeRun errMetric s.lookahead c.state (readSamples s.mem s.src 1 0 s.count.toNat)) :
      Completes s .encStream
        ((((s.setSelected r.state.chan).addError r.err).store s.dst (packCodes r.codes)).done
          (packedLength s.count.toNat))
  /-- DEC_STREAM (43_stream_codec.md R117). -/
  | decStream (c : Chan) (r : List Int × Adaptive) (hc : s.selected = some c)
      (hf : s.fits ⟨s.src, packedLength s.count.toNat⟩ ⟨s.dst, 2 * s.count.toNat⟩ = true)
      (hr : r = decodeRun c.state (readCodes s.mem s.src s.count.toNat)) :
      Completes s .decStream
        (((s.setSelected r.2.chan).store s.dst (r.1.flatMap sampleBytes)).done s.count.toNat)
  /-- CTX_CREATE (44_block_framer.md R124). -/
  | ctxCreate (hn : s.nchLegal = true)
      (hx : (readBytes s.mem s.src s.nchArg).all indexLegal = true) :
      Completes s .ctxCreate
        ((((s.setFirst ((readBytes s.mem s.src s.nchArg).map fun b => ⟨0, b⟩)).setContext
          ⟨true, s.args.nch, s.args.lookahead⟩).clearError).done 0)
  /-- CTX_FREE (44_block_framer.md R125). -/
  | ctxFree : Completes s .ctxFree ((s.setContext ⟨false, 0, 0⟩).done 0)
  /-- ENC_BLOCK (44_block_framer.md R126 to R129). -/
  | encBlock (bs : List ChannelBlock) (k : Nat) (hl : s.count.toNat = 1 + 8 * k)
      (hn : s.ctx.nch.toNat ≤ s.nchMax)
      (hf : s.fits ⟨s.src, 2 * s.count.toNat * s.ctx.nch.toNat⟩
        ⟨s.dst, blockLength s.ctx.nch.toNat k⟩ = true)
      (hb : bs = encodeChannels s s.ctx.nch.toNat s.count.toNat) :
      Completes s .encBlock
        ((((s.setFirst (bs.map fun b => b.run.state.chan)).addError
          (bs.map fun b => b.run.err).sum).store s.dst (blockBytes bs k)).done
          (blockLength s.ctx.nch.toNat k))
  /-- DEC_BLOCK on a corrupt block gives zero samples (44_block_framer.md R131, R132). -/
  | decBlockCorrupt : Completes s .decBlock (s.done 0)
  /-- DEC_BLOCK (44_block_framer.md R133, R134). -/
  | decBlock (k : Nat)
      (hf : s.fits ⟨s.src, 4 * s.nchArg * (1 + k)⟩ ⟨s.dst, 2 * (1 + 8 * k) * s.nchArg⟩ = true) :
      Completes s .decBlock
        ((s.store s.dst (frameBytes (decodeChannels s.mem s.src s.nchArg k) (1 + 8 * k))).done
          (1 + 8 * k))

/-- An instruction that answers a next state completes in one of those ways. -/
theorem exec_completes (i : Instr) (s t : State) (h : exec i s = .next t) : Completes s i t := by
  by_cases hi : i.isCommand = false
  · obtain ⟨c, a, hc, ha, rfl⟩ := exec_code_next s t i hi h
    exact .code i c a hi hc ha
  rw [Bool.not_eq_false] at hi
  cases i with
  | step =>
    rcases (execStep_next s t).1 h with ⟨-, rfl⟩ | ⟨c, hc, rfl⟩
    · exact .fail _ hi
    · exact .step c hc
  | choose =>
    rcases execChoose_next s t h with ⟨-, rfl⟩ | ⟨c, hc, -, -, -, r, hr, rfl⟩
    · exact .fail _ hi
    · exact .choose c r hc hr
  | initEnc =>
    rcases (execInitEnc_next s t).1 h with ⟨-, rfl⟩ | ⟨-, hx, rfl⟩
    · exact .fail _ hi
    · exact .initEnc ((indexLegal_iff _).1 hx)
  | initDec =>
    rcases (execInitDec_next s t).1 h with ⟨-, rfl⟩ | ⟨-, hx, rfl⟩
    · exact .fail _ hi
    · exact .initDec ((indexLegal_iff _).1 hx)
  | encStream =>
    rcases execEncStream_next s t h with ⟨-, rfl⟩ | ⟨c, hc, -, -, -, hf, r, hr, rfl⟩
    · exact .fail _ hi
    · exact .encStream c r hc hf hr
  | decStream =>
    rcases execDecStream_next s t h with ⟨-, rfl⟩ | ⟨c, hc, -, -, -, hf, r, hr, rfl⟩
    · exact .fail _ hi
    · exact .decStream c r hc hf hr
  | ctxCreate =>
    rcases execCtxCreate_next s t h with ⟨-, rfl⟩ | ⟨hn, -, -, hx, rfl⟩
    · exact .fail _ hi
    · exact .ctxCreate hn hx
  | ctxFree =>
    rw [(execCtxFree_next s t).1 h]
    exact .ctxFree
  | encBlock =>
    rcases execEncBlock_next s t h with ⟨-, rfl⟩ | ⟨-, -, -, hpos, hmod, hn, hf, bs, hb, rfl⟩
    · exact .fail _ hi
    · exact .encBlock bs _ (by omega) hn hf hb
  | decBlock =>
    rcases execDecBlock_next s t h with
      ⟨-, rfl⟩ | ⟨-, -, -, -, ⟨-, rfl⟩ | ⟨-, -, ⟨-, rfl⟩ | ⟨-, k, -, hf, rfl⟩⟩⟩
    · exact .fail _ hi
    · exact .decBlockCorrupt
    · exact .decBlockCorrupt
    · exact .decBlock k hf
  | reserved0 | reservedB | reservedC | reservedD | reservedE | reservedF =>
    rw [(execReserved_next s t _ (by simp)).1 h]
    exact .fail _ hi
  | code0 | code1 | code2 | code3 | code4 | code5 | code6 | code7 | code8 | code9 | codeA | codeB
  | codeC | codeD | codeE | codeF => cases hi

/-- CTX_CREATE seeds as many channels as `NCH` says. -/
theorem seededChannels_length (s : State) :
    ((readBytes s.mem s.src s.nchArg).map fun b => (⟨0, b⟩ : Chan)).length = s.nchArg := by simp

/-- ENC_BLOCK leaves as many channel states as the context has channels. -/
theorem codedChannels_length (s : State) (len : Nat) (h : s.ctx.nch.toNat ≤ s.nchMax) :
    ((encodeChannels s s.ctx.nch.toNat len).map fun b => b.run.state.chan).length =
      s.ctx.nch.toNat := by
  rw [List.length_map, encodeChannels_length s _ len h]

/-- No instruction changes the number of channels. -/
theorem Completes.nchMax_eq {i : Instr} {s t : State} (h : Completes s i t) : t.nchMax = s.nchMax := by
  cases h with
  | fail | choose | ctxFree | decBlockCorrupt | decBlock => rfl
  | code | step | initEnc | initDec | encStream | decStream => exact State.setSelected_nchMax ..
  | ctxCreate hn =>
    exact State.setFirst_nchMax _ _ (by rw [seededChannels_length]; exact ((nchLegal_iff s).1 hn).2)
  | encBlock _ _ _ hn _ hb =>
    subst hb
    exact State.setFirst_nchMax _ _ (by rw [codedChannels_length s _ hn]; exact hn)

/-- Settles O41: none of the ways to complete reaches these fields. -/
theorem noInstructionChangesItsArguments : Obligations.NoInstructionChangesItsArguments := by
  intro i s t hexec
  have hcomp := exec_completes i s t hexec
  refine ⟨?_, ?_, hcomp.nchMax_eq, ?_, ?_⟩ <;> cases hcomp <;> rfl

/-- A code may write a channel and nothing else (log 5). -/
theorem writers_of_code (i : Instr) (h : i.isCommand = false) :
    i.writesChannels = true ∧ i ≠ .ctxCreate ∧ i ≠ .ctxFree ∧ i ≠ .choose ∧ i ≠ .step := by
  cases i <;> cases h <;> decide

/-- Settles O42: each way to complete changes only fields of which its instruction is a named writer. -/
theorem onlyNamedWritersWrite : Obligations.OnlyNamedWritersWrite := by
  intro i s t hexec
  cases exec_completes i s t hexec with
  | fail _ hi => simp [hi]
  | code _ _ _ hi => simp [writers_of_code i hi]
  | _ => simp [Instr.writesChannels, Instr.writesErrAcc, Instr.writesMemory, Instr.isCommand]

end Sys2Proof.Machine
end

section
/-! PROOFS. The invariant (10_state.md R17, R19, R35): what each state operation needs to keep it, every
way to complete, every move of the host, every step. -/

namespace Sys2Proof.Machine

/-! The state operations. The updates that touch neither memory nor a channel nor the context keep the
invariant as it stands, so they need no lemma here: it is the same proposition after them. -/

/-- Writing the selected channel with a legal index keeps the invariant. -/
theorem inv_setSelected (s : State) (c : Chan) (h : s.Inv) (hc : c.index.toNat ≤ 88) :
    (s.setSelected c).Inv := by
  obtain ⟨hmem, hch, hsize, hctx⟩ := h
  refine ⟨hmem, setSelected_legal s c hch hc, ?_, ?_⟩
  · simpa [State.SizeLegal] using hsize
  · simpa [State.ContextLegal] using hctx

/-- The channel register of a state of the domain is a legal one. -/
theorem inv_setSelected_chan (s : State) (a : Adaptive) (h : s.Inv) (ha : a.x ≤ 88) :
    (s.setSelected a.chan).Inv :=
  inv_setSelected s a.chan h (by rwa [adaptive_chan_index a ha])

/-- Writing the first channels, no more than there are, with legal indices keeps the invariant. -/
theorem inv_setFirst (s : State) (cs : List Chan) (h : s.Inv) (hlen : cs.length ≤ s.nchMax)
    (hcs : ∀ c ∈ cs, c.index.toNat ≤ 88) : (s.setFirst cs).Inv := by
  obtain ⟨hmem, hch, hsize, hctx⟩ := h
  have hn := State.setFirst_nchMax s cs hlen
  refine ⟨hmem, setFirst_legal s cs hch hcs, ?_, ?_⟩
  · simpa [State.SizeLegal, hn] using hsize
  · simpa [State.ContextLegal, hn] using hctx

/-- A store that ends at or below the top of memory keeps the invariant. -/
theorem inv_store (s : State) (a : Nat) (bs : List Byte) (h : s.Inv) (hb : a + bs.length ≤ 2 ^ 32) :
    (s.store a bs).Inv := by
  obtain ⟨hmem, hrest⟩ := h
  exact ⟨wf_writeBytes _ _ _ hb hmem, hrest⟩

/-- A legal context keeps the invariant. -/
theorem inv_setContext (s : State) (c : Context) (h : s.Inv) (hc : (s.setContext c).ContextLegal) :
    (s.setContext c).Inv := by
  obtain ⟨hmem, hch, hsize, -⟩ := h
  exact ⟨hmem, hch, hsize, hc⟩

/-- The register file right after reset is legal, for any legal number of channels, over canonical memory. -/
theorem inv_resetOf (p : Platform) (n : Nat) (mem : Memory) (pending : List Input) (busRead : Word)
    (h1 : 1 ≤ n) (h255 : n ≤ 255) (hmem : Memory.wf mem = true) :
    (State.resetOf p n mem pending busRead).Inv := by
  have hn : (State.resetOf p n mem pending busRead).nchMax = n := List.length_replicate
  refine ⟨hmem, fun c hc => ?_, by simpa [State.SizeLegal, hn] using ⟨h1, h255⟩, rfl, rfl⟩
  rw [List.eq_of_mem_replicate hc]
  decide

/-- Settles O46: `State.reset` is the reset state for two channels over empty memory. -/
theorem resetStateIsLegal : Obligations.ResetStateIsLegal :=
  ⟨inv_resetOf _ _ _ _ _ (by decide) (by decide) reset_mem_wf, inv_resetOf⟩

/-! The instructions. -/

/-- Every channel that CTX_CREATE seeds is legal when its index bytes are. -/
theorem seededChannels_legal (bs : List Byte) (h : bs.all indexLegal = true) :
    ∀ c ∈ bs.map fun b => (⟨0, b⟩ : Chan), c.index.toNat ≤ 88 := by
  intro c hc
  obtain ⟨b, hb, rfl⟩ := List.mem_map.1 hc
  exact (indexLegal_iff b).1 (List.all_eq_true.1 h b hb)

/-- Every channel state that ENC_BLOCK leaves is legal when the channels were. -/
theorem codedChannels_legal (s : State) (n len : Nat) (h : s.ChannelsLegal) :
    ∀ c ∈ (encodeChannels s n len).map fun b => b.run.state.chan, c.index.toNat ≤ 88 := by
  intro c hc
  obtain ⟨b, hb, rfl⟩ := List.mem_map.1 hc
  obtain ⟨ch, hch, k, rfl⟩ := mem_encodeChannels s n len b hb
  have hx := encodeRun_index_le errMetric s.ctx.la.toNat
    ⟨headSample (readSamples s.mem s.src n k len), ch.index.toNat⟩
    (readSamples s.mem s.src n k len).tail (h ch hch)
  exact (adaptive_chan_index _ hx).trans_le hx

/-- Every way to complete keeps the invariant. -/
theorem Completes.inv {i : Instr} {s t : State} (hcomp : Completes s i t) (h : s.Inv) : t.Inv := by
  have hch : s.ChannelsLegal := h.2.1
  cases hcomp with
  | fail | choose | decBlockCorrupt => exact h
  | code _ _ a _ _ ha => exact inv_setSelected_chan s a h ha.2.2
  | step => exact inv_setSelected_chan s _ h (transition_index_le _ _)
  | initEnc hx | initDec hx => exact inv_setSelected s _ h hx
  | encStream c r hc hf hr =>
    have hx : r.state.x ≤ 88 := hr ▸ encodeRun_index_le _ _ _ _ (hch c (selected_some s c hc).2)
    refine inv_store _ _ _ (inv_setSelected_chan s _ h hx) ?_
    simpa [hr] using fits_output_bound _ _ _ hf
  | decStream c r hc hf hr =>
    have hx : r.2.x ≤ 88 := hr ▸ decodeRun_index_le _ _ (hch c (selected_some s c hc).2)
    refine inv_store _ _ _ (inv_setSelected_chan s _ h hx) ?_
    rw [sampleBytes_flatMap_length, hr, decodeRun_length, readCodes_length]
    exact fits_output_bound _ _ _ hf
  | ctxCreate hn hx =>
    have hnch := (nchLegal_iff s).1 hn
    have hlen := (seededChannels_length s).trans_le hnch.2
    have hfirst := inv_setFirst s _ h hlen (seededChannels_legal _ hx)
    have hctx := inv_setContext _ ⟨true, s.args.nch, s.args.lookahead⟩ hfirst
      ⟨hnch.1, hnch.2.trans_eq (State.setFirst_nchMax s _ hlen).symm⟩
    exact hctx
  | ctxFree => exact inv_setContext s _ h ⟨rfl, rfl⟩
  | encBlock bs k hl hn hf hb =>
    subst hb
    have hlen := (codedChannels_length s s.count.toNat hn).trans_le hn
    refine inv_store _ _ _ (inv_setFirst s _ h hlen (codedChannels_legal s _ _ hch)) ?_
    rw [hl, encodeChannels_blockBytes_length s _ k hn]
    exact fits_output_bound _ _ _ hf
  | decBlock k hf =>
    refine inv_store s _ _ h ?_
    have hbytes : (frameBytes (decodeChannels s.mem s.src s.nchArg k) (1 + 8 * k)).length =
        2 * (1 + 8 * k) * s.nchArg := by
      rw [frameBytes_length, decodeChannels, List.length_map, List.length_range]
      ring
    rw [hbytes]
    exact fits_output_bound _ _ _ hf

/-! The host's moves and the step. -/

/-- What an input that runs no instruction can do when it is taken (10_state.md R36,
70_reset_and_hazards.md R151, R164). -/
inductive HostMove (s : State) : State → Prop
  /-- A write that reaches no register. -/
  | ignored : HostMove s s
  /-- A write of a register. -/
  | write (v : Word) (r : Reg) : HostMove s (writeReg s v r)
  /-- A read of a register or of memory. -/
  | read (w : Word) : HostMove s { s with busRead := w }
  /-- A store of one byte. -/
  | store (a : Word) (b : Byte) : HostMove s { s with mem := writeByte s.mem a.toNat b }
  /-- The platform's reset. -/
  | reset : HostMove s (resetBlock s)

/-- How an input ends that runs no instruction: a move of the host, a byte the platform does not back, or
a refusal. -/
inductive HostEnds (s : State) : Outcome → Prop
  | next (t : State) (ht : HostMove s t) : HostEnds s (.next t)
  | unadmitted : HostEnds s (.fault .unadmittedByte)
  | refused (r : Refusal) : HostEnds s (.refused r)

/-- A host load or store of one byte completes or stops. -/
theorem withByte_hostEnds (s t : State) (a : Nat) (ht : HostMove s t) : HostEnds s (withByte s a t) := by
  unfold withByte
  split_ifs
  · exact .refused _
  · exact .unadmitted
  · exact .next t ht

/-- An input either runs one instruction or is a move of the host. -/
theorem act_cases (s : State) (a : Input) : (∃ i, act s a = exec i s) ∨ HostEnds s (act s a) := by
  cases a with
  | regWrite off size v =>
    simp only [act, hostWrite]
    split_ifs
    · split
      · exact .inl ⟨_, rfl⟩
      · exact .inr (.next _ (.write v _))
      · exact .inr (.next _ .ignored)
    · exact .inr (.refused _)
  | regRead off size =>
    simp only [act, hostRead]
    split_ifs
    · exact .inr (.next _ (.read _))
    · exact .inr (.refused _)
  | memWrite a b => exact .inr (withByte_hostEnds s _ _ (.store a b))
  | memRead a => exact .inr (withByte_hostEnds s _ _ (.read _))
  | reset => exact .inr (.next _ .reset)
  | code c => exact .inl ⟨_, rfl⟩

/-- With nothing pending a step changes nothing. -/
theorem step_of_idle (s : State) (h : s.pending = []) : step s = .next s := by
  rw [step, advance, h]

/-- With something pending a step takes the oldest input off the list and carries it out. -/
theorem step_of_pending (s : State) (a : Input) (rest : List Input) (h : s.pending = a :: rest) :
    step s = act { s with pending := rest } a := by
  rw [step, advance, h]

/-- A step idles or carries out an input. -/
theorem step_cases (s : State) :
    step s = .next s ∨ ∃ a rest, step s = act { s with pending := rest } a := by
  cases h : s.pending with
  | nil => exact .inl (step_of_idle s h)
  | cons a rest => exact .inr ⟨a, rest, step_of_pending s a rest h⟩

/-- Every move of the host keeps the invariant. -/
theorem HostMove.inv {s t : State} (hmove : HostMove s t) (h : s.Inv) : t.Inv := by
  obtain ⟨hmem, hch, hsize, hctx⟩ := h
  cases hmove with
  | ignored | read => exact ⟨hmem, hch, hsize, hctx⟩
  | write v r => rw [writeReg_frame]; exact ⟨hmem, hch, hsize, hctx⟩
  | store a b => exact ⟨wf_writeByte _ _ _ a.isLt hmem, hch, hsize, hctx⟩
  | reset => exact inv_resetOf _ _ _ _ _ hsize.1 hsize.2 hmem

/-- Every input that completes keeps the invariant. -/
theorem act_inv (s t : State) (a : Input) (h : s.Inv) (hact : act s a = .next t) : t.Inv := by
  rcases act_cases s a with ⟨i, hi⟩ | hends
  · exact (exec_completes i s t (hi ▸ hact)).inv h
  · rw [hact] at hends
    cases hends with
    | next _ hmove => exact hmove.inv h

/-- Settles O45: taking an input off the list leaves the invariant as it stands, and carrying it out
keeps it. -/
theorem everyStepKeepsInv : Obligations.EveryStepKeepsInv := by
  intro s t h hstep
  rcases step_cases s with hidle | ⟨a, rest, hact⟩
  · rw [hidle] at hstep
    cases hstep
    exact h
  · exact act_inv { s with pending := rest } t a h (hact ▸ hstep)

/-! A context of too many channels: only ENC_BLOCK looks for one, and the invariant rules it out. -/

/-- SUCCESS completion is no fault. -/
@[simp] theorem complete_ne_fault (s : State) (n : Nat) (f : Fault) : complete s n ≠ .fault f := nofun

/-- `fail INVALID_PARAM` is no fault of the machine. -/
@[simp] theorem failInvalidParam_ne_fault (s : State) (f : Fault) : failInvalidParam s ≠ .fault f := nofun

/-- A code is refused or completes. -/
@[simp] theorem runCode_ne_fault (s : State) (d : Nat → Int) (dx : Int) (f : Fault) :
    runCode s d dx ≠ .fault f := by
  simp only [runCode]
  split <;> nofun

/-- The buffer check itself never stops for the context. -/
theorem withBuffers_ne_contextFault (s : State) (input output : Span) (body : Outcome)
    (h : body ≠ .fault .contextBeyondChannels) :
    withBuffers s input output body ≠ .fault .contextBeyondChannels := by
  simp only [withBuffers]
  split_ifs <;> simp [h]

/-- Every path of the other instructions ends in a completion, a failure, a refusal, or a buffer check
before one of these. -/
theorem exec_ne_contextFault (i : Instr) (s : State) (hi : i ≠ .encBlock) :
    exec i s ≠ .fault .contextBeyondChannels := by
  cases i with
  | encBlock => exact absurd rfl hi
  | code0 | code1 | code2 | code3 | code4 | code5 | code6 | code7 | code8 | code9 | codeA | codeB
  | codeC | codeD | codeE | codeF =>
    simp [exec, execCode0, execCode1, execCode2, execCode3, execCode4, execCode5, execCode6, execCode7,
      execCode8, execCode9, execCodeA, execCodeB, execCodeC, execCodeD, execCodeE, execCodeF]
  | reserved0 | reservedB | reservedC | reservedD | reservedE | reservedF =>
    exact failInvalidParam_ne_fault s _
  | ctxFree => exact complete_ne_fault _ _ _
  | step | initEnc | initDec | choose | encStream | decStream | ctxCreate | decBlock =>
    simp only [exec, execStep, execInitEnc, execInitDec, execChoose, execEncStream, execDecStream,
      execCtxCreate, execDecBlock]
    repeat' split
    all_goals simp [withBuffers_ne_contextFault]

/-- The machine stops for the context only where one has too many channels. -/
theorem exec_contextFault (i : Instr) (s : State)
    (h : exec i s = .fault .contextBeyondChannels) :
    s.ctx.valid = true ∧ s.nchMax < s.ctx.nch.toNat := by
  obtain rfl : i = .encBlock := by_contra fun hi => exec_ne_contextFault i s hi h
  simp only [exec, execEncBlock] at h
  split_ifs at h with hvalid _ _ _ hwide <;> simp [withBuffers_ne_contextFault] at h
  exact ⟨by simpa using hvalid, hwide⟩

/-- The invariant leaves no context of too many channels (10_state.md R19). -/
theorem inv_context_fits (s : State) (h : s.Inv) (hvalid : s.ctx.valid = true) :
    s.ctx.nch.toNat ≤ s.nchMax := by
  obtain ⟨-, -, -, hctx⟩ := h
  rw [State.ContextLegal, if_pos hvalid] at hctx
  exact hctx.2

/-- Settles O47: a step stops for the context only through an instruction, whose context is the one the
invariant speaks of. -/
theorem contextAlwaysFits : Obligations.ContextAlwaysFits := by
  intro s h hstep
  rcases step_cases s with hidle | ⟨a, rest, hact⟩
  · rw [hidle] at hstep
    cases hstep
  · rw [hact] at hstep
    rcases act_cases { s with pending := rest } a with ⟨i, hi⟩ | hends
    · obtain ⟨hvalid, hwide⟩ := exec_contextFault i _ (hi ▸ hstep)
      exact absurd hwide (Nat.not_lt.2 (inv_context_fits s h hvalid))
    · rw [hstep] at hends
      cases hends

end Sys2Proof.Machine
end

section
/-! PROOFS. The host port: which register stands at which offset, what the host reads there, what a write
leaves, and how a step runs the instruction an input presents (10_state.md R14, R20 to R36). -/

namespace Sys2Proof.Machine

/-! The register map as an equivalence. -/

/-- The byte offset of a register in the window (10_state.md R20). -/
def Reg.offset : Reg → Nat
  | .cmd => 0x00
  | .status => 0x04
  | .srcAddr => 0x08
  | .dstAddr => 0x0C
  | .count => 0x10
  | .lookahead => 0x14
  | .nch => 0x18
  | .chsel => 0x1C
  | .argSample => 0x20
  | .argIndex => 0x24
  | .argCode => 0x28
  | .outCount => 0x2C
  | .resCode => 0x30
  | .resErr => 0x34
  | .resSample => 0x38
  | .errAccLo => 0x40
  | .errAccHi => 0x44
  | .chState c => 0x80 + 4 * c

/-- A block of `n` channels has the register: `CH_STATE[c]` needs a channel `c` (10_state.md R14). -/
def Reg.Present (n : Nat) : Reg → Prop
  | .chState c => c < n
  | _ => True

/-- The register map of 10_state.md R20: an offset names the register that stands there, when the block
has it. -/
theorem regAt_eq_some_iff (n : Nat) (off : BitVec 11) (r : Reg) :
    regAt n off = some r ↔ off.toNat = r.offset ∧ r.Present n := by
  constructor
  · intro h
    unfold regAt at h
    iterate 17
      rcases ite_eq_iff.1 h with ⟨hoff, hr⟩ | ⟨-, h⟩
      · cases hr
        exact ⟨congrArg BitVec.toNat hoff, trivial⟩
    rcases ite_eq_iff.1 h with ⟨⟨hlow, halign, hn⟩, hr⟩ | ⟨-, hr⟩
    · cases hr
      exact ⟨by simp only [Reg.offset]; omega, hn⟩
    · cases hr
  · rintro ⟨hoff, hn⟩
    have hval : off = BitVec.ofNat 11 r.offset := by
      rw [← hoff, BitVec.ofNat_toNat, BitVec.setWidth_eq]
    cases r with
    | chState c =>
      have hoff : off.toNat = 0x80 + 4 * c := hoff
      have hn : c < n := hn
      have hc : (off.toNat - 0x80) / 4 = c := by omega
      unfold regAt
      iterate 17
        rw [if_neg (by rintro rfl; simp at hoff; omega)]
      rw [if_pos (by omega), hc]
    | _ =>
      rw [hval]
      rfl

/-- The host reads the register that stands at the offset. -/
theorem readOffset_of_offset (s : State) (off : BitVec 11) (r : Reg) (hoff : off.toNat = r.offset)
    (hr : r.Present s.nchMax) : readOffset s off = readReg s r := by
  rw [readOffset, (regAt_eq_some_iff ..).2 ⟨hoff, hr⟩]

/-- The host reads 0 where no register stands (10_state.md R31). -/
theorem readOffset_of_none (s : State) (off : BitVec 11) (h : regAt s.nchMax off = none) :
    readOffset s off = 0 := by
  rw [readOffset, h]

/-! Accesses. -/

/-- The accesses the block takes are the aligned 32-bit ones (10_state.md R31). -/
theorem accessLegal_iff (off : BitVec 11) (size : AccessSize) :
    accessLegal off size = true ↔ size = .word ∧ off.toNat % 4 = 0 := by
  simp [accessLegal]

/-- A legal write at a register other than `CMD` stores what that register stores. -/
theorem act_regWrite_of_some (s : State) (off : BitVec 11) (v : Word) (r : Reg)
    (halign : off.toNat % 4 = 0) (hr : regAt s.nchMax off = some r) (hcmd : r ≠ .cmd) :
    act s (.regWrite off .word v) = .next (writeReg s v r) := by
  rw [act, hostWrite, if_pos ((accessLegal_iff ..).2 ⟨rfl, halign⟩), hr]
  cases r with
  | cmd => exact absurd rfl hcmd
  | _ => rfl

/-- A legal write where no register stands is ignored (10_state.md R31). -/
theorem act_regWrite_of_none (s : State) (off : BitVec 11) (v : Word) (halign : off.toNat % 4 = 0)
    (hr : regAt s.nchMax off = none) : act s (.regWrite off .word v) = .next s := by
  rw [act, hostWrite, if_pos ((accessLegal_iff ..).2 ⟨rfl, halign⟩), hr]

/-- Settles O53: the port answers a legal read at once and refuses the rest. -/
theorem hostReadsHaveNoSideEffect : Obligations.HostReadsHaveNoSideEffect := by
  intro s off size v
  refine ⟨fun hsize halign => if_pos ((accessLegal_iff ..).2 ⟨hsize, halign⟩), fun h => ?_⟩
  have hillegal : ¬ accessLegal off size = true := by
    rw [accessLegal_iff]
    tauto
  exact ⟨if_neg hillegal, if_neg hillegal⟩

/-! The RW registers. -/

/-- The low `k` bits of a word, as the host writes them and reads them back (10_state.md R31). -/
theorem setWidth_extractLsb'_low (v : Word) (k : Nat) (hk : k ≤ 32) :
    (v.extractLsb' 0 k).setWidth 32 = v &&& BitVec.ofNat 32 (2 ^ k - 1) := by
  have hpow : 2 ^ k ≤ 2 ^ 32 := Nat.pow_le_pow_right (by decide) hk
  apply BitVec.eq_of_toNat_eq
  rw [BitVec.toNat_and, BitVec.toNat_ofNat, Nat.mod_eq_of_lt (by omega : 2 ^ k - 1 < 2 ^ 32),
    Nat.and_two_pow_sub_one_eq_mod, BitVec.toNat_setWidth, BitVec.extractLsb'_toNat,
    Nat.shiftRight_zero]
  exact Nat.mod_eq_of_lt ((Nat.mod_lt _ (Nat.two_pow_pos k)).trans_le hpow)

/-- A register that stores all 32 bits. -/
theorem word_and_ones (v : Word) : v = v &&& 0xFFFFFFFF := by
  rw [show (0xFFFFFFFF : Word) = BitVec.allOnes 32 by decide, BitVec.and_allOnes]

/-- Each entry of the list of RW registers stands for a register that every block has and that reads
back what a write stored, its reserved bits 0 (10_state.md R20, R31). -/
theorem mem_writable_reg (e : BitVec 11 × Word) (he : e ∈ Claims.writable) :
    ∃ r : Reg, e.1.toNat = r.offset ∧ r ≠ .cmd ∧ (∀ n, r.Present n) ∧
      ∀ s v, readReg (writeReg s v r) r = v &&& e.2 := by
  simp only [Claims.writable, List.mem_cons, List.not_mem_nil, or_false] at he
  rcases he with rfl | rfl | rfl | rfl | rfl | rfl | rfl | rfl | rfl | rfl | rfl
  · exact ⟨.srcAddr, rfl, nofun, fun _ => trivial, fun _ => word_and_ones⟩
  · exact ⟨.dstAddr, rfl, nofun, fun _ => trivial, fun _ => word_and_ones⟩
  · exact ⟨.count, rfl, nofun, fun _ => trivial, fun _ => word_and_ones⟩
  · exact ⟨.lookahead, rfl, nofun, fun _ => trivial, fun _ v => setWidth_extractLsb'_low v 8 (by decide)⟩
  · exact ⟨.nch, rfl, nofun, fun _ => trivial, fun _ v => setWidth_extractLsb'_low v 8 (by decide)⟩
  · exact ⟨.chsel, rfl, nofun, fun _ => trivial, fun _ v => setWidth_extractLsb'_low v 8 (by decide)⟩
  · exact ⟨.argSample, rfl, nofun, fun _ => trivial, fun _ v => setWidth_extractLsb'_low v 16 (by decide)⟩
  · exact ⟨.argIndex, rfl, nofun, fun _ => trivial, fun _ v => setWidth_extractLsb'_low v 8 (by decide)⟩
  · exact ⟨.argCode, rfl, nofun, fun _ => trivial, fun _ v => setWidth_extractLsb'_low v 4 (by decide)⟩
  · exact ⟨.errAccLo, rfl, nofun, fun _ => trivial, fun _ v =>
      BitVec.extractLsb'_append_eq_right.trans (word_and_ones v)⟩
  · exact ⟨.errAccHi, rfl, nofun, fun _ => trivial, fun _ v =>
      BitVec.extractLsb'_append_eq_left.trans (word_and_ones v)⟩

/-- Every register stands at an aligned offset (10_state.md R20). -/
theorem Reg.offset_aligned (r : Reg) : r.offset % 4 = 0 := by
  cases r with
  | chState c => simp only [Reg.offset]; omega
  | _ => rfl

/-- Settles O50: each entry of the list names one register, and another entry names another one. -/
theorem writtenRegistersReadBack : Obligations.WrittenRegistersReadBack := by
  intro s v e he
  obtain ⟨r, hoff, hcmd, hpresent, hback⟩ := mem_writable_reg e he
  have hreg := (regAt_eq_some_iff s.nchMax e.1 r).2 ⟨hoff, hpresent _⟩
  refine ⟨writeReg s v r, act_regWrite_of_some s e.1 v r (hoff ▸ r.offset_aligned) hreg hcmd, ?_, ?_,
    writeReg_frame s v r⟩
  · rw [readOffset_of_offset _ _ r hoff (hpresent _), hback]
  · intro d hd hne
    obtain ⟨q, hq, -, hqpresent, -⟩ := mem_writable_reg d hd
    have hqr : q ≠ r := fun hqr => hne (BitVec.eq_of_toNat_eq (hq.trans (hqr ▸ hoff.symm)))
    rw [readOffset_of_offset _ _ q hq (hqpresent _), readOffset_of_offset _ _ q hq (hqpresent _),
      readReg_writeReg_of_ne s v r q hqr]

/-! The other offsets. -/

/-- A register that is not on the list of RW registers stores nothing (10_state.md R20, R31). -/
theorem writeReg_of_not_writable (s : State) (v : Word) (r : Reg)
    (h : BitVec.ofNat 11 r.offset ∉ Claims.writable.map Prod.fst) : writeReg s v r = s := by
  cases r with
  | cmd | status | outCount | resCode | resErr | resSample | chState => rfl
  | srcAddr | dstAddr | count | lookahead | nch | chsel | argSample | argIndex | argCode | errAccLo
  | errAccHi => exact absurd (by decide) h

/-- Among the offsets that read 0, only that of `CMD` is a register's (10_state.md R20). -/
theorem eq_cmd_of_offset (r : Reg) (n : Nat) (hr : r.Present n)
    (h : r.offset = 0x00 ∨ r.offset = 0x3C ∨ (0x48 ≤ r.offset ∧ r.offset < 0x80) ∨
      0x80 + 4 * n ≤ r.offset) : r = .cmd := by
  cases r with
  | cmd => rfl
  | chState c =>
    have hc : c < n := hr
    simp only [Reg.offset] at h
    omega
  | _ =>
    simp only [Reg.offset] at h
    omega

/-- Settles O51: such an offset names no register, or one that stores nothing, or `CMD`, which reads 0. -/
theorem otherOffsetsIgnoreWrites : Obligations.OtherOffsetsIgnoreWrites := by
  intro s off v halign
  cases hreg : regAt s.nchMax off with
  | none =>
    exact ⟨fun _ _ => act_regWrite_of_none s off v halign hreg, fun _ => readOffset_of_none s off hreg⟩
  | some r =>
    obtain ⟨hoff, hr⟩ := (regAt_eq_some_iff ..).1 hreg
    have hval : BitVec.ofNat 11 r.offset = off := by rw [← hoff, BitVec.ofNat_toNat, BitVec.setWidth_eq]
    constructor
    · intro h0 hnot
      have hcmd : r ≠ .cmd := fun h => h0 (hval.symm.trans (h ▸ rfl))
      rw [act_regWrite_of_some s off v r halign hreg hcmd,
        writeReg_of_not_writable s v r (hval ▸ hnot)]
    · simp only [← BitVec.toNat_inj, hoff]
      intro h
      rw [readOffset_of_offset s off r hoff hr, eq_cmd_of_offset r _ hr h]
      rfl

/-! What the registers show. -/

/-- Two bit vectors end to end, as a number. -/
theorem toNat_append_eq_add {m n : Nat} (x : BitVec m) (y : BitVec n) :
    (x ++ y).toNat = x.toNat * 2 ^ n + y.toNat := by
  rw [BitVec.toNat_append, ← Nat.shiftLeft_add_eq_or_of_lt y.isLt, Nat.shiftLeft_eq]

/-- `STATUS` as a number (10_state.md R19). -/
theorem status_toNat (s : State) : s.status.toNat = (if s.result = .invalidParam then 1 else 0) +
    2 * (if s.ctx.valid then 1 else 0) + 2 ^ 8 * s.ctx.nch.toNat + 2 ^ 16 * s.ctx.la.toNat := by
  simp only [State.status, toNat_append_eq_add]
  cases s.result <;> cases s.ctx.valid <;> simp [Result.bit] <;> omega

/-- A channel state word as a number (10_state.md R14). -/
theorem chan_word_toNat (c : Chan) : c.word.toNat = c.pred.toNat + 2 ^ 16 * c.index.toNat := by
  simp only [Chan.word, toNat_append_eq_add, BitVec.toNat_zero]
  omega

/-- A field narrower than its register reads as its own value (10_state.md R31). -/
theorem readOffset_toNat (s : State) (off : BitVec 11) (r : Reg) {k : Nat} (x : BitVec k) (hk : k ≤ 32)
    (hoff : off.toNat = r.offset) (hr : r.Present s.nchMax) (hx : readReg s r = x.setWidth 32) :
    (readOffset s off).toNat = x.toNat := by
  rw [readOffset_of_offset s off r hoff hr, hx, BitVec.toNat_setWidth_of_le hk]

/-- `CH_STATE[c]` shows channel `c`, for every channel the 0x800-byte window has room for. -/
theorem readOffset_chState (s : State) (c : Nat) (ch : Chan) (hc : c < 480) (hch : s.ch[c]? = some ch) :
    readOffset s (BitVec.ofNat 11 (0x80 + 4 * c)) = ch.word := by
  have hoff : (BitVec.ofNat 11 (0x80 + 4 * c)).toNat = (Reg.chState c).offset := by
    rw [BitVec.toNat_ofNat]
    exact Nat.mod_eq_of_lt (by omega)
  rw [readOffset_of_offset s _ (.chState c) hoff (List.getElem?_eq_some_iff.1 hch).1, readReg, hch]

/-- Settles O52: each offset names its register, and each register shows its field. -/
theorem registerReadsShowTheState : Obligations.RegisterReadsShowTheState := by
  intro s
  refine ⟨?status, ?chState,
    readOffset_of_offset s _ .srcAddr rfl trivial, readOffset_of_offset s _ .dstAddr rfl trivial,
    readOffset_of_offset s _ .count rfl trivial,
    readOffset_toNat s _ .lookahead _ (by decide) rfl trivial rfl,
    readOffset_toNat s _ .nch _ (by decide) rfl trivial rfl,
    readOffset_toNat s _ .chsel _ (by decide) rfl trivial rfl,
    readOffset_toNat s _ .argSample _ (by decide) rfl trivial rfl,
    readOffset_toNat s _ .argIndex _ (by decide) rfl trivial rfl,
    readOffset_toNat s _ .argCode _ (by decide) rfl trivial rfl,
    readOffset_of_offset s _ .outCount rfl trivial,
    readOffset_toNat s _ .resCode _ (by decide) rfl trivial rfl,
    readOffset_of_offset s _ .resErr rfl trivial, readOffset_of_offset s _ .resSample rfl trivial,
    ?errAcc⟩
  case status =>
    rw [readOffset_of_offset s _ .status rfl trivial]
    exact status_toNat s
  case chState =>
    intro c ch hc hch
    rw [readOffset_chState s c ch hc hch, chan_word_toNat]
  case errAcc =>
    rw [readOffset_of_offset s _ .errAccHi rfl trivial, readOffset_of_offset s _ .errAccLo rfl trivial]
    exact BitVec.extractLsb'_append_extractLsb'

/-! The step and the decoder. -/

/-- The input that presents an encoded instruction runs it (10_state.md R21, 30_encoding.md R54, R61). -/
theorem act_inputOf (s : State) (e : Encoded) : act s (inputOf e) = exec (decode e) s := by
  cases e <;> rfl

/-- An instruction given by its table bits reaches the block as one input that presents it. -/
theorem fetchInputs_of_decodeTableWord (nbits w : Nat) (i : Instr)
    (h : decodeTableWord nbits w = some i) : ∃ e, decode e = i ∧ fetchInputs nbits w = [inputOf e] := by
  unfold decodeTableWord at h
  unfold fetchInputs
  cases he : encodedOfTable nbits w with
  | ok e =>
    rw [he] at h
    exact ⟨e, Option.some.inj h, rfl⟩
  | error d =>
    rw [he] at h
    cases h

/-- Settles O49: a word for `CMD` and a code are the two inputs that present an instruction. -/
theorem stepRunsTheDecodedInstruction : Obligations.StepRunsTheDecodedInstruction := by
  refine ⟨fun s v rest h => ?_, fun s c rest h => ?_, fun s nbits w i h => ?_, fun s h => ?_⟩
  · rw [step_of_pending s _ rest h]
    exact act_inputOf _ (.cmd v)
  · rw [step_of_pending s _ rest h]
    exact act_inputOf _ (.nib c)
  · obtain ⟨e, rfl, hfetch⟩ := fetchInputs_of_decodeTableWord nbits w i h
    have hpending : (s.withFetchWord nbits w).pending = inputOf e :: s.pending :=
      congrArg (· ++ s.pending) hfetch
    rw [step_of_pending _ _ _ hpending, act_inputOf]
    rfl
  · exact step_of_idle s h

end Sys2Proof.Machine
end

section
/-! PROOFS. Memory: the bytes of a halfword, the canonical form, and what an instruction stores
(20_memory.md R37 to R41, R48; log 4). -/

namespace Sys2Proof.Machine

/-! Halfwords. -/

/-- The byte at the lower address of a halfword, as a number. -/
theorem halfBytes_low_toNat (v : Pattern) : (v.extractLsb' 0 8).toNat = v.toNat % 256 := by
  simp [BitVec.extractLsb'_toNat]

/-- The byte at the upper address of a halfword, as a number. -/
theorem halfBytes_high_toNat (v : Pattern) : (v.extractLsb' 8 8).toNat = v.toNat / 256 := by
  have hv := v.isLt
  rw [BitVec.extractLsb'_toNat, Nat.shiftRight_eq_div_pow]
  omega

/-- A halfword as a number (20_memory.md R40). -/
theorem readHalf_toNat (m : Memory) (a : Nat) :
    (readHalf m a).toNat = (readByte m a).toNat + 256 * (readByte m (a + 1)).toNat := by
  rw [readHalf, toNat_append_eq_add]
  omega

/-- Settles O55: the two bytes of the halfword are the run of writes, so each read is one of a run. -/
theorem halfwordIsTwoBytesLowFirst : Obligations.HalfwordIsTwoBytesLowFirst := by
  intro m a v hwf ha
  have hend : a + (halfBytes v).length ≤ 2 ^ 32 := ha
  have hlow : readByte (writeBytes m a (halfBytes v)) a = v.extractLsb' 0 8 :=
    readByte_writeBytes_of_getElem? m a (halfBytes v) 0 _ hend hwf rfl
  have hhigh : readByte (writeBytes m a (halfBytes v)) (a + 1) = v.extractLsb' 8 8 :=
    readByte_writeBytes_of_getElem? m a (halfBytes v) 1 _ hend hwf rfl
  refine ⟨?_, ?_, ?_, readHalf_toNat m a, fun k hk hk' => ?_⟩
  · rw [hlow, halfBytes_low_toNat]
  · rw [hhigh, halfBytes_high_toNat]
  · rw [readHalf, hlow, hhigh, halfBytes_append]
  · exact readByte_writeBytes_outside m a _ k hend hwf (by rw [halfBytes_length]; omega)

/-! The canonical form: the reads of a memory determine its list. -/

/-- The first listed address of a canonical memory reads its own byte, not an unlisted one. -/
theorem readByte_first_ne_unlisted (k : Nat) (b : Byte) (rest : Memory)
    (h : Memory.wf ((k, b) :: rest) = true) :
    readByte ((k, b) :: rest) k ≠ Config.unlistedByte := by
  obtain ⟨-, hb, -, -⟩ := (Memory.wf_cons k b rest).1 h
  rwa [readByte, if_pos rfl]

/-- No address below the first listed one of a canonical memory reads other than unlisted. -/
theorem first_le_of_readByte_ne (k : Nat) (b : Byte) (rest : Memory) (a : Nat)
    (h : Memory.wf ((k, b) :: rest) = true)
    (ha : readByte ((k, b) :: rest) a ≠ Config.unlistedByte) : k ≤ a := by
  obtain ⟨-, -, hrise, -⟩ := (Memory.wf_cons k b rest).1 h
  by_contra hlt
  rw [Nat.not_le] at hlt
  exact ha (readByte_of_lt _ a (List.forall_mem_cons.2 ⟨hlt, fun e he => hlt.trans (hrise e he)⟩))

/-- The rest of a canonical memory reads as the whole does, but unlisted at the first address. -/
theorem readByte_rest (k : Nat) (b : Byte) (rest : Memory) (a : Nat)
    (h : Memory.wf ((k, b) :: rest) = true) :
    readByte rest a = if k = a then Config.unlistedByte else readByte ((k, b) :: rest) a := by
  obtain ⟨-, -, hrise, -⟩ := (Memory.wf_cons k b rest).1 h
  split
  · next hk => exact readByte_of_lt rest a (hk ▸ hrise)
  · next hk => rw [readByte, if_neg hk]

/-- Settles O56, by induction on both lists: equal reads give the same first address, each being the
least that does not read as unlisted, and there the same byte. -/
theorem equalReadsMakeEqualMemories : Obligations.EqualReadsMakeEqualMemories := by
  intro m
  induction m with
  | nil =>
    intro m' _ hwf' hreads
    cases m' with
    | nil => rfl
    | cons e' rest' => exact absurd (hreads e'.1).symm (readByte_first_ne_unlisted _ _ _ hwf')
  | cons e rest ih =>
    obtain ⟨k, b⟩ := e
    intro m' hwf hwf' hreads
    have hk := readByte_first_ne_unlisted k b rest hwf
    cases m' with
    | nil => exact absurd (hreads k) hk
    | cons e' rest' =>
      obtain ⟨k', b'⟩ := e'
      have hk' := readByte_first_ne_unlisted k' b' rest' hwf'
      obtain rfl : k = k' := Nat.le_antisymm
        (first_le_of_readByte_ne k b rest k' hwf (hreads k' ▸ hk'))
        (first_le_of_readByte_ne k' b' rest' k hwf' (hreads k ▸ hk))
      obtain rfl : b = b' := by simpa [readByte] using hreads k
      obtain ⟨-, -, -, hrest⟩ := (Memory.wf_cons k b rest).1 hwf
      obtain ⟨-, -, -, hrest'⟩ := (Memory.wf_cons k b rest').1 hwf'
      rw [ih rest' hrest hrest' fun a => by
        rw [readByte_rest k b rest a hwf, readByte_rest k b rest' a hwf', hreads a]]

/-! What an instruction stores. -/

/-- The memory of `t` is that of `s` with bytes stored over the whole of a run that does not pass the top
of memory. -/
def StoredOver (s t : State) (r : Span) : Prop :=
  r.addr + r.len ≤ 2 ^ 32 ∧ ∃ bs : List Byte, bs.length = r.len ∧ t.mem = writeBytes s.mem r.addr bs

/-- A store over a run keeps every byte outside it. -/
theorem StoredOver.readByte_outside {s t : State} {r : Span} (h : StoredOver s t r)
    (hwf : Memory.wf s.mem = true) (a : Nat) (ha : r.holds a = false) :
    readByte t.mem a = readByte s.mem a := by
  obtain ⟨hend, bs, hlen, hmem⟩ := h
  rw [← Bool.not_eq_true, holds_iff] at ha
  rw [hmem, readByte_writeBytes_outside _ _ _ _ (by omega) hwf (by omega)]

/-- The bytes DEC_BLOCK writes, as many as its output extent is long (20_memory.md R48). -/
theorem decodeChannels_frameBytes_length (m : Memory) (a n k : Nat) :
    (frameBytes (decodeChannels m a n k) (1 + 8 * k)).length = 2 * (1 + 8 * k) * n := by
  rw [frameBytes_length, decodeChannels, List.length_map, List.length_range]
  ring

/-- An instruction that completes leaves memory alone or stores over the whole of its output extent. -/
theorem exec_mem (i : Instr) (s t : State) (h : exec i s = .next t) :
    t.mem = s.mem ∨ StoredOver s t (outputExtent i s) := by
  by_cases hw : i.writesMemory = false
  · obtain ⟨-, -, -, -, -, hmem, -⟩ := onlyNamedWritersWrite i s t h
    exact .inl (hmem hw)
  cases i with
  | encStream =>
    rcases execEncStream_next s t h with ⟨-, rfl⟩ | ⟨c, -, -, -, -, hf, r, rfl, rfl⟩
    · exact .inl rfl
    · refine .inr ⟨fits_output_bound _ _ _ hf, _, ?_, rfl⟩
      rw [packCodes_length, encodeRun_length, readSamples_length]
      rfl
  | decStream =>
    rcases execDecStream_next s t h with ⟨-, rfl⟩ | ⟨c, -, -, -, -, hf, r, rfl, rfl⟩
    · exact .inl rfl
    · refine .inr ⟨fits_output_bound _ _ _ hf, _, ?_, rfl⟩
      rw [sampleBytes_flatMap_length, decodeRun_length, readCodes_length]
      rfl
  | encBlock =>
    rcases execEncBlock_next s t h with ⟨-, rfl⟩ | ⟨-, -, -, hpos, hmod, hn, hf, bs, rfl, rfl⟩
    · exact .inl rfl
    · refine .inr ⟨fits_output_bound _ _ _ hf, _, ?_, rfl⟩
      have hcount : 1 + 8 * ((s.count.toNat - 1) / 8) = s.count.toNat := by omega
      have hlen := encodeChannels_blockBytes_length s s.ctx.nch.toNat ((s.count.toNat - 1) / 8) hn
      rw [hcount] at hlen
      exact hlen
  | decBlock =>
    rcases execDecBlock_next s t h with
      ⟨-, rfl⟩ | ⟨-, -, -, -, ⟨-, rfl⟩ | ⟨-, -, ⟨-, rfl⟩ | ⟨-, k, rfl, hf, rfl⟩⟩⟩
    · exact .inl rfl
    · exact .inl rfl
    · exact .inl rfl
    · exact .inr ⟨fits_output_bound _ _ _ hf, _, decodeChannels_frameBytes_length .., rfl⟩
  | _ => exact absurd rfl hw

/-- Settles O43: an instruction leaves memory alone or stores over its output extent, and either keeps
every byte outside. -/
theorem memoryOutsideOutputIsKept : Obligations.MemoryOutsideOutputIsKept := by
  intro i s t a hwf hexec ha
  rcases exec_mem i s t hexec with hmem | hstored
  · rw [hmem]
  · exact hstored.readByte_outside hwf a ha

end Sys2Proof.Machine
end

section
/-! PROOFS. Where the commands that use buffers stop (20_memory.md R43, R44, R48, R49, 93 U3, U4, U5): with
valid parameters each is its buffer check, and `withBuffers_stops` says where that stops, in the order of
log 8. -/

namespace Sys2Proof.Machine

/-- An instruction that is a buffer check stops where the check does. -/
theorem stopsOff_of_eq_withBuffers {i : Instr} {s : State} {input output : Span} {body : Outcome}
    (h : exec i s = withBuffers s input output body) : Claims.StopsOff i s input output := by
  rw [Claims.StopsOff, h]
  exact withBuffers_stops s input output body

/-! Each command with valid parameters is its buffer check. -/

section
variable {s : State}

/-- `CHSEL < NCH_MAX` selects a channel. -/
theorem exists_selected (h : s.args.chsel.toNat < s.nchMax) : ∃ c, s.selected = some c :=
  ⟨_, List.getElem?_eq_getElem h⟩

/-- A nonzero `SRC_ADDR` is a buffer that is there (20_memory.md R45). -/
theorem srcAbsent_eq_false (h : s.args.srcAddr ≠ 0) : s.srcAbsent = false := by
  rwa [← Bool.not_eq_true, srcAbsent_iff]

/-- A nonzero `DST_ADDR` is a buffer that is there (20_memory.md R45). -/
theorem dstAbsent_eq_false (h : s.args.dstAddr ≠ 0) : s.dstAbsent = false := by
  rwa [← Bool.not_eq_true, dstAbsent_iff]

/-- ENC_STREAM with valid parameters (43_stream_codec.md R115). -/
theorem stopsOff_encStream (hch : s.args.chsel.toNat < s.nchMax) (hsrc : s.args.srcAddr ≠ 0)
    (hdst : s.args.dstAddr ≠ 0) (hcount : ¬ s.count ≤ 0) :
    Claims.StopsOff .encStream s ⟨s.src, 2 * s.count.toNat⟩ ⟨s.dst, packedLength s.count.toNat⟩ := by
  obtain ⟨c, hc⟩ := exists_selected hch
  apply stopsOff_of_eq_withBuffers
  simp only [exec, execEncStream, hc, srcAbsent_eq_false hsrc, dstAbsent_eq_false hdst, if_neg hcount,
    Bool.or_self, Bool.false_eq_true, if_false]
  rfl

/-- DEC_STREAM with valid parameters (43_stream_codec.md R117). -/
theorem stopsOff_decStream (hch : s.args.chsel.toNat < s.nchMax) (hsrc : s.args.srcAddr ≠ 0)
    (hdst : s.args.dstAddr ≠ 0) (hcount : ¬ s.count ≤ 0) :
    Claims.StopsOff .decStream s ⟨s.src, packedLength s.count.toNat⟩ ⟨s.dst, 2 * s.count.toNat⟩ := by
  obtain ⟨c, hc⟩ := exists_selected hch
  apply stopsOff_of_eq_withBuffers
  simp only [exec, execDecStream, hc, srcAbsent_eq_false hsrc, dstAbsent_eq_false hdst, if_neg hcount,
    Bool.or_self, Bool.false_eq_true, if_false]
  rfl

/-- CHOOSE with valid parameters (42_lookahead_code_selector.md R109). -/
theorem stopsOff_choose (hch : s.args.chsel.toNat < s.nchMax) (hsrc : s.args.srcAddr ≠ 0)
    (hcount : ¬ s.count ≤ 0) :
    Claims.StopsOff .choose s ⟨s.src, 2 * (1 + min s.lookahead (s.count.toNat - 1))⟩ noBuffer := by
  obtain ⟨c, hc⟩ := exists_selected hch
  apply stopsOff_of_eq_withBuffers
  simp only [exec, execChoose, hc, srcAbsent_eq_false hsrc, if_neg hcount, Bool.false_eq_true, if_false]
  rfl

/-- CTX_CREATE with valid parameters (44_block_framer.md R124). -/
theorem stopsOff_ctxCreate (hnch : s.nchLegal = true) (hsrc : s.args.srcAddr ≠ 0) :
    Claims.StopsOff .ctxCreate s ⟨s.src, s.nchArg⟩ noBuffer := by
  apply stopsOff_of_eq_withBuffers
  simp only [exec, execCtxCreate, hnch, srcAbsent_eq_false hsrc, Bool.not_true, Bool.false_eq_true,
    if_false]
  rfl

/-- ENC_BLOCK with a context and a legal count looks at the size of the context before its buffers. -/
theorem exec_encBlock_of_valid (k : Nat) (hctx : s.ctx.valid = true) (hsrc : s.args.srcAddr ≠ 0)
    (hdst : s.args.dstAddr ≠ 0) (hcount : s.count = (1 + 8 * k : Nat)) :
    ∃ body, exec .encBlock s =
      if s.nchMax < s.ctx.nch.toNat then .fault .contextBeyondChannels
      else withBuffers s ⟨s.src, 2 * s.count.toNat * s.ctx.nch.toNat⟩
        ⟨s.dst, blockLength s.ctx.nch.toNat ((s.count.toNat - 1) / 8)⟩ body := by
  have hpos : ¬ s.count ≤ 0 := by omega
  have hmod : ¬ (s.count - 1) % 8 ≠ 0 := by omega
  apply Exists.intro
  simp only [exec, execEncBlock, hctx, srcAbsent_eq_false hsrc, dstAbsent_eq_false hdst, if_neg hpos,
    if_neg hmod, Bool.not_true, Bool.or_self, Bool.false_eq_true, if_false]
  rfl

/-- DEC_BLOCK with valid parameters and its header bytes all there checks the extent of the headers, then
the headers, then its whole extents (44_block_framer.md R131 to R134). -/
theorem exec_decBlock_of_valid (hnch : s.nchLegal = true) (hsrc : s.args.srcAddr ≠ 0)
    (hdst : s.args.dstAddr ≠ 0) (hpos : ¬ s.count ≤ 0) (hlen : ¬ s.count.toNat < 4 * s.nchArg) :
    ∃ body, exec .decBlock s = withBuffers s ⟨s.src, 4 * s.nchArg⟩ noBuffer
      (if !(List.range s.nchArg).all (fun c => (readHeader s.mem s.src c).legal) then complete s 0
      else withBuffers s
        ⟨s.src, 4 * s.nchArg * (1 + (s.count.toNat - 4 * s.nchArg) / (4 * s.nchArg))⟩
        ⟨s.dst, 2 * (1 + 8 * ((s.count.toNat - 4 * s.nchArg) / (4 * s.nchArg))) * s.nchArg⟩ body) := by
  apply Exists.intro
  simp only [exec, execDecBlock, hnch, srcAbsent_eq_false hsrc, dstAbsent_eq_false hdst, if_neg hpos,
    if_neg hlen, Bool.not_true, Bool.or_self, Bool.false_eq_true, if_false]
  rfl

end

/-- Settles O40: DEC_STREAM with valid parameters is its buffer check. -/
theorem decStreamStopsOffItsBuffers : Obligations.DecStreamStopsOffItsBuffers := by
  intro s n hch hsrc hdst hn hpos
  have hcount : s.count = n := hn
  have hstop := stopsOff_decStream hch hsrc hdst (by omega)
  rw [hcount] at hstop
  exact hstop

/-- Settles O58: each of the three commands with valid parameters is its buffer check. -/
theorem streamCommandsStopOffTheirBuffers : Obligations.StreamCommandsStopOffTheirBuffers := by
  intro s n hsrc
  refine ⟨fun hch hdst hn hpos => ?_, fun hch hn hpos => ?_, fun hn h1 hmax => ?_⟩
  · have hcount : s.count = n := hn
    have hstop := stopsOff_encStream hch hsrc hdst (by omega)
    rw [hcount] at hstop
    exact hstop
  · have hcount : s.count = n := hn
    have hstop := stopsOff_choose hch hsrc (by omega)
    rw [hcount] at hstop
    exact hstop
  · subst hn
    exact stopsOff_ctxCreate ((nchLegal_iff s).2 ⟨h1, hmax⟩) hsrc

/-- Headers whose indices are at most 88 and whose reserved bytes are 0 are good (44_block_framer.md
R132). -/
theorem headers_legal (m : Memory) (a n : Nat)
    (h : ∀ c < n, (readByte m (a + 4 * c + 2)).toNat ≤ 88 ∧ readByte m (a + 4 * c + 3) = 0x00) :
    (List.range n).all (fun c => (readHeader m a c).legal) = true := by
  rw [List.all_eq_true]
  intro c hc
  obtain ⟨hindex, hreserved⟩ := h c (List.mem_range.1 hc)
  simp [Header.legal, readHeader, indexLegal_iff, hindex, hreserved]

/-- Settles O59: ENC_BLOCK looks at the context and then at its buffers; DEC_BLOCK checks its header
bytes, and where these fit and are good the check of its whole extents decides. -/
theorem blockCommandsStopOffTheirBuffers : Obligations.BlockCommandsStopOffTheirBuffers := by
  intro s n k hsrc hdst
  refine ⟨fun hctx hn hcount => ?_, fun hn h1 hmax hlen hk => ?_⟩
  · subst hn
    obtain ⟨body, hexec⟩ := exec_encBlock_of_valid k hctx hsrc hdst hcount
    refine ⟨fun hwide => hexec.trans (if_pos hwide), fun hfit => ?_⟩
    rw [if_neg (Nat.not_lt.2 hfit)] at hexec
    have hstop := stopsOff_of_eq_withBuffers hexec
    have hlen : s.count.toNat = 1 + 8 * k := congrArg Int.toNat hcount
    have hchunks : (1 + 8 * k - 1) / 8 = k := by omega
    rw [hlen, hchunks] at hstop
    exact hstop
  · subst hn hk
    have hbytes : 4 * (s.nchArg : Int) ≤ s.count := hlen
    have hnch : 1 ≤ s.nchArg := h1
    obtain ⟨body, hexec⟩ := exec_decBlock_of_valid ((nchLegal_iff s).2 ⟨h1, hmax⟩) hsrc hdst
      (by omega) (by omega)
    refine ⟨stopsOff_of_eq_withBuffers hexec, fun hfits hgood => ?_⟩
    have hheaders := headers_legal s.mem s.src s.nchArg hgood
    rw [withBuffers_of_fits s ⟨s.src, 4 * s.nchArg⟩ noBuffer _ hfits, hheaders, Bool.not_true,
      if_neg Bool.false_ne_true] at hexec
    exact stopsOff_of_eq_withBuffers hexec

end Sys2Proof.Machine
end

section
/-! PROOFS. The encoding (30_encoding.md R53 to R63): decoder and encoder are inverse to each other up to
the bits a command word ignores, the bits of a table row are the unit the decoder reads, and a packed
byte holds its two codes (log 11). -/

namespace Sys2Proof.Machine

/-! Decoding and encoding. -/

/-- Decoding undoes encoding: the family RoundTrip, one lemma for each row of the opcode table. -/
theorem decode_encode (i : Instr) : decode (encode i) = i := by
  cases i
  open Laws.RoundTrip in
  exacts [code0, code1, code2, code3, code4, code5, code6, code7, code8, code9, codeA, codeB, codeC,
    codeD, codeE, codeF, initEnc, initDec, encStream, decStream, ctxCreate, encBlock, decBlock, ctxFree,
    Laws.RoundTrip.step, choose, reserved0, reservedB, reservedC, reservedD, reservedE, reservedF]

/-- The bits of each of the sixteen codes are the `encoding` column of its row (30_encoding.md R55). -/
theorem encode_decodeCode : ∀ c : Code, encode (decodeCode c) = .nib c := by decide

/-- The same for the sixteen opcodes, each in a command word with bits 31:4 at 0 (R62, R63). -/
theorem encode_decodeCommand_opcode :
    ∀ op : BitVec 4, encode (decodeCommand (op.setWidth 32)) = .cmd (op.setWidth 32) := by decide

/-- The decoder of command words reads bits 3:0 only (R61). -/
theorem decodeCommand_opcode (v : Word) :
    decodeCommand ((v.setWidth 4).setWidth 32) = decodeCommand v := by
  simp [decodeCommand]

/-- Bits 3:0 of a word, as a mask. -/
theorem opcode_eq_mask (v : Word) : (v.setWidth 4).setWidth 32 = v &&& 0x0000000F#32 := by
  have hmask : v.toNat &&& 15 = v.toNat % 16 := Nat.and_two_pow_sub_one_eq_mod v.toNat 4
  apply BitVec.eq_of_toNat_eq
  simp only [BitVec.toNat_setWidth, BitVec.toNat_and, BitVec.toNat_ofNat, Nat.reducePow, Nat.reduceMod,
    hmask]
  omega

/-- Encoding a decoded command word keeps its opcode and clears the bits it ignores. -/
theorem encode_decodeCommand (v : Word) : encode (decodeCommand v) = .cmd (v &&& 0x0000000F#32) := by
  rw [← decodeCommand_opcode, encode_decodeCommand_opcode, opcode_eq_mask]

/-- Settles O1: every row decodes from its own encoding, and the encoder gives back all that the decoder
reads. -/
theorem decodeEncodeAgree : Obligations.DecodeEncodeAgree :=
  ⟨fun i _ => decode_encode i, encode_decodeCode, encode_decodeCommand⟩

/-! The rows of the opcode table. -/

/-- Eight table bits are a packed byte, decoded by its low nibble (log 11). -/
theorem decodeTableWord_code (w : Nat) :
    decodeTableWord 8 w = some (decodeCode (earlierCode (BitVec.ofNat 8 w))) := rfl

/-- The four bytes of a word, most significant first, are the word. -/
theorem append_bytes_ofNat (w : Nat) :
    BitVec.ofNat 8 (w >>> 24) ++ BitVec.ofNat 8 (w >>> 16) ++ BitVec.ofNat 8 (w >>> 8) ++
      BitVec.ofNat 8 w = BitVec.ofNat 32 w := by
  apply BitVec.eq_of_getLsbD_eq
  intro i hi
  simp only [BitVec.getLsbD_append, BitVec.getLsbD_ofNat, Nat.testBit_shiftRight, Nat.sub_sub]
  split_ifs with h0 h1 h2
  · simp [h0, hi]
  · simp (disch := omega) [h1, hi]
  · simp (disch := omega) [h2, hi]
  · have h3 : i - 24 < 8 := by omega
    simp (disch := omega) [h3, hi]

/-- Thirty-two table bits are a command word (log 11). -/
theorem decodeTableWord_command (w : Nat) :
    decodeTableWord 32 w = some (decodeCommand (BitVec.ofNat 32 w)) := by
  rw [← append_bytes_ofNat]
  rfl

/-- No format of 30_encoding.md R53 has two bytes (log 11). -/
theorem decodeTableWord_halfword (w : Nat) : decodeTableWord 16 w = none := rfl

/-- Settles O2: each word is decoded by the bits of its format. -/
theorem tableWordsDecode : Obligations.TableWordsDecode := by
  simp only [Obligations.TableWordsDecode, decodeTableWord_code, decodeTableWord_command,
    decodeTableWord_halfword]
  decide

/-! The packed byte. -/

/-- `earlier + 16 * later` (30_encoding.md R56). -/
theorem toNat_packByte (a b : Code) : (packByte a b).toNat = a.toNat + 16 * b.toNat := by
  have h := Nat.shiftLeft_add_eq_or_of_lt a.isLt b.toNat
  rw [packByte, BitVec.toNat_append, ← h, Nat.shiftLeft_eq]
  omega

/-- Settles O3: the packed byte is an append, and its halves unpack to what was packed. -/
theorem packedByteHoldsTwoCodes : Obligations.PackedByteHoldsTwoCodes := fun a b =>
  ⟨rfl, toNat_packByte a b, earlierCode_packByte a b, laterCode_packByte a b, by simp [unpackCodes]⟩

end Sys2Proof.Machine
end

section
/-! PROOFS. Codes handed over with no channel selected (30_encoding.md R54, log 5), and the reserved
opcodes (R63). -/

namespace Sys2Proof.Machine

/-- A command word never decodes to a code. -/
theorem isCommand_decodeCommand (v : Word) : (decodeCommand v).isCommand = true := by
  unfold decodeCommand
  split <;> rfl

/-- The instructions that are not commands are the decoded codes. -/
theorem exists_decodeCode (i : Instr) (h : i.isCommand = false) : ∃ c, decodeCode c = i := by
  have hdecode := decode_encode i
  cases he : encode i with
  | nib c => exact ⟨c, by rwa [he] at hdecode⟩
  | cmd v =>
    rw [he] at hdecode
    rw [← hdecode, decode, isCommand_decodeCommand] at h
    cases h

/-- With no channel there is no state a code could act on (log 5). -/
theorem runCode_of_selected_none (s : State) (d : Nat → Int) (dx : Int) (h : s.selected = none) :
    runCode s d dx = .refused .codeWithoutChannel := by
  simp only [runCode, h]

/-- Settles O12: the instruction is a decoded code, and a code without a channel is refused. -/
theorem codeWithoutChannelIsRefused : Obligations.CodeWithoutChannelIsRefused := by
  intro i s hcode hnone
  obtain ⟨c, rfl⟩ := exists_decodeCode i hcode
  rw [exec_decodeCode]
  exact runCode_of_selected_none s _ _ ((selected_none_iff s).2 hnone)

/-- Settles O37: a reserved opcode answers the failed state and no other. -/
theorem reservedOpcodesFail : Obligations.ReservedOpcodesFail := by
  intro s
  refine ⟨?_, ?_, ?_, ?_, ?_, ?_⟩ <;> exact (execReserved_next s s.failed _ (by simp)).2 rfl

end Sys2Proof.Machine
end

section
/-! PROOFS. The two constant tables (40_step_table.md R70 to R72): the order of the step sizes, from which
their bounds follow, and the index adjustments by the magnitude of a code. -/

namespace Sys2Proof.Machine

/-! The step sizes. -/

/-- 40_step_table.md R71 (b), between neighbours. -/
theorem stepSize_lt_succ : ∀ x, x < 88 → stepSize x < stepSize (x + 1) := by decide

/-- 40_step_table.md R71 (b), over the whole table. -/
theorem strictMonoOn_stepSize : StrictMonoOn stepSize (Set.Iic 88) :=
  strictMonoOn_Iic_of_lt_succ stepSize_lt_succ

/-- 40_step_table.md R71 (e): the first entry. -/
@[simp] theorem stepSize_first : stepSize 0 = 7 := rfl

/-- 40_step_table.md R71 (e): the last entry. -/
@[simp] theorem stepSize_last : stepSize 88 = 32767 := rfl

/-- 40_step_table.md R71 (d): a rising table lies between its ends. -/
theorem stepSize_bounds (x : Nat) (hx : x ≤ 88) : 7 ≤ stepSize x ∧ stepSize x ≤ 32767 :=
  have hmono := strictMonoOn_stepSize.monotoneOn
  ⟨hmono (Nat.zero_le 88) hx (Nat.zero_le x), hmono hx Set.self_mem_Iic hx⟩

/-- Settles O4: the neighbours rise, so the ends bound every entry. -/
theorem stepTableShape : Obligations.StepTableShape :=
  ⟨rfl, stepSize_lt_succ, stepSize_bounds, stepSize_first, stepSize_last⟩

/-! The index adjustments. -/

/-- `m = code & 0x7` (40_step_table.md R72), as a number. -/
theorem magnitude_toNat (c : Code) : (magnitude c).toNat = c.toNat % 8 := by
  simp [magnitude]

/-- Adding 8 moves only the sign bit (30_encoding.md R54). -/
theorem magnitude_add_eight (c : Code) : magnitude (c + 8) = magnitude c := by
  apply BitVec.eq_of_toNat_eq
  have hsum : (c + 8).toNat = (c.toNat + 8) % 16 := BitVec.toNat_add c 8
  rw [magnitude_toNat, magnitude_toNat, hsum]
  omega

/-- Settles O5: the adjustment is a function of the magnitude, which the sign bit does not enter. -/
theorem indexDeltaTable : Obligations.IndexDeltaTable :=
  ⟨rfl, fun c => ⟨magnitude_toNat c, congrArg indexDelta (magnitude_add_eight c)⟩⟩

end Sys2Proof.Machine
end

section
/-! PROOFS. The dequantizer and predictor (41_dequantizer_predictor.md R75 to R96): `Delta` as a sum of
truncated parts and its bounds, the sixteen transitions, the codes as instructions, and STEP. -/

namespace Sys2Proof.Machine

/-! `Delta` (R76). -/

/-- A bit of a code selects its summand as a factor 0 or 1. -/
theorem ite_getLsbD_eq_mul (c : Code) (i n : Nat) :
    (if c.getLsbD i then n else 0) = c.toNat / 2 ^ i % 2 * n := by
  rw [BitVec.getLsbD, Nat.testBit_eq_decide_div_mod_eq]
  rcases Nat.mod_two_eq_zero_or_one (c.toNat / 2 ^ i) with hbit | hbit <;> simp [hbit]

/-- R76 before the sign: each part is truncated on its own. -/
theorem deltaMagnitude_eq_sum (step : Nat) (c : Code) : deltaMagnitude step c =
    step / 8 + c.toNat % 2 * (step / 4) + c.toNat / 2 % 2 * (step / 2) + c.toNat / 4 % 2 * step := by
  simp only [deltaMagnitude, ite_getLsbD_eq_mul, Nat.shiftRight_eq_div_pow]
  norm_num

/-- Bit 3 is the sign of `Delta`. -/
theorem delta_eq_sign_mul (step : Nat) (c : Code) :
    delta step c = (if c.toNat / 8 % 2 = 1 then -1 else 1) * (deltaMagnitude step c : Int) := by
  have hsign : c.getLsbD 3 = decide (c.toNat / 8 % 2 = 1) := Nat.testBit_eq_decide_div_mod_eq
  rw [delta, hsign]
  split <;> simp_all

/-- Settles O6: the bits of the code are the factors of the parts, and bit 3 is the sign. -/
theorem deltaIsSumOfTruncatedParts : Obligations.DeltaIsSumOfTruncatedParts :=
  ⟨fun step c _ => deltaMagnitude_eq_sum step c ▸ delta_eq_sign_mul step c, rfl⟩

/-! The ranges before clipping (R78). -/

/-- The sign of `Delta` does not enter its size. -/
theorem natAbs_delta (step : Nat) (c : Code) : (delta step c).natAbs = deltaMagnitude step c := by
  rw [delta]
  split <;> simp

/-- The size of `Delta` is largest with all three magnitude bits set. -/
theorem deltaMagnitude_le (step : Nat) (c : Code) :
    deltaMagnitude step c ≤ step / 8 + step / 4 + step / 2 + step := by
  have hpart : ∀ i n, (if c.getLsbD i then n else 0) ≤ n := fun i n => by split <;> simp
  simp only [deltaMagnitude, Nat.shiftRight_eq_div_pow]
  gcongr <;> apply hpart

/-- 40_step_table.md R72: no adjustment is below -1 or above 8. -/
theorem indexDelta_bounds : ∀ m : BitVec 3, -1 ≤ indexDelta m ∧ indexDelta m ≤ 8 := by decide

/-- Settles O10: the bounds are those of the largest step, 32767, and of the ends of the domain. -/
theorem transitionIntermediatesBounded : Obligations.TransitionIntermediatesBounded := by
  rintro s c ⟨hlow, hhigh, hx⟩
  have hstep := (stepSize_bounds s.x hx).2
  have hmag := deltaMagnitude_le (stepSize s.x) c
  have habs := natAbs_delta (stepSize s.x) c
  obtain ⟨hdown, hup⟩ := indexDelta_bounds (magnitude c)
  omega

/-! The sixteen transitions (R79 to R95). -/

/-- A code whose `Delta` and index adjustment are `d` and `dx` moves by them: R77, whose parts the rules
R80 to R95 write out. -/
theorem moves_of_delta (c : Code) (d : Nat → Int) (dx : Int) (hd : ∀ step, delta step c = d step)
    (hdx : indexDelta (magnitude c) = dx) : Claims.Moves c d dx := by
  intro p x _
  rw [← hd, ← hdx]
  rfl

/-- Settles O7: for each code, its bits leave of R76's sum the parts its rule names. -/
theorem positiveCodesTransition : Obligations.PositiveCodesTransition := by
  refine ⟨?_, ?_, ?_, ?_, ?_, ?_, ?_, ?_⟩ <;>
    exact moves_of_delta _ _ _ (fun step => by simp [delta_eq_sign_mul, deltaMagnitude_eq_sum]) rfl

/-- Settles O8: as for sign 0, with the sum negated. -/
theorem negativeCodesTransition : Obligations.NegativeCodesTransition := by
  refine ⟨?_, ?_, ?_, ?_, ?_, ?_, ?_, ?_⟩ <;>
    exact moves_of_delta _ _ _ (fun step => by simp [delta_eq_sign_mul, deltaMagnitude_eq_sum]) rfl

/-- Settles O9: both components are clipped into the domain, whatever the old state. -/
theorem transitionKeepsDomain : Obligations.TransitionKeepsDomain :=
  fun s c _ => ⟨transition_inDomain s c, transition_sample s c⟩

/-! The codes as instructions (R77, 30_encoding.md R54; log 5). -/

/-- The instruction of a code runs that code. -/
theorem runsCode_decodeCode (c : Code) : Claims.RunsCode (decodeCode c) c :=
  exec_decodeCode_of_selected c

/-- Settles O11: each of the sixteen instructions is the decoding of its code. -/
theorem codesCompleteWithTheirTransition : Obligations.CodesCompleteWithTheirTransition :=
  ⟨runsCode_decodeCode 0x0, runsCode_decodeCode 0x1, runsCode_decodeCode 0x2, runsCode_decodeCode 0x3,
    runsCode_decodeCode 0x4, runsCode_decodeCode 0x5, runsCode_decodeCode 0x6, runsCode_decodeCode 0x7,
    runsCode_decodeCode 0x8, runsCode_decodeCode 0x9, runsCode_decodeCode 0xA, runsCode_decodeCode 0xB,
    runsCode_decodeCode 0xC, runsCode_decodeCode 0xD, runsCode_decodeCode 0xE, runsCode_decodeCode 0xF⟩

/-- A code executed alone completes exactly on a selected channel, with its transition. -/
theorem exec_decodeCode_next (c : Code) (s t : State) : exec (decodeCode c) s = .next t ↔
    ∃ k, s.selected = some k ∧ t = s.setSelected (transition k.state c).1.chan := by
  rw [exec_decodeCode]
  exact runCode_next ..

/-! STEP (R96). -/

/-- The index byte of a clipped index: the clip is never negative, so no sign is lost. -/
theorem ofNat_clipIndex (n : Nat) (v : Int) :
    BitVec.ofNat n (clipIndex v) = BitVec.ofInt n (clip v 0 88) := by
  have hnonneg : 0 ≤ clip v 0 88 := (clip_mem v 0 88 (by decide)).1
  rw [← BitVec.ofInt_natCast]
  exact congrArg _ (Int.toNat_of_nonneg hnonneg)

/-- A sample shown in 32 bits is its 16-bit pattern sign-extended (R96). -/
theorem signExtend_u16 (r : Int) (h : IsSample r) : (u16 r).signExtend 32 = BitVec.ofInt 32 r :=
  congrArg (BitVec.ofInt 32) (sext16_u16 r h)

/-- STEP fails with no channel selected. -/
theorem exec_step_of_noChannel (s : State) (h : s.NoChannel) : exec .step s = .next s.failed :=
  (execStep_next s s.failed).2 (.inl ⟨(selected_none_iff s).2 h, rfl⟩)

/-- STEP on a selected channel moves it, shows the new sample and completes. -/
theorem exec_step_of_selected (s : State) (k : Chan) (h : s.selected = some k) :
    exec .step s = .next (((s.setSelected (transition k.state s.args.code).1.chan).setSample
      (transition k.state s.args.code).2).done 0) :=
  (execStep_next s _).2 (.inr ⟨k, h, rfl⟩)

/-- Settles O13: the two cases are those of the selected channel, and the index byte is the clipped
index. -/
theorem stepResult : Obligations.StepResult := by
  refine ⟨exec_step_of_noChannel, ?_⟩
  rintro s ch r hch rfl
  rw [exec_step_of_selected s ch hch, ← ofNat_clipIndex]
  rfl

/-- Settles O14: the code completes on the selected channel, STEP writes the same state there, and that
register holds the reconstructed sample. -/
theorem stepIsOneCode : Obligations.StepIsOneCode := by
  intro s u c hcode hc
  obtain ⟨k, hk, rfl⟩ := (exec_decodeCode_next s.args.code s u).1 hcode
  obtain rfl : (transition k.state s.args.code).1.chan = c :=
    Option.some.inj ((selected_setSelected s k _ hk).symm.trans hc)
  have hsample : (transition k.state s.args.code).1.chan.pred.signExtend 32 =
      BitVec.ofInt 32 (transition k.state s.args.code).2 := signExtend_u16 _ (transition_isSample ..)
  rw [exec_step_of_selected s k hk, hsample]
  rfl

end Sys2Proof.Machine
end

section
/-! PROOFS. The selector (42_lookahead_code_selector.md R99 to R108): the greedy code, the two error
metrics, and `Search` at each depth as the first code of least total in the order `g, 0, 1, ..., 15`. -/

namespace Sys2Proof.Machine

/-! The greedy code (R99). -/

/-- The greedy code as a number: 8 for a negative difference, and the capped quotient. -/
theorem greedy_toNat (s : Adaptive) (t : Int) : (greedy s t).toNat =
    (if t - s.p < 0 then 8 else 0) + min 7 (4 * (t - s.p).natAbs / stepSize s.x) := by
  have hshift : (t - s.p).natAbs <<< 2 = 4 * (t - s.p).natAbs := by rw [Nat.shiftLeft_eq]; omega
  simp only [greedy, hshift, BitVec.toNat_ofNat]
  generalize 4 * (t - s.p).natAbs / stepSize s.x = q
  split <;> omega

/-- Bit 3 of a code as a number (30_encoding.md R54). -/
theorem getLsbD_three (c : Code) : c.getLsbD 3 = decide (8 ≤ c.toNat) := by
  have hbit : c.getLsbD 3 = decide (c.toNat / 8 % 2 = 1) := Nat.testBit_eq_decide_div_mod_eq
  rw [hbit, decide_eq_decide]
  omega

/-- Settles O17: the cap keeps the quotient below 8, so the greedy code's number splits into the sign
and the magnitude. -/
theorem greedyCodeRule : Obligations.GreedyCodeRule := by
  intro s t _ _
  have hnat := greedy_toNat s t
  generalize 4 * (t - s.p).natAbs / stepSize s.x = q at hnat ⊢
  refine ⟨?_, ?_, ?_⟩
  · rw [getLsbD_three, hnat, decide_eq_decide]
    split <;> omega
  · rw [magnitude_toNat, hnat]
    split <;> omega
  · exact BitVec.eq_of_toNat_eq (by simp [greedy_toNat])

/-! The error metrics (R101). -/

/-- The squared error is the square of the absolute error. -/
theorem err_squared_eq_sq (r t : Int) : err .squared r t = err .absolute r t ^ 2 := by
  simp only [err, sq, ← Int.natAbs_mul_self' (r - t)]
  exact Int.toNat_natCast _

/-- Two samples are at most 65535 apart. -/
theorem err_absolute_le (r t : Int) (hr : IsSample r) (ht : IsSample t) : err .absolute r t ≤ 65535 := by
  obtain ⟨hr₁, hr₂⟩ := hr
  obtain ⟨ht₁, ht₂⟩ := ht
  simp only [err]
  omega

/-- Settles O19: the absolute error's bound, and its square. -/
theorem errorMetricBounds : Obligations.ErrorMetricBounds := by
  intro r t hr ht
  have habs := err_absolute_le r t hr ht
  refine ⟨Int.toNat_of_nonneg (mul_self_nonneg _), ?_, Int.natCast_natAbs _, habs⟩
  calc err .squared r t = err .absolute r t ^ 2 := err_squared_eq_sq r t
    _ ≤ 65535 ^ 2 := Nat.pow_le_pow_left habs 2

/-! The first code of least cost (R103 to R105). -/

/-- The running minimum of step 5 of `Search`: from code `g`, over the fifteen others. -/
def firstLeast (cost imm : Code → Nat) (g : Code) : Choice :=
  (allCodes.filter (· != g)).foldl (takeIfLess cost imm) ⟨g, imm g, cost g⟩

/-- `r` is the code R105 selects: of least cost; and `g`, or strictly cheaper than `g` and the smallest
of its cost. -/
structure IsFirstLeast (cost : Code → Nat) (g r : Code) : Prop where
  le (c : Code) : cost r ≤ cost c
  eq_or_lt : r = g ∨ cost r < cost g
  smallest (h : r ≠ g) (c : Code) (hc : cost c = cost r) : r.toNat ≤ c.toNat

/-- A code is `g` or one of the fifteen others. -/
theorem eq_or_mem_otherCodes (g c : Code) : c = g ∨ c ∈ allCodes.filter (· != g) := by
  by_cases h : c = g
  · exact .inl h
  · exact .inr (List.mem_filter.2 ⟨mem_allCodes c, by simpa using h⟩)

/-- The running minimum ends at the code R105 selects. -/
theorem exists_firstLeast_eq (cost imm : Code → Nat) (g : Code) :
    ∃ r, firstLeast cost imm g = ⟨r, imm r, cost r⟩ ∧ IsFirstLeast cost g r := by
  obtain ⟨r, heq, hg, hle, hr, hmin⟩ := foldl_takeIfLess cost imm _ (otherCodes_ascending g) g
  refine ⟨r, heq, fun c => ?_, hr.imp_right And.right, fun hne c hc => ?_⟩
  · rcases eq_or_mem_otherCodes g c with rfl | hmem
    · exact hg
    · exact hle c hmem
  · rcases eq_or_mem_otherCodes g c with rfl | hmem
    · rcases hr with heq | ⟨-, hlt⟩
      · exact absurd heq hne
      · omega
    · exact hmin hne c hmem hc

/-- In a list of rising codes, `find?` gives the smallest code that passes. -/
theorem find?_eq_some_of_ascending (p : Code → Bool) (r : Code) (l : List Code)
    (hl : l.Pairwise fun a b => a.toNat < b.toNat) (hmem : r ∈ l) (hp : p r = true)
    (hmin : ∀ c, p c = true → r.toNat ≤ c.toNat) : l.find? p = some r := by
  induction l with
  | nil => cases hmem
  | cons a l ih =>
    obtain ⟨hlt, hl⟩ := List.pairwise_cons.1 hl
    rcases List.mem_cons.1 hmem with rfl | hmem
    · exact List.find?_cons_of_pos hp
    · have ha : ¬ p a = true := fun ha => Nat.not_lt.2 (hmin a ha) (hlt r hmem)
      rw [List.find?_cons_of_neg ha, ih hl hmem]

/-- The code R105 selects is the first to attain its cost in the order `g, 0, 1, ..., 15`. -/
theorem IsFirstLeast.find?_eq {cost : Code → Nat} {g r : Code} (h : IsFirstLeast cost g r) :
    (g :: allCodes).find? (fun c => cost c == cost r) = some r := by
  by_cases hg : r = g
  · exact hg ▸ List.find?_cons_of_pos (beq_self_eq_true _)
  · have hlt : cost r < cost g := h.eq_or_lt.resolve_left hg
    rw [List.find?_cons_of_neg (by simpa using hlt.ne')]
    exact find?_eq_some_of_ascending _ r _ (by decide) (mem_allCodes r) (beq_self_eq_true _)
      fun c hc => h.smallest hg c (beq_iff_eq.1 hc)

/-- The least cost over all codes is that of the code R105 selects. -/
theorem IsFirstLeast.min?_eq {cost : Code → Nat} {g r : Code} (h : IsFirstLeast cost g r) :
    (allCodes.map cost).min? = some (cost r) := by
  rw [List.min?_eq_some_iff]
  exact ⟨List.mem_map_of_mem (mem_allCodes r), by simpa using fun c _ => h.le c⟩

/-! `Search` (R103, R104, R106). -/

section
variable (m : Config.ErrMetric) (d : Nat) (s : Adaptive) (w : List Int)

/-- The immediate error of taking code `c` first. -/
def immOf (c : Code) : Nat := err m (transition s c).2 (headSample w)

/-- The least total with code `c` taken first, at depth `d + 1` (R106). -/
def totalOf (c : Code) : Nat := costOf m (fun s' => minTotal m d s' w.tail) s (headSample w) c

/-- The search above depth 0: the prune changes no candidate's outcome. -/
theorem search_succ : search m (d + 1) s w =
    firstLeast (costOf m (fun s' => (search m d s' w.tail).total) s (headSample w)) (immOf m s w)
      (greedy s (headSample w)) := by
  have htry := funext₂ (tryCode_eq_takeIfLess m s (headSample w) fun s' => (search m d s' w.tail).total)
  rw [search, htry]
  rfl

/-- The unpruned search above depth 0 is the same running minimum. -/
theorem searchUnpruned_succ : searchUnpruned m (d + 1) s w =
    firstLeast (costOf m (fun s' => (searchUnpruned m d s' w.tail).total) s (headSample w)) (immOf m s w)
      (greedy s (headSample w)) := rfl

/-- The prune never changes the result (R104). -/
theorem search_eq_searchUnpruned : search m d s w = searchUnpruned m d s w := by
  induction d generalizing s w with
  | zero => rfl
  | succ d ih => simp only [search_succ, searchUnpruned_succ, ih]

/-- The least total above depth 0, by the code R105 selects. -/
theorem minTotal_succ {g r : Code} (h : IsFirstLeast (totalOf m d s w) g r) :
    minTotal m (d + 1) s w = totalOf m d s w r :=
  congrArg (Option.getD · 0) h.min?_eq

/-- The search above depth 0 returns the code R105 selects, with its immediate error and its total, when
the searches below return the least totals. -/
theorem exists_search_succ_of_total
    (htotal : ∀ s', (search m d s' w.tail).total = minTotal m d s' w.tail) :
    ∃ r, search m (d + 1) s w = ⟨r, immOf m s w r, minTotal m (d + 1) s w⟩ ∧
      IsFirstLeast (totalOf m d s w) (greedy s (headSample w)) r := by
  obtain ⟨r, heq, hr⟩ := exists_firstLeast_eq (totalOf m d s w) (immOf m s w) (greedy s (headSample w))
  refine ⟨r, ?_, hr⟩
  rw [minTotal_succ m d s w hr, ← heq, search_succ, funext htotal]
  rfl

/-- The search's total is the least total (R106). -/
theorem search_total : (search m d s w).total = minTotal m d s w := by
  induction d generalizing s w with
  | zero => rfl
  | succ d ih =>
    obtain ⟨r, heq, -⟩ := exists_search_succ_of_total m d s w fun s' => ih s' w.tail
    rw [heq]

/-- The search above depth 0 returns the code R105 selects, with its immediate error and its total. -/
theorem exists_search_succ_eq :
    ∃ r, search m (d + 1) s w = ⟨r, immOf m s w r, minTotal m (d + 1) s w⟩ ∧
      IsFirstLeast (totalOf m d s w) (greedy s (headSample w)) r :=
  exists_search_succ_of_total m d s w fun s' => search_total m d s' w.tail

/-- The immediate error the search returns is that of its code. -/
theorem search_imm :
    (search m d s w).imm = err m (transition s (search m d s w).code).2 (headSample w) := by
  cases d with
  | zero => rfl
  | succ d =>
    obtain ⟨r, heq, -⟩ := exists_search_succ_eq m d s w
    rw [heq]
    rfl

end

/-- Settles O22: by induction on the depth. -/
theorem searchPruneIsSound : Obligations.SearchPruneIsSound := search_eq_searchUnpruned

/-- Settles O20: the total by induction on the depth; above depth 0 the code is the one R105 selects,
which is the first of its cost. -/
theorem searchTotalIsMinTotal : Obligations.SearchTotalIsMinTotal := by
  intro m depth s w
  refine ⟨search_total m depth s w, search_imm m depth s w, ?_⟩
  rintro d rfl
  obtain ⟨r, heq, hr⟩ := exists_search_succ_eq m d s w
  rw [heq, minTotal_succ m d s w hr]
  exact hr.find?_eq

/-- Settles O21: the code the search returns is the one R105 selects. -/
theorem searchTieRule : Obligations.SearchTieRule := by
  rintro m d s w _ rfl
  obtain ⟨r, heq, hr⟩ := exists_search_succ_eq m d s w
  have hmin := minTotal_succ m d s w hr
  rw [heq]
  refine ⟨hmin.symm, hr.le, fun hgreedy => ?_, fun hgreedy c hc => ?_⟩
  · exact hr.eq_or_lt.resolve_right (Nat.not_lt.2 (hgreedy r))
  · exact hr.smallest (fun heq => hgreedy (heq ▸ hr.le)) c (hc.trans hmin)

/-! Lookahead 0 (R108). -/

/-- Coding one sample at lookahead 0 takes its greedy code. -/
theorem encodeSample_zero_code (m : Config.ErrMetric) (s : Adaptive) (w : List Int) :
    (encodeSample m 0 s w).code = greedy s (headSample w) := by
  simp only [encodeSample, Nat.zero_min]
  rfl

/-- A run coded at lookahead 0 is the greedy stream (43_stream_codec.md R122). -/
theorem encodeRun_zero_codes (m : Config.ErrMetric) (s : Adaptive) (w : List Int) :
    (encodeRun m 0 s w).codes = greedyRun s w := by
  induction w generalizing s with
  | nil => rfl
  | cons t w ih =>
    have hcode := encodeSample_zero_code m s (t :: w)
    have hstate : (encodeSample m 0 s (t :: w)).state = (transition s (greedy s t)).1 :=
      congrArg (fun c => (transition s c).1) hcode
    simp only [encodeRun, greedyRun, hcode, hstate, ih, headSample_cons]

/-- Settles O23: depth 0 by definition, the run sample by sample. -/
theorem lookaheadZeroIsGreedy : Obligations.LookaheadZeroIsGreedy :=
  fun m s w => ⟨rfl, encodeRun_zero_codes m s w⟩

/-! CHOOSE (R109). -/

/-- CHOOSE fails on each of its causes (60_exceptions.md R138). -/
theorem exec_choose_of_cause (s : State) (h : InvalidCause .choose s) :
    exec .choose s = .next s.failed := by
  simp only [exec, execChoose]
  rcases hch : s.selected with _ | ch
  · rfl
  · have hparam : s.args.srcAddr = 0 ∨ s.count ≤ 0 := h.resolve_left fun hno => by
      simp [(selected_none_iff s).2 hno] at hch
    by_cases hsrc : s.srcAbsent = true
    · exact if_pos hsrc
    · have hcount : s.count ≤ 0 := hparam.resolve_left fun h0 => hsrc ((srcAbsent_iff s).2 h0)
      exact (if_neg hsrc).trans (if_pos hcount)

/-- CHOOSE with valid parameters whose input extent fits shows the search's code and error. -/
theorem exec_choose_of_fits (s : State) (ch : Chan) (depth : Nat) (hch : s.selected = some ch)
    (hsrc : s.args.srcAddr ≠ 0) (hcount : ¬ s.count ≤ 0)
    (hdepth : depth = min s.lookahead (s.count.toNat - 1))
    (hfits : s.fits ⟨s.src, 2 * (1 + depth)⟩ noBuffer = true) (r : Choice)
    (hr : r = search errMetric depth ch.state (readSamples s.mem s.src 1 0 (depth + 1))) :
    exec .choose s = .next ((s.setChoice r.code r.imm).done 0) := by
  subst hdepth hr
  simp only [exec, execChoose, hch, srcAbsent_eq_false hsrc, if_neg hcount, Bool.false_eq_true, if_false,
    withBuffers_of_fits _ _ _ _ hfits]
  rfl

/-- The samples of one channel's buffer stand two bytes apart (20_memory.md R46). -/
theorem readSamples_one (m : Memory) (a len : Nat) : readSamples m a 1 0 len =
    (List.range len).map fun i => (readHalf m (a + 2 * i)).toInt := by
  simp only [readSamples, readSample, sext16, Nat.mul_one, Nat.add_zero]

/-- Settles O24: each cause fails, and where the extent fits the buffer check lets the search run. -/
theorem chooseResult : Obligations.ChooseResult := by
  refine ⟨exec_choose_of_cause, ?_⟩
  intro s ch n depth r hch hsrc hn hpos hdepth hfits hr
  have hcount : s.count = n := hn
  have hdepth' : depth = min s.lookahead (s.count.toNat - 1) := by rw [hcount, hdepth]; rfl
  rw [← readSamples_one] at hr
  exact exec_choose_of_fits s ch depth hch hsrc (by omega) hdepth' hfits r hr

end Sys2Proof.Machine
end

section
/-! PROOFS. Runs sample by sample and code by code (42_lookahead_code_selector.md R102, 43_stream_codec.md
R111, R112, R117): the states a run of codes passes through, which are also those of the coded run. -/

namespace Sys2Proof.Machine

/-- The state a decoded run is in before code `k`: after the first `k` codes. -/
def decodeStateAt (s : Adaptive) (cs : List Code) (k : Nat) : Adaptive := (decodeRun s (cs.take k)).2

/-- A run is at its start before its first code. -/
@[simp] theorem decodeStateAt_zero (s : Adaptive) (cs : List Code) : decodeStateAt s cs 0 = s := rfl

/-- A run is at its end after its last code. -/
@[simp] theorem decodeStateAt_length (s : Adaptive) (cs : List Code) :
    decodeStateAt s cs cs.length = (decodeRun s cs).2 := by
  rw [decodeStateAt, List.take_length]

/-- Dropping the first code starts the run from the state that code leaves. -/
theorem decodeStateAt_cons_succ (s : Adaptive) (c : Code) (cs : List Code) (k : Nat) :
    decodeStateAt s (c :: cs) (k + 1) = decodeStateAt (transition s c).1 cs k := rfl

/-- Code `k` moves the state before it to the state after it, and sample `k` is that transition's. -/
theorem decodeRun_step (s : Adaptive) (cs : List Code) (k : Nat) (c : Code) (h : cs[k]? = some c) :
    decodeStateAt s cs (k + 1) = (transition (decodeStateAt s cs k) c).1 ∧
      (decodeRun s cs).1[k]? = some (transition (decodeStateAt s cs k) c).2 := by
  induction cs generalizing s k with
  | nil => cases h
  | cons a cs ih =>
    cases k with
    | zero =>
      obtain rfl : a = c := Option.some.inj h
      exact ⟨rfl, rfl⟩
    | succ k => exact ih (transition s a).1 k h

section
variable (m : Config.ErrMetric) (l : Nat)

/-- The state a coded run is in before sample `k`: that of its codes. -/
def encodeStateAt (s : Adaptive) (w : List Int) (k : Nat) : Adaptive :=
  decodeStateAt s (encodeRun m l s w).codes k

/-- What the search gives at sample `k` of a coded run, over the samples from `k` on (R102). -/
def choiceAt (s : Adaptive) (w : List Int) (k : Nat) : Choice :=
  search m (min l (w.length - 1 - k)) (encodeStateAt m l s w k) (w.drop k)

/-- A coded run is at its end after its last sample. -/
theorem encodeStateAt_length (s : Adaptive) (w : List Int) :
    encodeStateAt m l s w w.length = (encodeRun m l s w).state := by
  rw [encodeStateAt, ← encodeRun_length m l s w, decodeStateAt_length, decodeRun_encodeRun]

/-- Coding the sample at `k` takes the search's code there. -/
theorem encodeSample_drop (s : Adaptive) (w : List Int) (k : Nat) :
    encodeSample m l (encodeStateAt m l s w k) (w.drop k) =
      ⟨(transition (encodeStateAt m l s w k) (choiceAt m l s w k).code).1, (choiceAt m l s w k).code,
        (choiceAt m l s w k).imm⟩ := by
  have hdepth : (w.drop k).length - 1 = w.length - 1 - k := by rw [List.length_drop]; omega
  rw [encodeSample, hdepth]
  rfl

/-- The first sample is coded by the search's first choice. -/
theorem encodeSample_cons (s : Adaptive) (t : Int) (w : List Int) :
    encodeSample m l s (t :: w) = ⟨(transition s (choiceAt m l s (t :: w) 0).code).1,
      (choiceAt m l s (t :: w) 0).code, (choiceAt m l s (t :: w) 0).imm⟩ :=
  encodeSample_drop m l s (t :: w) 0

/-- Dropping the first sample leaves the choices of the others. -/
theorem choiceAt_cons_succ (s : Adaptive) (t : Int) (w : List Int) (k : Nat) :
    choiceAt m l s (t :: w) (k + 1) = choiceAt m l (encodeSample m l s (t :: w)).state w k := by
  have hdepth : (t :: w).length - 1 - (k + 1) = w.length - 1 - k := by rw [List.length_cons]; omega
  rw [choiceAt, hdepth]
  rfl

/-- Code `k` of a coded run is the search's there. -/
theorem encodeRun_codes_getElem? (s : Adaptive) (w : List Int) (k : Nat) (hk : k < w.length) :
    (encodeRun m l s w).codes[k]? = some (choiceAt m l s w k).code := by
  induction w generalizing s k with
  | nil => cases hk
  | cons t w ih =>
    cases k with
    | zero => exact congrArg some (congrArg Coded.code (encodeSample_cons m l s t w))
    | succ k =>
      rw [choiceAt_cons_succ]
      exact ih _ k (Nat.lt_of_succ_lt_succ hk)

/-- A run's error is the sum of the immediate errors (R112). -/
theorem encodeRun_err (s : Adaptive) (w : List Int) :
    (encodeRun m l s w).err = ((List.range w.length).map fun k => (choiceAt m l s w k).imm).sum := by
  induction w generalizing s with
  | nil => rfl
  | cons t w ih =>
    have himm : (encodeSample m l s (t :: w)).imm = (choiceAt m l s (t :: w) 0).imm :=
      congrArg Coded.imm (encodeSample_cons m l s t w)
    simp only [encodeRun, ih, himm, List.length_cons, List.range_succ_eq_map, List.map_cons,
      List.map_map, List.sum_cons, Function.comp_def, Nat.succ_eq_add_one, choiceAt_cons_succ]

end

/-- Settles O57: the states are those of the run's codes, and the reconstruction is what they decode
to. -/
theorem runsAreTheirStepsInOrder : Obligations.RunsAreTheirStepsInOrder := by
  refine ⟨fun m l s w => ⟨encodeStateAt m l s w, choiceAt m l s w, fun _ => rfl, rfl,
    encodeStateAt_length m l s w, encodeRun_length m l s w, fun k hk => ?_, encodeRun_err m l s w⟩,
    fun s cs => ⟨decodeStateAt s cs, rfl, decodeStateAt_length s cs, decodeRun_length s cs,
      decodeRun_step s cs⟩⟩
  have hcode := encodeRun_codes_getElem? m l s w k hk
  obtain ⟨hstate, hsample⟩ := decodeRun_step s _ k _ hcode
  rw [decodeRun_encodeRun] at hsample
  refine ⟨hstate, (encodeSample_drop m l s w k).trans ?_, hcode, hsample⟩
  exact congrArg (fun a => Coded.mk a _ _) hstate.symm

end Sys2Proof.Machine
end

section
/-! PROOFS. The stream commands on the channel `CHSEL` selects (43_stream_codec.md R113, R114, R121): the
seeds, which other channels an instruction reaches, and the error of the greedy code. -/

namespace Sys2Proof.Machine

/-! INIT_ENC and INIT_DEC (R113, R114). -/

/-- An index above 88 is refused (10_state.md R16). -/
theorem indexLegal_eq_false_iff (b : Byte) : indexLegal b = false ↔ 88 < b.toNat := by
  rw [← Bool.not_eq_true, indexLegal_iff, Nat.not_le]

/-- `CHSEL < NCH_MAX` is a channel. -/
theorem selected_ne_none (s : State) (h : s.args.chsel.toNat < s.nchMax) : s.selected ≠ none := by
  rw [ne_eq, selected_none_iff]
  exact Nat.not_le.2 h

/-- Settles O15: the two answers are those INIT_ENC's inversion lemma names. -/
theorem initEncResult : Obligations.InitEncResult := by
  intro s
  refine ⟨fun hcause => (execInitEnc_next s _).2 (.inl ⟨?_, rfl⟩), fun hch hx =>
    (execInitEnc_next s _).2 (.inr ⟨selected_ne_none s hch, (indexLegal_iff _).2 hx, rfl⟩)⟩
  rwa [selected_none_iff, indexLegal_eq_false_iff]

/-- Settles O16: the two answers are those INIT_DEC's inversion lemma names. -/
theorem initDecResult : Obligations.InitDecResult := by
  intro s
  refine ⟨fun hcause => (execInitDec_next s _).2 (.inl ⟨?_, rfl⟩), fun hch hx =>
    (execInitDec_next s _).2 (.inr ⟨selected_ne_none s hch, (indexLegal_iff _).2 hx, rfl⟩)⟩
  rwa [selected_none_iff, indexLegal_eq_false_iff]

/-! The channels an instruction does not work on. -/

/-- Writing the selected channel keeps every other one. -/
theorem setSelected_getElem?_of_ne (s : State) (d : Chan) (c : Nat) (hc : c ≠ s.args.chsel.toNat) :
    (s.setSelected d).ch[c]? = s.ch[c]? :=
  List.getElem?_set_ne hc.symm

/-- Writing the first channels keeps those from their number on. -/
theorem setFirst_getElem?_of_le (s : State) (cs : List Chan) (c : Nat) (hc : cs.length ≤ c) :
    (s.setFirst cs).ch[c]? = s.ch[c]? := by
  rw [State.setFirst_ch, List.getElem?_append_right hc, List.getElem?_drop, Nat.add_sub_cancel' hc]

section
variable {i : Instr} {s t : State} {c : Nat}

/-- The ways to complete that write no run of first channels keep every channel but the selected one. -/
theorem Completes.ch_of_ne_chsel (h : Completes s i t) (hcreate : i ≠ .ctxCreate) (hblock : i ≠ .encBlock)
    (hc : c ≠ s.args.chsel.toNat) : t.ch[c]? = s.ch[c]? := by
  cases h with
  | fail | choose | ctxFree | decBlockCorrupt | decBlock => rfl
  | code | step | initEnc | initDec | encStream | decStream => exact setSelected_getElem?_of_ne s _ c hc
  | ctxCreate => exact absurd rfl hcreate
  | encBlock => exact absurd rfl hblock

/-- CTX_CREATE keeps the channels from `NCH` on (44_block_framer.md R124). -/
theorem Completes.ch_of_ctxCreate (h : Completes s .ctxCreate t) (hc : s.args.nch.toNat ≤ c) :
    t.ch[c]? = s.ch[c]? := by
  cases h with
  | fail => rfl
  | code _ _ _ hcode => cases hcode
  | ctxCreate => exact setFirst_getElem?_of_le s _ c ((seededChannels_length s).trans_le hc)

/-- ENC_BLOCK keeps the channels from `CTX_NCH` on (44_block_framer.md R128). -/
theorem Completes.ch_of_encBlock (h : Completes s .encBlock t) (hc : s.ctx.nch.toNat ≤ c) :
    t.ch[c]? = s.ch[c]? := by
  cases h with
  | fail => rfl
  | code _ _ _ hcode => cases hcode
  | encBlock _ _ _ hn _ hb =>
    subst hb
    exact setFirst_getElem?_of_le s _ c ((codedChannels_length s _ hn).trans_le hc)

end

/-- Settles O44: by the ways an instruction can complete. -/
theorem otherChannelsAreKept : Obligations.OtherChannelsAreKept := by
  intro i s t c hexec
  have hcomp := exec_completes i s t hexec
  refine ⟨hcomp.ch_of_ne_chsel, ?_, ?_⟩
  · rintro rfl
    exact hcomp.ch_of_ctxCreate
  · rintro rfl
    exact hcomp.ch_of_encBlock

/-! The error of the greedy code (R121). -/

/-- Each part of R76 loses less than 1 to its truncation, so `Delta` before its sign is
`(2 m + 1) / 8` of the step, less at most 17 eighths. -/
theorem deltaMagnitude_near (step : Nat) (c : Code) :
    8 * deltaMagnitude step c ≤ 2 * ((magnitude c).toNat * step) + step ∧
      2 * ((magnitude c).toNat * step) + step ≤ 8 * deltaMagnitude step c + 17 := by
  have hbits : c.toNat % 8 = c.toNat % 2 + 2 * (c.toNat / 2 % 2) + 4 * (c.toNat / 4 % 2) := by omega
  rw [deltaMagnitude_eq_sum, magnitude_toNat, hbits]
  rcases Nat.mod_two_eq_zero_or_one c.toNat with h0 | h0 <;>
  rcases Nat.mod_two_eq_zero_or_one (c.toNat / 2) with h1 | h1 <;>
  rcases Nat.mod_two_eq_zero_or_one (c.toNat / 4) with h2 | h2 <;>
  · rw [h0, h1, h2]
    omega

/-- Settles O18: the difference lies between `q` and `q + 1` quarters of the step, and `Delta`, of the same
sign, near the middle; a step of at least 7 outweighs what the truncations lose. -/
theorem greedyErrorBelowStep : Obligations.GreedyErrorBelowStep := by
  intro s t hs ht hquot hclip
  obtain ⟨hsign, hmag, -⟩ := greedyCodeRule s t hs ht
  have hstep := (stepSize_bounds s.x hs.2.2).1
  have hnear := deltaMagnitude_near (stepSize s.x) (greedy s t)
  have hsample : (transition s (greedy s t)).2 = s.p + delta (stepSize s.x) (greedy s t) :=
    clip_of_mem _ _ _ hclip.1 hclip.2
  have hlow := Nat.div_mul_le_self (4 * (t - s.p).natAbs) (stepSize s.x)
  have hhigh := Nat.lt_div_mul_add (a := 4 * (t - s.p).natAbs) (b := stepSize s.x) (by omega)
  rw [hmag, Nat.min_eq_right hquot] at hnear
  simp only [hsample, delta, hsign, decide_eq_true_eq]
  split <;> omega

end Sys2Proof.Machine
end

section
/-! PROOFS. ENC_STREAM and DEC_STREAM (43_stream_codec.md R115 to R120): when each fails and when it
succeeds, the state it then leaves, what the codes it packed read back as, and what that gives for a round
trip, for two encoders, and for a run decoded in two pieces. -/

namespace Sys2Proof.Machine

/-! The parameters of a stream command. -/

/-- The checks with which both stream commands begin (R115, R117), before the rest of the command. -/
def withStreamParams (s : State) (body : Chan → Outcome) : Outcome :=
  match s.selected with
  | none => failInvalidParam s
  | some ch =>
    if s.srcAbsent || s.dstAbsent then failInvalidParam s
    else if s.count ≤ 0 then failInvalidParam s
    else body ch

/-- The parameters of a stream command of `n` samples on channel value `ch` are valid and its extents
fit. -/
structure StreamReady (s : State) (ch : Chan) (n : Nat) (input output : Span) : Prop where
  selected : s.selected = some ch
  src_ne_zero : s.args.srcAddr ≠ 0
  dst_ne_zero : s.args.dstAddr ≠ 0
  count_eq : s.count = n
  pos : 0 < n
  fits : s.fits input output = true

/-- Each cause of the table of 60_exceptions.md R138, which gives both commands the same, is checked. -/
theorem withStreamParams_of_cause (s : State) (body : Chan → Outcome)
    (h : InvalidCause .encStream s) : withStreamParams s body = .next s.failed := by
  rw [withStreamParams]
  rcases hch : s.selected with _ | ch
  · rfl
  · have hparam : s.args.srcAddr = 0 ∨ s.args.dstAddr = 0 ∨ s.count ≤ 0 := h.resolve_left fun hno => by
      simp [(selected_none_iff s).2 hno] at hch
    by_cases habsent : (s.srcAbsent || s.dstAbsent) = true
    · exact if_pos habsent
    · rw [Bool.or_eq_true, srcAbsent_iff, dstAbsent_iff] at habsent
      have hcount : s.count ≤ 0 := by tauto
      simp [hcount, failInvalidParam, State.failed]

/-- Valid parameters pass the checks. -/
theorem StreamReady.withStreamParams_eq {s : State} {ch : Chan} {n : Nat} {input output : Span}
    (h : StreamReady s ch n input output) (body : Chan → Outcome) :
    withStreamParams s body = body ch := by
  have hcount : ¬ s.count ≤ 0 := by
    have := h.pos
    rw [h.count_eq]
    omega
  simp only [withStreamParams, h.selected, srcAbsent_eq_false h.src_ne_zero,
    dstAbsent_eq_false h.dst_ne_zero, if_neg hcount, Bool.or_self, Bool.false_eq_true, if_false]

/-! The state each command leaves. -/

/-- The run ENC_STREAM codes. -/
def encStreamRun (s : State) (ch : Chan) (n : Nat) : Run :=
  encodeRun errMetric s.lookahead ch.state (readSamples s.mem s.src 1 0 n)

/-- The state a succeeding ENC_STREAM leaves. -/
def encStreamState (s : State) (ch : Chan) (n : Nat) : State :=
  (((s.setSelected (encStreamRun s ch n).state.chan).addError (encStreamRun s ch n).err).store s.dst
    (packCodes (encStreamRun s ch n).codes)).done (packedLength n)

/-- The run DEC_STREAM decodes. -/
def decStreamRun (s : State) (ch : Chan) (n : Nat) : List Int × Adaptive :=
  decodeRun ch.state (readCodes s.mem s.src n)

/-- The state a succeeding DEC_STREAM leaves. -/
def decStreamState (s : State) (ch : Chan) (n : Nat) : State :=
  ((s.setSelected (decStreamRun s ch n).2.chan).store s.dst
    ((decStreamRun s ch n).1.flatMap sampleBytes)).done n

/-- ENC_STREAM's parameters are valid and its extents (20_memory.md R48) fit. -/
abbrev EncStreamReady (s : State) (ch : Chan) (n : Nat) : Prop :=
  StreamReady s ch n ⟨s.src, 2 * n⟩ ⟨s.dst, packedLength n⟩

/-- DEC_STREAM's parameters are valid and its extents (20_memory.md R48) fit. -/
abbrev DecStreamReady (s : State) (ch : Chan) (n : Nat) : Prop :=
  StreamReady s ch n ⟨s.src, packedLength n⟩ ⟨s.dst, 2 * n⟩

/-- ENC_STREAM is its parameter checks, its buffer check and its run. -/
theorem exec_encStream_eq (s : State) : exec .encStream s = withStreamParams s fun ch =>
    withBuffers s ⟨s.src, 2 * s.count.toNat⟩ ⟨s.dst, packedLength s.count.toNat⟩
      (.next (encStreamState s ch s.count.toNat)) := rfl

/-- DEC_STREAM is its parameter checks, its buffer check and its run. -/
theorem exec_decStream_eq (s : State) : exec .decStream s = withStreamParams s fun ch =>
    withBuffers s ⟨s.src, packedLength s.count.toNat⟩ ⟨s.dst, 2 * s.count.toNat⟩
      (.next (decStreamState s ch s.count.toNat)) := rfl

section
variable {s t : State} {ch : Chan} {n : Nat}

/-- ENC_STREAM with valid parameters and fitting extents succeeds. -/
theorem exec_encStream_of_ready (h : EncStreamReady s ch n) :
    exec .encStream s = .next (encStreamState s ch n) := by
  rw [exec_encStream_eq, h.withStreamParams_eq, h.count_eq, Int.toNat_natCast,
    withBuffers_of_fits _ _ _ _ h.fits]

/-- DEC_STREAM with valid parameters and fitting extents succeeds. -/
theorem exec_decStream_of_ready (h : DecStreamReady s ch n) :
    exec .decStream s = .next (decStreamState s ch n) := by
  rw [exec_decStream_eq, h.withStreamParams_eq, h.count_eq, Int.toNat_natCast,
    withBuffers_of_fits _ _ _ _ h.fits]

/-- ENC_STREAM succeeds in no other way. -/
theorem encStream_of_success (h : exec .encStream s = .next t) (hok : t.result = .success)
    (hn : s.count = n) : ∃ ch, EncStreamReady s ch n ∧ t = encStreamState s ch n := by
  rcases execEncStream_next s t h with ⟨-, rfl⟩ | ⟨ch, hch, hsrc, hdst, hpos, hfits, r, rfl, rfl⟩
  · cases hok
  · obtain rfl : s.count.toNat = n := by omega
    refine ⟨ch, ⟨hch, ?_, ?_, hn, by omega, hfits⟩, rfl⟩
    · rwa [ne_eq, ← srcAbsent_iff, Bool.not_eq_true]
    · rwa [ne_eq, ← dstAbsent_iff, Bool.not_eq_true]

/-- DEC_STREAM succeeds in no other way. -/
theorem decStream_of_success (h : exec .decStream s = .next t) (hok : t.result = .success)
    (hn : s.count = n) : ∃ ch, DecStreamReady s ch n ∧ t = decStreamState s ch n := by
  rcases execDecStream_next s t h with ⟨-, rfl⟩ | ⟨ch, hch, hsrc, hdst, hpos, hfits, r, rfl, rfl⟩
  · cases hok
  · obtain rfl : s.count.toNat = n := by omega
    refine ⟨ch, ⟨hch, ?_, ?_, hn, by omega, hfits⟩, rfl⟩
    · rwa [ne_eq, ← srcAbsent_iff, Bool.not_eq_true]
    · rwa [ne_eq, ← dstAbsent_iff, Bool.not_eq_true]

/-- DEC_STREAM writes the selected channel alone. -/
theorem decStreamState_ch (s : State) (ch : Chan) (n : Nat) : (decStreamState s ch n).ch =
    s.ch.set s.args.chsel.toNat (decStreamRun s ch n).2.chan := rfl

/-- DEC_STREAM stores its samples. -/
theorem decStreamState_mem (s : State) (ch : Chan) (n : Nat) : (decStreamState s ch n).mem =
    writeBytes s.mem s.dst ((decStreamRun s ch n).1.flatMap sampleBytes) := rfl

/-- ENC_STREAM leaves the run's final state in the selected channel. -/
theorem encStreamState_selected (h : s.selected = some ch) :
    (encStreamState s ch n).selected = some (encStreamRun s ch n).state.chan :=
  selected_setSelected s ch _ h

/-- DEC_STREAM leaves the run's final state in the selected channel. -/
theorem decStreamState_selected (h : s.selected = some ch) :
    (decStreamState s ch n).selected = some (decStreamRun s ch n).2.chan :=
  selected_setSelected s ch _ h

/-! The bytes each command writes. -/

/-- One code for each sample. -/
@[simp] theorem encStreamRun_codes_length : (encStreamRun s ch n).codes.length = n := by
  rw [encStreamRun, encodeRun_length, readSamples_length]

/-- One sample for each code. -/
@[simp] theorem decStreamRun_samples_length : (decStreamRun s ch n).1.length = n := by
  rw [decStreamRun, decodeRun_length, readCodes_length]

/-- The packed codes fill the output extent. -/
theorem EncStreamReady.output_bound (h : EncStreamReady s ch n) :
    s.dst + (packCodes (encStreamRun s ch n).codes).length ≤ 2 ^ 32 := by
  rw [packCodes_length, encStreamRun_codes_length]
  exact fits_output_bound _ _ _ h.fits

/-- ENC_STREAM leaves memory in canonical form. -/
theorem EncStreamReady.mem_wf (h : EncStreamReady s ch n) (hwf : Memory.wf s.mem = true) :
    Memory.wf (encStreamState s ch n).mem = true :=
  wf_writeBytes _ _ _ h.output_bound hwf

/-- Byte `j` of ENC_STREAM's output holds codes `2j` and `2j + 1` (30_encoding.md R57). -/
theorem EncStreamReady.readByte_output (h : EncStreamReady s ch n) (hwf : Memory.wf s.mem = true)
    (j : Nat) (hj : j < packedLength n) : readByte (encStreamState s ch n).mem (s.dst + j) =
      packByte ((encStreamRun s ch n).codes.getD (2 * j) 0)
        ((encStreamRun s ch n).codes.getD (2 * j + 1) 0) := by
  rw [← packCodes_getD _ j (by rwa [encStreamRun_codes_length])]
  refine readByte_writeBytes_inside _ _ _ j h.output_bound hwf ?_
  rwa [packCodes_length, encStreamRun_codes_length]

/-- Sample `k` of DEC_STREAM's output (20_memory.md R46). -/
theorem DecStreamReady.readHalf_output (h : DecStreamReady s ch n) (hwf : Memory.wf s.mem = true)
    (k : Nat) (hk : k < n) : readHalf (decStreamState s ch n).mem (s.dst + 2 * k) =
      u16 ((decStreamRun s ch n).1.getD k 0) := by
  have hbound : s.dst + 2 * n ≤ 2 ^ 32 := fits_output_bound _ _ _ h.fits
  exact readHalf_writeBytes_samples _ _ _ k (by rwa [decStreamRun_samples_length])
    (by rwa [decStreamRun_samples_length]) hwf

end

/-- An address outside a run, as numbers. -/
theorem holds_eq_false_iff (r : Span) (a : Nat) :
    r.holds a = false ↔ a < r.addr ∨ r.addr + r.len ≤ a := by
  rw [← Bool.not_eq_true, holds_iff]
  omega

/-- Settles O25: each cause fails; else the run's fields, its packed bytes, and no byte outside. -/
theorem encStreamResult : Obligations.EncStreamResult := by
  refine ⟨fun s hcause => withStreamParams_of_cause s _ hcause, ?_⟩
  intro s ch n r hch hsrc hdst hn hpos hwf hfits hr
  have hready : EncStreamReady s ch n := ⟨hch, hsrc, hdst, hn, hpos, hfits⟩
  have hexec := exec_encStream_of_ready hready
  rw [← readSamples_one] at hr
  obtain rfl : r = encStreamRun s ch n := hr
  refine ⟨_, hexec, rfl, fun j hj => hready.readByte_output hwf j hj, fun a ha => ?_⟩
  refine memoryOutsideOutputIsKept .encStream s _ a hwf hexec ((holds_eq_false_iff _ a).2 ?_)
  rwa [outputExtent, hn, Int.toNat_natCast]

/-! The codes of a packed stream. -/

/-- Code `k` of a packed stream at `a`: the low or the high half of byte `k / 2` (30_encoding.md R57). -/
def codeAt (m : Memory) (a k : Nat) : Code :=
  if k % 2 = 0 then (readByte m (a + k / 2)).extractLsb' 0 4
  else (readByte m (a + k / 2)).extractLsb' 4 4

/-- The two halves of a byte, in the order of their codes. -/
theorem unpackCodes_getElem? (bs : List Byte) (k : Nat) : (unpackCodes bs)[k]? =
    bs[k / 2]?.map fun b => if k % 2 = 0 then earlierCode b else laterCode b := by
  have hpiece := Laws.getElem?_flatMap_const (fun b => [earlierCode b, laterCode b]) 2 bs
    (fun _ _ => rfl) (k / 2) (k % 2) (by omega)
  rw [show k / 2 * 2 + k % 2 = k by omega] at hpiece
  rw [unpackCodes, hpiece, Option.map_eq_bind]
  congr 1
  funext b
  rcases Nat.mod_two_eq_zero_or_one k with hk | hk <;> simp [hk]

/-- The codes of a packed stream, in order. -/
theorem readCodes_eq_map (m : Memory) (a n : Nat) : readCodes m a n = (List.range n).map (codeAt m a) := by
  apply List.ext_getElem?
  intro k
  by_cases hk : k < n
  · have hbyte : k / 2 < packedLength n := by rw [packedLength]; omega
    simp [readCodes, hk, unpackCodes_getElem?, readBytes, hbyte, codeAt, earlierCode, laterCode]
  · simp [Nat.not_lt.1 hk]

/-- Settles O26: each cause fails; else the run's fields, its samples, and no byte outside. -/
theorem decStreamResult : Obligations.DecStreamResult := by
  refine ⟨fun s hcause => withStreamParams_of_cause s _ hcause, ?_⟩
  intro s ch n r hch hsrc hdst hn hpos hwf hfits hr
  have hready : DecStreamReady s ch n := ⟨hch, hsrc, hdst, hn, hpos, hfits⟩
  have hexec := exec_decStream_of_ready hready
  obtain rfl : r = decStreamRun s ch n := by
    rw [decStreamRun, readCodes_eq_map]
    exact hr
  refine ⟨_, hexec, rfl, fun k hk => hready.readHalf_output hwf k hk, fun a ha => ?_⟩
  refine memoryOutsideOutputIsKept .decStream s _ a hwf hexec ((holds_eq_false_iff _ a).2 ?_)
  rwa [outputExtent, hn, Int.toNat_natCast]

/-! The round trip (R118). -/

/-- A run of writes reads back whole. -/
theorem readBytes_writeBytes (m : Memory) (a : Nat) (bs : List Byte) (ha : a + bs.length ≤ 2 ^ 32)
    (h : Memory.wf m = true) : readBytes (writeBytes m a bs) a bs.length = bs := by
  apply List.ext_getElem (by simp)
  intro i hi hi'
  simp [readBytes, readByte_writeBytes_inside m a bs i ha h hi', hi']

/-- The codes ENC_STREAM packed read back from its output. -/
theorem EncStreamReady.readCodes_output {s : State} {ch : Chan} {n : Nat} (h : EncStreamReady s ch n)
    (hwf : Memory.wf s.mem = true) :
    readCodes (encStreamState s ch n).mem s.dst n = (encStreamRun s ch n).codes := by
  have hbytes := readBytes_writeBytes s.mem s.dst _ h.output_bound hwf
  have htake := take_unpackCodes_packCodes (encStreamRun s ch n).codes
  rw [packCodes_length] at hbytes
  rw [encStreamRun_codes_length] at hbytes htake
  exact (congrArg (fun bs => (unpackCodes bs).take n) hbytes).trans htake

/-- Settles O27: the decoder reads the encoder's codes, and decoding those gives the encoder's
reconstruction and final state. -/
theorem streamRoundTrip : Obligations.StreamRoundTrip := by
  intro s t d ch n hch hwf hn hexec hok hdch hmem hsrc hdst hcount hfits
  obtain ⟨ch', hs, rfl⟩ := encStream_of_success hexec hok hn
  obtain rfl : ch' = ch := Option.some.inj (hs.selected.symm.trans hch)
  have hd : DecStreamReady d ch' n :=
    ⟨hdch, hsrc ▸ hs.dst_ne_zero, hdst, (congrArg sext32 hcount).trans hn, hs.pos, hfits⟩
  have hrun : decStreamRun d ch' n =
      (reconstruction errMetric s.lookahead ch'.state (readSamples s.mem s.src 1 0 n),
        (encStreamRun s ch' n).state) := by
    have haddr : d.src = s.dst := congrArg BitVec.toNat hsrc
    rw [decStreamRun, hmem, haddr, hs.readCodes_output hwf]
    exact decodeRun_encodeRun ..
  refine ⟨_, exec_decStream_of_ready hd, rfl, ?_, fun k hk => ?_⟩
  · have hfinal := decStreamState_selected (n := n) hd.selected
    rw [hrun] at hfinal
    exact hfinal.trans (encStreamState_selected hs.selected).symm
  · have hsample := hd.readHalf_output (hmem ▸ hs.mem_wf hwf) k hk
    rwa [hrun] at hsample

/-! Two encoders (R119). -/

/-- ENC_STREAM adds the run's error to `ERR_ACC` (R112). -/
theorem encStreamState_errAcc_sub (s : State) (ch : Chan) (n : Nat) :
    (encStreamState s ch n).errAcc - s.errAcc = BitVec.ofNat 64 (encStreamRun s ch n).err := by
  have hadd : (encStreamState s ch n).errAcc =
      s.errAcc + BitVec.ofNat 64 (encStreamRun s ch n).err := rfl
  rw [hadd, BitVec.add_comm, BitVec.add_sub_cancel]

/-- ENC_STREAM counts the bytes it wrote. -/
theorem encStreamState_outCount (s : State) (ch : Chan) (n : Nat) :
    (encStreamState s ch n).outCount = BitVec.ofNat 32 (packedLength n) := rfl

/-- Settles O28: the two runs are the same run. -/
theorem encStreamDependsOnInputsAlone : Obligations.EncStreamDependsOnInputsAlone := by
  intro s₁ s₂ t₁ t₂ n hwf₁ hwf₂ hexec₁ hexec₂ hok₁ hok₂ hch hla hn₁ hn₂ hsamples
  obtain ⟨c₁, h₁, rfl⟩ := encStream_of_success hexec₁ hok₁ hn₁
  obtain ⟨c₂, h₂, rfl⟩ := encStream_of_success hexec₂ hok₂ hn₂
  obtain rfl : c₁ = c₂ := Option.some.inj (h₁.selected.symm.trans (hch.trans h₂.selected))
  have hrun : encStreamRun s₁ c₁ n = encStreamRun s₂ c₁ n :=
    congrArg₂ (fun l w => encodeRun errMetric l c₁.state w) (congrArg BitVec.toNat hla) hsamples
  refine ⟨?_, ?_, ?_, fun j hj => ?_⟩
  · have hfinal₁ := encStreamState_selected (n := n) h₁.selected
    rw [hrun, ← encStreamState_selected h₂.selected] at hfinal₁
    exact hfinal₁
  · rw [encStreamState_errAcc_sub, encStreamState_errAcc_sub, hrun]
  · rw [encStreamState_outCount, encStreamState_outCount]
  · exact (h₁.readByte_output hwf₁ j hj).trans (hrun ▸ (h₂.readByte_output hwf₂ j hj).symm)

/-! A run decoded in two pieces (R120). -/

/-- Parts of extents that fit, on the same platform, fit. -/
theorem fits_of_within {s s' : State} {input output input' output' : Span}
    (h : s.fits input output = true) (hplatform : s'.platform = s.platform)
    (hin : input.addr ≤ input'.addr ∧ input'.addr + input'.len ≤ input.addr + input.len)
    (hout : output.addr ≤ output'.addr ∧ output'.addr + output'.len ≤ output.addr + output.len) :
    s'.fits input' output' = true := by
  obtain ⟨hinput, houtput, hdisjoint, hmemory⟩ := (fits_iff s input output).1 h
  have hin' : ∀ a, input'.holds a = true → input.holds a = true := fun a => by
    rw [holds_iff, holds_iff]
    omega
  have hout' : ∀ a, output'.holds a = true → output.holds a = true := fun a => by
    rw [holds_iff, holds_iff]
    omega
  refine (fits_iff s' input' output').2 ⟨by omega, by omega, fun a ha => ?_, fun a ha => ?_⟩
  · rw [← Bool.not_eq_true]
    exact mt (hout' a) (Bool.not_eq_true _ ▸ hdisjoint a (hin' a ha))
  · rw [hplatform]
    exact hmemory a (ha.imp (hin' a) (hout' a))

/-- The codes of a stream from an even code on stand at the byte of that code. -/
theorem codeAt_two_mul_add (m : Memory) (a h k : Nat) : codeAt m a (2 * h + k) = codeAt m (a + h) k := by
  have hparity : (2 * h + k) % 2 = k % 2 := by omega
  have hbyte : a + (2 * h + k) / 2 = a + h + k / 2 := by omega
  rw [codeAt, hparity, hbyte, codeAt]

/-- A stream splits at an even code into two streams. -/
theorem readCodes_two_mul_add (m : Memory) (a h n : Nat) :
    readCodes m a (2 * h + n) = readCodes m a (2 * h) ++ readCodes m (a + h) n := by
  simp only [readCodes_eq_map, List.range_add, List.map_append, List.map_map]
  congr 1
  exact List.map_congr_left fun k _ => codeAt_two_mul_add m a h k

/-- The codes of a stream depend on its own bytes alone. -/
theorem readCodes_congr (m m' : Memory) (a n : Nat)
    (h : ∀ i < packedLength n, readByte m (a + i) = readByte m' (a + i)) :
    readCodes m a n = readCodes m' a n := by
  have hbytes : readBytes m a (packedLength n) = readBytes m' a (packedLength n) :=
    List.map_congr_left fun i hi => h i (List.mem_range.1 hi)
  rw [readCodes, hbytes, readCodes]

/-- A nonnegative count below 2^31 reads back from `COUNT` (10_state.md R23). -/
theorem sext32_ofNat (n : Nat) (h : n < 2 ^ 31) : sext32 (BitVec.ofNat 32 n) = n := by
  rw [sext32, BitVec.toInt_eq_toNat_of_lt (by rw [BitVec.toNat_ofNat]; omega), BitVec.toNat_ofNat,
    Nat.mod_eq_of_lt (by omega)]

/-- An address moved on below 2^32. -/
theorem toNat_add_ofNat (a : Word) (k : Nat) (h : a.toNat + k < 2 ^ 32) :
    (a + BitVec.ofNat 32 k).toNat = a.toNat + k := by
  rw [BitVec.toNat_add, BitVec.toNat_ofNat]
  omega

/-- The host's arguments for the first `2 h` codes of a run. -/
def firstPiece (s : State) (h : Nat) : State :=
  { s with args := { s.args with count := BitVec.ofNat 32 (2 * h) } }

/-- The state between the two pieces of a run: as the first `2 h` codes left it, with the host's arguments
for the last `n`. -/
def betweenPieces (s : State) (ch : Chan) (h n : Nat) : State :=
  { decStreamState (firstPiece s h) ch (2 * h) with args := { s.args with
    srcAddr := s.args.srcAddr + BitVec.ofNat 32 h
    dstAddr := s.args.dstAddr + BitVec.ofNat 32 (4 * h)
    count := BitVec.ofNat 32 n } }

/-- The selected channel between the two pieces of a run. -/
def betweenChan (s : State) (ch : Chan) (h : Nat) : Chan :=
  (decStreamRun (firstPiece s h) ch (2 * h)).2.chan

section
variable {s : State} {ch : Chan} {h n : Nat}

/-- A count is below 2^31. -/
theorem StreamReady.count_lt {input output : Span} (hs : StreamReady s ch n input output) :
    n < 2 ^ 31 := by
  have hcount : s.args.count.toInt = n := hs.count_eq
  have hlt := BitVec.toInt_lt (x := s.args.count)
  omega

/-- A part of a run that DEC_STREAM decodes, from an even code on, passes its checks. -/
theorem DecStreamReady.part (hs : DecStreamReady s ch n) {s' : State} {ch' : Chan} {n' : Nat}
    (hplatform : s'.platform = s.platform) (hch : s'.selected = some ch') (hsrc : s'.src = s.src + h)
    (hdst : s'.dst = s.dst + 4 * h) (hcount : s'.args.count = BitVec.ofNat 32 n') (hpos : 0 < n')
    (hend : 2 * h + n' ≤ n) : DecStreamReady s' ch' n' where
  selected := hch
  src_ne_zero := fun hzero => hs.src_ne_zero <| BitVec.eq_of_toNat_eq <| by
    have hzero' : s'.src = 0 := congrArg BitVec.toNat hzero
    exact (show s.src = 0 by omega)
  dst_ne_zero := fun hzero => hs.dst_ne_zero <| BitVec.eq_of_toNat_eq <| by
    have hzero' : s'.dst = 0 := congrArg BitVec.toNat hzero
    exact (show s.dst = 0 by omega)
  count_eq := (congrArg sext32 hcount).trans (sext32_ofNat n' (by have := hs.count_lt; omega))
  pos := hpos
  fits := by
    refine fits_of_within hs.fits hplatform ⟨?_, ?_⟩ ⟨?_, ?_⟩ <;>
      simp only [hsrc, hdst, packedLength] <;> omega

/-- The first piece passes DEC_STREAM's checks where the whole run does. -/
theorem DecStreamReady.firstPiece_ready (hs : DecStreamReady s ch (2 * h + n)) (hh : 0 < h) :
    DecStreamReady (firstPiece s h) ch (2 * h) :=
  hs.part (h := 0) rfl hs.selected rfl rfl rfl (by omega) (by omega)

/-- The second piece starts `h` bytes on in the input, below the top of memory. -/
theorem DecStreamReady.betweenPieces_src (hs : DecStreamReady s ch (2 * h + n)) (hn : 0 < n) :
    (betweenPieces s ch h n).src = s.src + h := by
  have hbound : s.src + packedLength (2 * h + n) ≤ 2 ^ 32 := fits_input_bound _ _ _ hs.fits
  rw [packedLength] at hbound
  exact toNat_add_ofNat s.args.srcAddr h (show s.src + h < 2 ^ 32 by omega)

/-- The second piece starts `4 h` bytes on in the output, below the top of memory. -/
theorem DecStreamReady.betweenPieces_dst (hs : DecStreamReady s ch (2 * h + n)) (hn : 0 < n) :
    (betweenPieces s ch h n).dst = s.dst + 4 * h := by
  have hbound : s.dst + 2 * (2 * h + n) ≤ 2 ^ 32 := fits_output_bound _ _ _ hs.fits
  exact toNat_add_ofNat s.args.dstAddr (4 * h) (show s.dst + 4 * h < 2 ^ 32 by omega)

/-- The second piece passes DEC_STREAM's checks where the whole run does. -/
theorem DecStreamReady.betweenPieces_ready (hs : DecStreamReady s ch (2 * h + n)) (hn : 0 < n) :
    DecStreamReady (betweenPieces s ch h n) (betweenChan s ch h) n :=
  hs.part rfl (decStreamState_selected (s := firstPiece s h) hs.selected)
    (hs.betweenPieces_src hn) (hs.betweenPieces_dst hn) rfl hn (le_refl _)

/-- The first piece leaves the codes of the second as they were, since its output is apart from the whole
input. -/
theorem DecStreamReady.betweenPieces_codes (hs : DecStreamReady s ch (2 * h + n))
    (hwf : Memory.wf s.mem = true) :
    readCodes (betweenPieces s ch h n).mem (s.src + h) n = readCodes s.mem (s.src + h) n := by
  apply readCodes_congr
  intro i hi
  rw [packedLength] at hi
  have hbound : s.dst + 2 * (2 * h + n) ≤ 2 ^ 32 := fits_output_bound _ _ _ hs.fits
  have hapart : ¬ (s.dst ≤ s.src + h + i ∧ s.src + h + i < s.dst + 2 * (2 * h + n)) :=
    fits_disjoint _ _ _ hs.fits _ (by simp only [packedLength]; omega)
  refine readByte_writeBytes_outside _ _ _ _ ?_ hwf ?_ <;>
    rw [sampleBytes_flatMap_length, decStreamRun_samples_length]
  · exact (show s.dst + 2 * (2 * h) ≤ 2 ^ 32 by omega)
  · exact (show s.src + h + i < s.dst ∨ s.dst + 2 * (2 * h) ≤ s.src + h + i by omega)

/-- Decoding a run is decoding its two pieces. The channel register holds the state between them exactly,
since a transition ends in the domain. -/
theorem DecStreamReady.run_eq (hs : DecStreamReady s ch (2 * h + n)) (hh : 0 < h) (hn : 0 < n)
    (hwf : Memory.wf s.mem = true) : decStreamRun s ch (2 * h + n) =
      ((decStreamRun (firstPiece s h) ch (2 * h)).1 ++
          (decStreamRun (betweenPieces s ch h n) (betweenChan s ch h) n).1,
        (decStreamRun (betweenPieces s ch h n) (betweenChan s ch h) n).2) := by
  have hdomain : (decStreamRun (firstPiece s h) ch (2 * h)).2.InDomain := by
    refine (decodeRun_state ch.state _).resolve_left fun ⟨hnil, _⟩ => ?_
    have hlen := readCodes_length (firstPiece s h).mem (firstPiece s h).src (2 * h)
    rw [hnil, List.length_nil] at hlen
    omega
  have hchan : (betweenChan s ch h).state = (decStreamRun (firstPiece s h) ch (2 * h)).2 :=
    adaptive_chan_state _ hdomain
  have hsecond : decStreamRun (betweenPieces s ch h n) (betweenChan s ch h) n =
      decodeRun (decStreamRun (firstPiece s h) ch (2 * h)).2 (readCodes s.mem (s.src + h) n) := by
    rw [decStreamRun, hs.betweenPieces_src hn, hs.betweenPieces_codes hwf, hchan]
  rw [hsecond, decStreamRun, readCodes_two_mul_add]
  exact decodeRun_append ..

/-- The two pieces leave the channels of the whole run. -/
theorem DecStreamReady.pieces_ch (hs : DecStreamReady s ch (2 * h + n)) (hh : 0 < h) (hn : 0 < n)
    (hwf : Memory.wf s.mem = true) :
    (decStreamState (betweenPieces s ch h n) (betweenChan s ch h) n).ch =
      (decStreamState s ch (2 * h + n)).ch := by
  rw [decStreamState_ch s, hs.run_eq hh hn hwf]
  exact List.set_set ..

/-- The two pieces leave the memory of the whole run. -/
theorem DecStreamReady.pieces_mem (hs : DecStreamReady s ch (2 * h + n)) (hh : 0 < h) (hn : 0 < n)
    (hwf : Memory.wf s.mem = true) :
    (decStreamState (betweenPieces s ch h n) (betweenChan s ch h) n).mem =
      (decStreamState s ch (2 * h + n)).mem := by
  have hlen : 2 * (2 * h) = 4 * h := by omega
  rw [decStreamState_mem, decStreamState_mem, hs.betweenPieces_dst hn, hs.run_eq hh hn hwf,
    List.flatMap_append, writeBytes_append, sampleBytes_flatMap_length, decStreamRun_samples_length, hlen]
  rfl

end

/-- Settles O30: the two pieces write the channel and the samples of the whole run, one part after the
other. -/
theorem decStreamInPieces : Obligations.DecStreamInPieces := by
  intro s t h n hh hn hwf hcount hexec hok
  obtain ⟨ch, hs, rfl⟩ := decStream_of_success hexec hok hcount
  exact ⟨_, _, exec_decStream_of_ready (hs.firstPiece_ready hh),
    exec_decStream_of_ready (hs.betweenPieces_ready hn), rfl, rfl, hs.pieces_ch hh hn hwf,
    hs.pieces_mem hh hn hwf⟩

end Sys2Proof.Machine
end

section
/-! PROOFS. The context and the blocks (44_block_framer.md R123 to R135): when each command fails and when
it succeeds, the state it then leaves, where a block's headers and codes stand in memory, and what decoding
an encoded block gives. -/

namespace Sys2Proof.Machine

/-! The context (R124, R125). -/

/-- Settles O32: CTX_FREE's only answer. -/
theorem ctxFreeResult : Obligations.CtxFreeResult := fun s => (execCtxFree_next s _).2 rfl

/-- The state a succeeding CTX_CREATE leaves. -/
def createdContextState (s : State) : State :=
  (((s.setFirst ((readBytes s.mem s.src s.nchArg).map fun b => ⟨0, b⟩)).setContext
    ⟨true, s.args.nch, s.args.lookahead⟩).clearError).done 0

/-- CTX_CREATE fails on an illegal `NCH` and without a source, before it looks at its buffer. -/
theorem exec_ctxCreate_of_cause (s : State) (h : s.nchLegal = false ∨ s.args.srcAddr = 0) :
    exec .ctxCreate s = .next s.failed := by
  refine ite_eq_left_iff.2 fun hnch => ite_eq_left_iff.2 fun hsrc => ?_
  simp only [Bool.not_eq_true', Bool.not_eq_false] at hnch
  exact absurd ((srcAbsent_iff s).2 (h.resolve_left (by simp [hnch]))) hsrc

/-- CTX_CREATE with valid parameters whose index array fits: the index bytes decide. -/
theorem exec_ctxCreate_of_fits (s : State) (hnch : s.nchLegal = true) (hsrc : s.args.srcAddr ≠ 0)
    (hfits : s.fits ⟨s.src, s.nchArg⟩ noBuffer = true) : exec .ctxCreate s =
      if (readBytes s.mem s.src s.nchArg).all indexLegal = true then .next (createdContextState s)
      else .next s.failed := by
  simp only [exec, execCtxCreate, hnch, srcAbsent_eq_false hsrc, Bool.not_true, Bool.false_eq_true,
    if_false, withBuffers_of_fits _ _ _ _ hfits]
  cases (readBytes s.mem s.src s.nchArg).all indexLegal <;> rfl

/-- A run of bytes is a run of legal indices when each byte is. -/
theorem readBytes_all_indexLegal_iff (m : Memory) (a n : Nat) :
    (readBytes m a n).all indexLegal = true ↔ ∀ c < n, (readByte m (a + c)).toNat ≤ 88 := by
  simp [readBytes, indexLegal_iff]

/-- The channels CTX_CREATE seeds, by number. -/
theorem seededChannels_eq_map (m : Memory) (a n : Nat) :
    ((readBytes m a n).map fun b => (⟨0, b⟩ : Chan)) =
      (List.range n).map fun c => ⟨0, readByte m (a + c)⟩ := by
  rw [readBytes, List.map_map]
  rfl

/-- The fields CTX_CREATE leaves. -/
theorem createdContextState_eq (s : State) : createdContextState s =
    { s with
      ch := ((List.range s.nchArg).map fun c => ⟨0, readByte s.mem (s.src + c)⟩) ++ s.ch.drop s.nchArg
      ctx := ⟨true, s.args.nch, s.args.lookahead⟩
      errAcc := 0
      outCount := 0
      result := .success } := by
  rw [createdContextState, State.setFirst, seededChannels_length, seededChannels_eq_map]
  rfl

/-- Settles O31: the parameters decide first, and where the index array fits its bytes do. -/
theorem ctxCreateResult : Obligations.CtxCreateResult := by
  rintro s n rfl
  refine ⟨fun hcause => exec_ctxCreate_of_cause s ((or_assoc.2 hcause).imp_left fun hn => ?_),
    fun h1 hmax hsrc hfits => ?_⟩
  · rw [← Bool.not_eq_true, nchLegal_iff]
    omega
  · have hexec := exec_ctxCreate_of_fits s ((nchLegal_iff s).2 ⟨h1, hmax⟩) hsrc hfits
    simp only [readBytes_all_indexLegal_iff] at hexec
    exact ⟨fun ⟨c, hc, hbad⟩ => hexec.trans (if_neg fun hgood => Nat.not_lt.2 (hgood c hc) hbad),
      fun hgood => hexec.trans ((if_pos hgood).trans (congrArg _ (createdContextState_eq s)))⟩

/-! ENC_BLOCK (R126 to R129). -/

/-- Channel `c` of a block of `n` channels and `len` samples each, as ENC_BLOCK codes it. -/
def codedChannel (s : State) (n len c : Nat) : ChannelBlock :=
  encodeChannel errMetric s.ctx.la.toNat (((s.ch[c]?).map Chan.index).getD 0)
    (readSamples s.mem s.src n c len)

/-- The coded channels, by number. -/
theorem encodeChannels_eq_map (s : State) (n len : Nat) (h : n ≤ s.nchMax) :
    encodeChannels s n len = (List.range n).map (codedChannel s n len) := by
  apply List.ext_getElem?
  intro c
  by_cases hc : c < n
  · obtain ⟨ch, hch⟩ : ∃ ch, s.ch[c]? = some ch := ⟨_, List.getElem?_eq_getElem (hc.trans_le h)⟩
    rw [encodeChannels_getElem? s n len c ch hch hc]
    simp [hc, codedChannel, hch]
  · rw [List.getElem?_eq_none (by rw [encodeChannels_length s n len h]; omega),
      List.getElem?_eq_none (by simpa using hc)]

/-- The state a succeeding ENC_BLOCK leaves, for `n` channels and `k` chunks each. -/
def encodedBlockState (s : State) (n k : Nat) : State :=
  (((s.setFirst ((encodeChannels s n (1 + 8 * k)).map fun b => b.run.state.chan)).addError
    ((encodeChannels s n (1 + 8 * k)).map fun b => b.run.err).sum).store s.dst
    (blockBytes (encodeChannels s n (1 + 8 * k)) k)).done (blockLength n k)

/-- ENC_BLOCK's parameters are valid for `n` channels and `k` chunks each, and its extents (20_memory.md
R48) fit. -/
structure EncBlockReady (s : State) (n k : Nat) : Prop where
  valid : s.ctx.valid = true
  src_ne_zero : s.args.srcAddr ≠ 0
  dst_ne_zero : s.args.dstAddr ≠ 0
  nch_eq : s.ctx.nch.toNat = n
  nch_le : n ≤ s.nchMax
  count_eq : s.count = (1 + 8 * k : Nat)
  fits : s.fits ⟨s.src, 2 * (1 + 8 * k) * n⟩ ⟨s.dst, blockLength n k⟩ = true

/-- ENC_BLOCK fails on each of its causes (60_exceptions.md R138). -/
theorem exec_encBlock_of_cause (s : State) (h : InvalidCause .encBlock s) :
    exec .encBlock s = .next s.failed := by
  refine ite_eq_left_iff.2 fun hctx => ite_eq_left_iff.2 fun habsent => ite_eq_left_iff.2 fun hpos =>
    ite_eq_left_iff.2 fun hmod => ?_
  simp only [Bool.not_eq_true', Bool.not_eq_false] at hctx
  rw [Bool.or_eq_true, srcAbsent_iff, dstAbsent_iff, not_or] at habsent
  have hno : ¬ InvalidCause .encBlock s :=
    not_or.2 ⟨by simp [hctx], not_or.2 ⟨habsent.1, not_or.2 ⟨habsent.2, not_or.2 ⟨hpos, hmod⟩⟩⟩⟩
  exact absurd h hno

/-- ENC_BLOCK succeeds in no other way than with valid parameters and fitting extents. -/
theorem encBlock_of_success {s t : State} {n k : Nat} (h : exec .encBlock s = .next t)
    (hok : t.result = .success) (hn : s.ctx.nch.toNat = n) (hcount : s.count = (1 + 8 * k : Nat)) :
    EncBlockReady s n k ∧ t = encodedBlockState s n k := by
  rcases execEncBlock_next s t h with
    ⟨-, rfl⟩ | ⟨hctx, hsrc, hdst, -, -, hmax, hfits, bs, rfl, rfl⟩
  · cases hok
  · have hlen : s.count.toNat = 1 + 8 * k := congrArg Int.toNat hcount
    have hchunks : (1 + 8 * k - 1) / 8 = k := by omega
    rw [hlen, hchunks, hn] at hfits ⊢
    refine ⟨⟨hctx, ?_, ?_, hn, hn ▸ hmax, hcount, hfits⟩, rfl⟩
    · rwa [ne_eq, ← srcAbsent_iff, Bool.not_eq_true]
    · rwa [ne_eq, ← dstAbsent_iff, Bool.not_eq_true]

section
variable {s : State} {n k c : Nat}

/-- ENC_BLOCK with valid parameters and fitting extents succeeds. -/
theorem exec_encBlock_of_ready (h : EncBlockReady s n k) :
    exec .encBlock s = .next (encodedBlockState s n k) := by
  have hpos : ¬ s.count ≤ 0 := by rw [h.count_eq]; omega
  have hmod : ¬ (s.count - 1) % 8 ≠ 0 := by rw [h.count_eq]; omega
  have hlen : s.count.toNat = 1 + 8 * k := congrArg Int.toNat h.count_eq
  have hchunks : (1 + 8 * k - 1) / 8 = k := by omega
  simp only [exec, execEncBlock, h.valid, srcAbsent_eq_false h.src_ne_zero,
    dstAbsent_eq_false h.dst_ne_zero, if_neg hpos, if_neg hmod, h.nch_eq, if_neg (Nat.not_lt.2 h.nch_le),
    hlen, hchunks, withBuffers_of_fits _ _ _ _ h.fits, Bool.not_true, Bool.or_self, Bool.false_eq_true,
    if_false]
  rfl

/-- The fields ENC_BLOCK leaves, by channel number. -/
theorem EncBlockReady.state_eq (h : EncBlockReady s n k) : encodedBlockState s n k =
    { s with
      ch := ((List.range n).map fun c => (codedChannel s n (1 + 8 * k) c).run.state.chan) ++ s.ch.drop n
      errAcc := s.errAcc +
        BitVec.ofNat 64 ((List.range n).map fun c => (codedChannel s n (1 + 8 * k) c).run.err).sum
      mem := (encodedBlockState s n k).mem
      outCount := BitVec.ofNat 32 (blockLength n k)
      result := .success } := by
  have hlen : ((encodeChannels s n (1 + 8 * k)).map fun b => b.run.state.chan).length = n := by
    rw [List.length_map, encodeChannels_length s n _ h.nch_le]
  conv_lhs => rw [encodedBlockState, State.setFirst, hlen, encodeChannels_eq_map s n _ h.nch_le,
    List.map_map, List.map_map, ← encodeChannels_eq_map s n _ h.nch_le]
  rfl

/-- ENC_BLOCK leaves the final state of the channel's run in its register (R128). -/
theorem EncBlockReady.ch_output (h : EncBlockReady s n k) (hc : c < n) :
    (encodedBlockState s n k).ch[c]? = some (codedChannel s n (1 + 8 * k) c).run.state.chan := by
  rw [h.state_eq, List.getElem?_append_left (by simpa using hc)]
  simp [hc]

/-- One code for each sample after the first. -/
@[simp] theorem codedChannel_codes_length :
    (codedChannel s n (1 + 8 * k) c).run.codes.length = 8 * k := by
  simp [codedChannel, encodeChannel]

/-! Where the bytes of the block stand (30_encoding.md R58, R59). -/

/-- The block fills the output extent. -/
theorem EncBlockReady.output_bound (h : EncBlockReady s n k) :
    s.dst + (blockBytes (encodeChannels s n (1 + 8 * k)) k).length ≤ 2 ^ 32 := by
  rw [encodeChannels_blockBytes_length s n k h.nch_le]
  exact fits_output_bound _ _ _ h.fits

/-- A byte of the block reads back from ENC_BLOCK's output. -/
theorem EncBlockReady.readByte_output (h : EncBlockReady s n k) (hwf : Memory.wf s.mem = true)
    (i : Nat) (v : Byte) (hv : (blockBytes (encodeChannels s n (1 + 8 * k)) k)[i]? = some v) :
    readByte (encodedBlockState s n k).mem (s.dst + i) = v :=
  readByte_writeBytes_of_getElem? s.mem s.dst _ i v h.output_bound hwf hv

/-- ENC_BLOCK leaves memory in canonical form. -/
theorem EncBlockReady.mem_wf (h : EncBlockReady s n k) (hwf : Memory.wf s.mem = true) :
    Memory.wf (encodedBlockState s n k).mem = true :=
  wf_writeBytes s.mem s.dst _ h.output_bound hwf

/-- The header of a channel: its first sample, the index it held, and 0 (R127). -/
theorem EncBlockReady.readHeader_output (h : EncBlockReady s n k) (hwf : Memory.wf s.mem = true)
    (hc : c < n) : readHeader (encodedBlockState s n k).mem s.dst c =
      ⟨(codedChannel s n (1 + 8 * k) c).sample, (codedChannel s n (1 + 8 * k) c).index, 0⟩ := by
  have hbyte : ∀ (j : Nat) (v : Byte), j < 4 →
      (codedChannel s n (1 + 8 * k) c).header[j]? = some v →
      readByte (encodedBlockState s n k).mem (s.dst + 4 * c + j) = v := fun j v hj hv => by
    rw [Nat.add_assoc]
    refine h.readByte_output hwf _ v ?_
    rw [blockBytes_header _ k c j (by rwa [encodeChannels_length s n _ h.nch_le]) hj,
      encodeChannels_eq_map s n _ h.nch_le]
    simpa [hc] using hv
  have hlow : readByte (encodedBlockState s n k).mem (s.dst + 4 * c) =
      (codedChannel s n (1 + 8 * k) c).sample.extractLsb' 0 8 := hbyte 0 _ (by decide) rfl
  rw [readHeader, readHalf, hlow, hbyte 1 _ (by decide) rfl, hbyte 2 _ (by decide) rfl,
    hbyte 3 _ (by decide) rfl, halfBytes_append]

/-- Byte `b` of chunk `j` of a channel holds codes `8j + 2b` and `8j + 2b + 1` (R128). -/
theorem EncBlockReady.readByte_chunk (h : EncBlockReady s n k) (hwf : Memory.wf s.mem = true)
    (hc : c < n) (j b : Nat) (hj : j < k) (hb : b < 4) :
    readByte (encodedBlockState s n k).mem (s.dst + 4 * n + 4 * n * j + 4 * c + b) =
      packByte ((codedChannel s n (1 + 8 * k) c).run.codes.getD (8 * j + 2 * b) 0)
        ((codedChannel s n (1 + 8 * k) c).run.codes.getD (8 * j + 2 * b + 1) 0) := by
  have hmap := encodeChannels_eq_map s n (1 + 8 * k) h.nch_le
  have hlen := encodeChannels_length s n (1 + 8 * k) h.nch_le
  have hchunks : ∀ x ∈ encodeChannels s n (1 + 8 * k), ∀ i < k, (x.chunk i).length = 4 := by
    intro x hx i hi
    obtain ⟨ch, -, c', rfl⟩ := mem_encodeChannels _ _ _ x hx
    exact encodeChannel_chunk_length _ _ _ _ k i (by simp) hi
  have hplace := blockBytes_chunk _ k hchunks j c b hj (hlen.symm ▸ hc) hb
  rw [hlen, hmap, List.getElem?_map, List.getElem?_range hc, Option.map_some, Option.bind_some,
    chunk_getElem? _ k j b codedChannel_codes_length hj hb, ← hmap] at hplace
  rw [show s.dst + 4 * n + 4 * n * j + 4 * c + b = s.dst + (4 * n + 4 * n * j + 4 * c + b) by omega]
  exact h.readByte_output hwf _ _ hplace

end

/-- Settles O33: each cause fails; else the fields and the layout of the coded channels, and no byte
outside. -/
theorem encBlockResult : Obligations.EncBlockResult := by
  refine ⟨exec_encBlock_of_cause, ?_⟩
  intro s n k w x r hctx hsrc hdst hn hmax hcount hwf hfits hw hx hr
  have hready : EncBlockReady s n k := ⟨hctx, hsrc, hdst, hn, hmax, hcount, hfits⟩
  have hexec := exec_encBlock_of_ready hready
  have hchannel : ∀ c < n, codedChannel s n (1 + 8 * k) c = ⟨u16 (headSample (w c)), x c, r c⟩ := by
    intro c hc
    have hsamples : readSamples s.mem s.src n c (1 + 8 * k) = w c := (hw c hc).symm
    rw [codedChannel, hx c hc, hsamples, hr c hc]
    rfl
  refine ⟨_, hexec, hready.state_eq.trans ?_, fun c hc => ?_, fun j hj c hc b hb => ?_, fun a ha => ?_⟩
  · have hchan : ∀ c ∈ List.range n, (codedChannel s n (1 + 8 * k) c).run.state.chan =
        ⟨BitVec.ofInt 16 (r c).state.p, BitVec.ofNat 8 (r c).state.x⟩ := fun c hc => by
      rw [hchannel c (List.mem_range.1 hc)]
      rfl
    have herr : ∀ c ∈ List.range n, (codedChannel s n (1 + 8 * k) c).run.err = (r c).err := fun c hc => by
      rw [hchannel c (List.mem_range.1 hc)]
    rw [List.map_congr_left hchan, List.map_congr_left herr]
    rfl
  · have hheader := hready.readHeader_output hwf hc
    rw [hchannel c hc] at hheader
    exact ⟨congrArg Header.sample hheader, congrArg Header.index hheader, congrArg Header.reserved hheader⟩
  · have hbyte := hready.readByte_chunk hwf hc j b hj hb
    rwa [hchannel c hc] at hbyte
  · have hlen : s.args.count.toInt.toNat = 1 + 8 * k := congrArg Int.toNat hcount
    have hchunks : (1 + 8 * k - 1) / 8 = k := by omega
    refine memoryOutsideOutputIsKept .encBlock s _ a hwf hexec ((holds_eq_false_iff _ a).2 ?_)
    rwa [outputExtent, hn, hlen, hchunks]

/-! DEC_BLOCK (R131 to R134). -/

/-- The state a DEC_BLOCK that finds good headers leaves, for `n` channels and `k` chunks each. -/
def decodedBlockState (s : State) (n k : Nat) : State :=
  (s.store s.dst (frameBytes (decodeChannels s.mem s.src n k) (1 + 8 * k))).done (1 + 8 * k)

/-- DEC_BLOCK's parameters are valid for `n` channels and `k` chunks each, its headers are good, and its
extents (20_memory.md R48) fit. -/
structure DecBlockReady (s : State) (n k : Nat) : Prop where
  src_ne_zero : s.args.srcAddr ≠ 0
  dst_ne_zero : s.args.dstAddr ≠ 0
  nch_eq : s.nchArg = n
  pos : 1 ≤ n
  nch_le : n ≤ s.nchMax
  headers_le : 4 * n ≤ s.count.toNat
  chunks_eq : k = (s.count.toNat - 4 * n) / (4 * n)
  headers_fit : s.fits ⟨s.src, 4 * n⟩ noBuffer = true
  fits : s.fits ⟨s.src, 4 * n * (1 + k)⟩ ⟨s.dst, 2 * (1 + 8 * k) * n⟩ = true
  headers_legal : ∀ c < n, (readHeader s.mem s.src c).legal = true

/-- A header is good when its index is at most 88 and its reserved byte is 0 (R132). -/
theorem readHeader_legal_iff (m : Memory) (a c : Nat) : (readHeader m a c).legal = true ↔
    (readByte m (a + 4 * c + 2)).toNat ≤ 88 ∧ readByte m (a + 4 * c + 3) = 0x00 := by
  simp [Header.legal, readHeader, indexLegal_iff]

/-- DEC_BLOCK fails on each of its causes (60_exceptions.md R138). -/
theorem exec_decBlock_of_cause (s : State) (h : InvalidCause .decBlock s) :
    exec .decBlock s = .next s.failed := by
  refine ite_eq_left_iff.2 fun hnch => ite_eq_left_iff.2 fun habsent => ite_eq_left_iff.2 fun hpos => ?_
  simp only [Bool.not_eq_true', Bool.not_eq_false, nchLegal_iff] at hnch
  rw [Bool.or_eq_true, srcAbsent_iff, dstAbsent_iff, not_or] at habsent
  have hno : ¬ InvalidCause .decBlock s :=
    not_or.2 ⟨Nat.not_lt.2 hnch.1, not_or.2 ⟨Nat.not_lt.2 hnch.2,
      not_or.2 ⟨habsent.1, not_or.2 ⟨habsent.2, hpos⟩⟩⟩⟩
  exact absurd h hno

/-- DEC_BLOCK with valid parameters and a count short of the headers gives zero samples (R131). -/
theorem exec_decBlock_of_short (s : State) (hnch : s.nchLegal = true) (hsrc : s.args.srcAddr ≠ 0)
    (hdst : s.args.dstAddr ≠ 0) (hpos : ¬ s.count ≤ 0) (hshort : s.count.toNat < 4 * s.nchArg) :
    exec .decBlock s = .next (s.done 0) := by
  simp only [exec, execDecBlock, hnch, srcAbsent_eq_false hsrc, dstAbsent_eq_false hdst, if_neg hpos,
    if_pos hshort, Bool.not_true, Bool.or_self, Bool.false_eq_true, if_false]
  rfl

/-- DEC_BLOCK with valid parameters, its header bytes there and one header bad gives zero samples
(R132). -/
theorem exec_decBlock_of_badHeader (s : State) (hnch : s.nchLegal = true) (hsrc : s.args.srcAddr ≠ 0)
    (hdst : s.args.dstAddr ≠ 0) (hpos : ¬ s.count ≤ 0) (hlen : ¬ s.count.toNat < 4 * s.nchArg)
    (hfits : s.fits ⟨s.src, 4 * s.nchArg⟩ noBuffer = true)
    (hbad : ∃ c < s.nchArg, ¬ (readHeader s.mem s.src c).legal = true) :
    exec .decBlock s = .next (s.done 0) := by
  obtain ⟨body, hexec⟩ := exec_decBlock_of_valid hnch hsrc hdst hpos hlen
  have hall : ((List.range s.nchArg).all fun c => (readHeader s.mem s.src c).legal) = false := by
    simpa using hbad
  rw [hexec, withBuffers_of_fits _ _ _ _ hfits, hall]
  rfl

/-- Settles O34: the parameters decide first, then the count, then the headers. -/
theorem decBlockRejects : Obligations.DecBlockRejects := by
  rintro s n rfl
  refine ⟨exec_decBlock_of_cause s, fun h1 hmax hsrc hdst hpos => ?_⟩
  have hnch : s.nchLegal = true := (nchLegal_iff s).2 ⟨h1, hmax⟩
  have hcount : ¬ s.count ≤ 0 := Int.not_le.2 hpos
  refine ⟨fun hshort => ?_, fun hlen hfits ⟨c, hc, hbad⟩ => ?_⟩
  · have hlt : s.count < 4 * (s.nchArg : Int) := hshort
    exact exec_decBlock_of_short s hnch hsrc hdst hcount (by omega)
  · have hle : 4 * (s.nchArg : Int) ≤ s.count := hlen
    refine exec_decBlock_of_badHeader s hnch hsrc hdst hcount (by omega) hfits ⟨c, hc, ?_⟩
    rwa [readHeader_legal_iff, not_and_or, Nat.not_le]

section
variable {s : State} {n k c : Nat}

/-- DEC_BLOCK with valid parameters, good headers and fitting extents succeeds. -/
theorem exec_decBlock_of_ready (h : DecBlockReady s n k) :
    exec .decBlock s = .next (decodedBlockState s n k) := by
  have hnch : s.nchLegal = true :=
    (nchLegal_iff s).2 ⟨h.pos.trans_eq h.nch_eq.symm, h.nch_eq.trans_le h.nch_le⟩
  have hlen : ¬ s.count.toNat < 4 * n := Nat.not_lt.2 h.headers_le
  have hpos : ¬ s.count ≤ 0 := by
    have hbytes := h.headers_le
    have hn := h.pos
    omega
  have hgood : ((List.range n).all fun c => (readHeader s.mem s.src c).legal) = true := by
    simpa using h.headers_legal
  simp only [exec, execDecBlock, hnch, srcAbsent_eq_false h.src_ne_zero,
    dstAbsent_eq_false h.dst_ne_zero, if_neg hpos, h.nch_eq, if_neg hlen, ← h.chunks_eq,
    withBuffers_of_fits _ _ _ _ h.headers_fit, hgood, withBuffers_of_fits _ _ _ _ h.fits, Bool.not_true,
    Bool.or_self, Bool.false_eq_true, if_false]
  rfl

/-- Sample `i` of channel `c` of DEC_BLOCK's output (20_memory.md R47). -/
theorem DecBlockReady.readHalf_output (h : DecBlockReady s n k) (hwf : Memory.wf s.mem = true)
    (hc : c < n) (i : Nat) (hi : i < 1 + 8 * k) :
    readHalf (decodedBlockState s n k).mem (s.dst + 2 * (i * n + c)) =
      u16 ((decodeChannel (readHeader s.mem s.src c) (blockCodes s.mem s.src n k c)).getD i 0) := by
  have hlen : (decodeChannels s.mem s.src n k).length = n := by simp [decodeChannels]
  have hbound : s.dst + 2 * (1 + 8 * k) * n ≤ 2 ^ 32 := fits_output_bound _ _ _ h.fits
  have hsample := readHalf_writeBytes_frames s.mem s.dst (decodeChannels s.mem s.src n k) (1 + 8 * k) i c
    hi (by rwa [hlen]) (by rw [hlen]; linarith) hwf
  simp only [decodeChannels, List.length_map, List.length_range, List.getElem_map,
    List.getElem_range] at hsample
  exact hsample

/-- DEC_BLOCK's first sample is the header's (R133). -/
theorem DecBlockReady.first_sample (h : DecBlockReady s n k) (hwf : Memory.wf s.mem = true)
    (hc : c < n) : readHalf (decodedBlockState s n k).mem (s.dst + 2 * c) =
      (readHeader s.mem s.src c).sample := by
  have hsample := h.readHalf_output hwf hc 0 (by omega)
  rw [Nat.zero_mul, Nat.zero_add, decodeChannel, List.getD_cons_zero, u16_sext16] at hsample
  exact hsample

/-- DEC_BLOCK's further samples are the replay of the codes (R133). -/
theorem DecBlockReady.later_sample (h : DecBlockReady s n k) (hwf : Memory.wf s.mem = true)
    (hc : c < n) (i : Nat) (hi : i < 8 * k) :
    readHalf (decodedBlockState s n k).mem (s.dst + 2 * ((i + 1) * n + c)) =
      u16 ((decodeRun ⟨sext16 (readHeader s.mem s.src c).sample, (readHeader s.mem s.src c).index.toNat⟩
        (blockCodes s.mem s.src n k c)).1.getD i 0) := by
  have hsample := h.readHalf_output hwf hc (i + 1) (by omega)
  rwa [decodeChannel, List.getD_cons_succ] at hsample

end

/-- The codes of a channel are the two halves of each byte of its chunks, in order (R133). -/
theorem eq_blockCodes (m : Memory) (a n k c : Nat) (cs : List Code) (hlen : cs.length = 8 * k)
    (h : ∀ j < k, ∀ b < 4,
      cs[8 * j + 2 * b]? = some (earlierCode (readByte m (a + 4 * n + 4 * n * j + 4 * c + b))) ∧
      cs[8 * j + 2 * b + 1]? = some (laterCode (readByte m (a + 4 * n + 4 * n * j + 4 * c + b)))) :
    cs = blockCodes m a n k c := by
  apply List.ext_getElem?
  intro i
  by_cases hi : i < 8 * k
  · obtain ⟨hlow, hhigh⟩ := h (i / 8) (by omega) (i % 8 / 2) (by omega)
    obtain ⟨hlow', hhigh'⟩ := blockCodes_getElem? m a n k c (i / 8) (i % 8 / 2) (by omega) (by omega)
    rcases Nat.mod_two_eq_zero_or_one i with heven | hodd
    · rw [show i = 8 * (i / 8) + 2 * (i % 8 / 2) by omega, hlow, hlow']
    · rw [show i = 8 * (i / 8) + 2 * (i % 8 / 2) + 1 by omega, hhigh, hhigh']
  · rw [List.getElem?_eq_none (by omega), List.getElem?_eq_none (by rw [blockCodes_length]; omega)]

/-- Settles O35: the samples, the count, and no byte outside. -/
theorem decBlockResult : Obligations.DecBlockResult := by
  intro s n k codes r hn h1 hmax hsrc hdst hlen hk hwf hheaders hfits hgood hcodes hr
  have hbytes : 4 * (n : Int) ≤ s.count := hlen
  have hready : DecBlockReady s n k :=
    { src_ne_zero := hsrc, dst_ne_zero := hdst, nch_eq := hn, pos := h1, nch_le := hmax
      headers_le := by omega, chunks_eq := hk, headers_fit := hheaders, fits := hfits
      headers_legal := fun c hc => (readHeader_legal_iff ..).2 (hgood c hc) }
  have hexec := exec_decBlock_of_ready hready
  refine ⟨_, hexec, rfl, fun c hc => hready.first_sample hwf hc, fun c hc i hi => ?_, fun a ha => ?_⟩
  · rw [hr c hc, eq_blockCodes s.mem s.src n k c (codes c) (hcodes c hc).1 (hcodes c hc).2]
    exact hready.later_sample hwf hc i hi
  · refine memoryOutsideOutputIsKept .decBlock s _ a hwf hexec ((holds_eq_false_iff _ a).2 ?_)
    rwa [outputExtent, hn, ← hk]

/-! The round trip (R135). -/

/-- The first sample of a channel stands at the channel's place in the first frame (20_memory.md R47). -/
theorem headSample_readSamples (m : Memory) (a n c len : Nat) :
    headSample (readSamples m a n c (1 + len)) = readSample m (a + 2 * c) := by
  rw [readSamples, Nat.add_comm, List.range_succ_eq_map, List.map_cons, headSample_cons, Nat.zero_mul,
    Nat.zero_add]

section
variable {s d : State} {n k c : Nat}

/-- ENC_BLOCK's header carries the first sample exactly. -/
theorem codedChannel_sample :
    (codedChannel s n (1 + 8 * k) c).sample = readHalf s.mem (s.src + 2 * c) := by
  rw [codedChannel, encodeChannel, headSample_readSamples, readSample, u16_sext16]

/-- A coded channel whose register is there. -/
theorem codedChannel_of_getElem? {ch : Chan} (hch : s.ch[c]? = some ch) (len : Nat) :
    codedChannel s n len c =
      encodeChannel errMetric s.ctx.la.toNat ch.index (readSamples s.mem s.src n c len) := by
  rw [codedChannel, hch, Option.map_some, Option.getD_some]

/-- The headers ENC_BLOCK writes from legal channels are good. -/
theorem EncBlockReady.readHeader_legal (h : EncBlockReady s n k) (hwf : Memory.wf s.mem = true)
    (hlegal : s.ChannelsLegal) (hc : c < n) :
    (readHeader (encodedBlockState s n k).mem s.dst c).legal = true := by
  obtain ⟨ch, hch⟩ : ∃ ch, s.ch[c]? = some ch := ⟨_, List.getElem?_eq_getElem (hc.trans_le h.nch_le)⟩
  have hindex : ch.index.toNat ≤ 88 := hlegal ch (List.mem_of_getElem? hch)
  rw [h.readHeader_output hwf hc, codedChannel_of_getElem? hch]
  simp [Header.legal, encodeChannel, indexLegal_iff, hindex]

/-- The codes ENC_BLOCK packed read back from its output. -/
theorem EncBlockReady.blockCodes_output (h : EncBlockReady s n k) (hwf : Memory.wf s.mem = true)
    (hc : c < n) : blockCodes (encodedBlockState s n k).mem s.dst n k c =
      (codedChannel s n (1 + 8 * k) c).run.codes := by
  refine (eq_blockCodes _ _ n k c _ codedChannel_codes_length fun j hj b hb => ?_).symm
  rw [h.readByte_chunk hwf hc j b hj hb, earlierCode_packByte, laterCode_packByte]
  have hlen := codedChannel_codes_length (s := s) (n := n) (k := k) (c := c)
  rw [List.getElem?_eq_getElem (by omega), List.getElem?_eq_getElem (by omega),
    List.getD_eq_getElem _ _ (by omega), List.getD_eq_getElem _ _ (by omega)]
  exact ⟨rfl, rfl⟩

/-- A block is short enough for its length to be a positive `COUNT`: it takes about half the bytes of the
samples it codes, and those fit in memory. -/
theorem EncBlockReady.blockLength_lt (h : EncBlockReady s n k) : blockLength n k < 2 ^ 31 := by
  have hinput : s.src + 2 * (1 + 8 * k) * n ≤ 2 ^ 32 := fits_input_bound _ _ _ h.fits
  have hn : n < 256 := h.nch_eq ▸ s.ctx.nch.isLt
  rw [show 2 * (1 + 8 * k) * n = 2 * n + 16 * (n * k) by ring] at hinput
  rw [blockLength, show n * (4 + 4 * k) = 4 * n + 4 * (n * k) by ring]
  omega

/-- A machine over the memory ENC_BLOCK left, with the block as its input, is ready to decode it. -/
theorem EncBlockReady.decBlock_ready (h : EncBlockReady s n k) (hinv : s.Inv)
    (hmem : d.mem = (encodedBlockState s n k).mem) (hsrc : d.args.srcAddr = s.args.dstAddr)
    (hdst : d.args.dstAddr ≠ 0) (hnch : d.args.nch = s.ctx.nch) (hmax : n ≤ d.nchMax)
    (hcount : d.args.count = BitVec.ofNat 32 (blockLength n k))
    (hheaders : d.fits ⟨d.src, 4 * n⟩ noBuffer = true)
    (hfits : d.fits ⟨d.src, 4 * n * (1 + k)⟩ ⟨d.dst, 2 * (1 + 8 * k) * n⟩ = true) :
    DecBlockReady d n k := by
  obtain ⟨hwf, hlegal, -, hctx⟩ := hinv
  rw [State.ContextLegal, if_pos h.valid, h.nch_eq] at hctx
  have hlen : d.count.toNat = 4 * n + 4 * n * k := by
    rw [State.count, hcount, sext32_ofNat _ h.blockLength_lt, Int.toNat_natCast, blockLength]
    ring
  refine
    { src_ne_zero := hsrc ▸ h.dst_ne_zero, dst_ne_zero := hdst, pos := hctx.1, nch_le := hmax
      nch_eq := (congrArg BitVec.toNat hnch).trans h.nch_eq, headers_le := by omega
      chunks_eq := ?_, headers_fit := hheaders, fits := hfits, headers_legal := fun c hc => ?_ }
  · rw [hlen, Nat.add_sub_cancel_left, Nat.mul_div_cancel_left k (by omega)]
  · have hgood := h.readHeader_legal hwf hlegal hc
    rwa [← hmem, ← show d.src = s.dst from congrArg BitVec.toNat hsrc] at hgood

/-- Replaying the codes of a channel from its header gives the encoder's reconstruction and ends in the
encoder's final state. -/
theorem EncBlockReady.decodeRun_output (h : EncBlockReady s n k) (hwf : Memory.wf s.mem = true)
    (hc : c < n) {ch : Chan} (hch : s.ch[c]? = some ch) {w : List Int}
    (hw : w = readSamples s.mem s.src n c (1 + 8 * k)) :
    decodeRun ⟨headSample w, ch.index.toNat⟩ (blockCodes (encodedBlockState s n k).mem s.dst n k c) =
      (reconstruction errMetric s.ctx.la.toNat ⟨headSample w, ch.index.toNat⟩ w.tail,
        (codedChannel s n (1 + 8 * k) c).run.state) := by
  rw [h.blockCodes_output hwf hc, codedChannel_of_getElem? hch, ← hw]
  exact decodeRun_encodeRun ..

/-- The state in the header ENC_BLOCK writes is the one its run started from. -/
theorem EncBlockReady.readHeader_state (h : EncBlockReady s n k) (hwf : Memory.wf s.mem = true)
    (hc : c < n) {ch : Chan} (hch : s.ch[c]? = some ch) {w : List Int}
    (hw : w = readSamples s.mem s.src n c (1 + 8 * k)) :
    (⟨sext16 (readHeader (encodedBlockState s n k).mem s.dst c).sample,
      (readHeader (encodedBlockState s n k).mem s.dst c).index.toNat⟩ : Adaptive) =
      ⟨headSample w, ch.index.toNat⟩ := by
  rw [h.readHeader_output hwf hc, codedChannel_sample, codedChannel_of_getElem? hch, hw,
    headSample_readSamples]
  rfl

end

/-- Settles O36: the decoder reads the encoder's headers and codes, and replaying those gives the
encoder's reconstruction and final states. -/
theorem blockRoundTrip : Obligations.BlockRoundTrip := by
  intro s t d n k hinv hexec hok hn hcount hmem hsrc hdst hnch hmax hdcount hheaders hfits
  obtain ⟨hs, rfl⟩ := encBlock_of_success hexec hok hn hcount
  have hd : DecBlockReady d n k := hs.decBlock_ready hinv hmem hsrc hdst hnch hmax hdcount hheaders hfits
  have hwf : Memory.wf s.mem = true := hinv.1
  have hdwf : Memory.wf d.mem = true := hmem ▸ hs.mem_wf hwf
  have haddr : d.src = s.dst := congrArg BitVec.toNat hsrc
  refine ⟨_, exec_decBlock_of_ready hd, rfl, ?_, fun c hc ch hch w hw => ⟨?_, fun i hi => ?_, ?_⟩⟩
  · have hbound : d.dst + 2 * (1 + 8 * k) * n ≤ 2 ^ 32 := fits_output_bound _ _ _ hfits
    have hle := Nat.le_mul_of_pos_right (2 * (1 + 8 * k)) hd.pos
    exact (BitVec.toNat_ofNat ..).trans (Nat.mod_eq_of_lt (by omega))
  · have hfirst := hd.first_sample hdwf hc
    rw [hmem, haddr, hs.readHeader_output hwf hc, codedChannel_sample] at hfirst
    exact hfirst
  · have hlater := hd.later_sample hdwf hc i hi
    rw [hmem, haddr, hs.readHeader_state hwf hc hch hw, hs.decodeRun_output hwf hc hch hw] at hlater
    exact hlater
  · have hrun := hs.decodeRun_output hwf hc hch hw
    rw [← hmem, ← haddr] at hrun
    exact (hs.ch_output hc).trans (congrArg (fun r => some r.2.chan) hrun.symm)

end Sys2Proof.Machine
end

section
/-! PROOFS. INVALID_PARAM (60_exceptions.md R138, R143): a command that fails changes nothing but `RESULT`
and `OUT_COUNT`, each cause of the table makes its command fail, and no command fails without one. -/

namespace Sys2Proof.Machine

variable {i : Instr} {s t : State}

/-! The failed state (R143). -/

/-- The failed state is the only way a command completes without SUCCESS. -/
theorem Completes.eq_failed (h : Completes s i t) (hi : i.isCommand = true)
    (hres : t.result = .invalidParam) : t = s.failed := by
  cases h with
  | fail => rfl
  | code _ _ _ hcode => exact absurd (hi.symm.trans hcode) (by decide)
  | step | choose | initEnc | initDec | encStream | decStream | ctxCreate | ctxFree | encBlock
  | decBlockCorrupt | decBlock => cases hres

/-- Settles O38: by the ways an instruction can complete. -/
theorem failuresArePrecise : Obligations.FailuresArePrecise :=
  fun i s t hi hexec hres => (exec_completes i s t hexec).eq_failed hi hres

/-! The causes (R138). -/

/-- The channel count the block commands refuse. -/
theorem nchLegal_eq_false_iff (s : State) :
    s.nchLegal = false ↔ s.args.nch.toNat < 1 ∨ s.nchMax < s.args.nch.toNat := by
  rw [← Bool.not_eq_true, nchLegal_iff, not_and_or, Nat.not_le, Nat.not_le]

/-- A run of bytes is refused for one illegal index in it. -/
theorem readBytes_all_indexLegal_eq_false_iff (m : Memory) (a n : Nat) :
    (readBytes m a n).all indexLegal = false ↔ ∃ c < n, 88 < (readByte m (a + c)).toNat := by
  rw [← Bool.not_eq_true, readBytes_all_indexLegal_iff]
  simp only [not_forall, Nat.not_le, exists_prop]

/-- The checks of CTX_CREATE are the causes the table gives it. -/
theorem invalidCause_ctxCreate_iff (s : State) : InvalidCause .ctxCreate s ↔
    s.nchLegal = false ∨ s.srcAbsent = true ∨ (readBytes s.mem s.src s.nchArg).all indexLegal = false := by
  rw [nchLegal_eq_false_iff, srcAbsent_iff, readBytes_all_indexLegal_eq_false_iff, or_assoc]
  exact Iff.rfl

/-- A cause makes its command fail from every state. CTX_CREATE must first be able to read its index
bytes. -/
theorem exec_of_invalidCause (hcreate : i ≠ .ctxCreate) (h : InvalidCause i s) :
    exec i s = .next s.failed := by
  cases i with
  | initEnc => exact (initEncResult s).1 h
  | initDec => exact (initDecResult s).1 h
  | step => exact exec_step_of_noChannel s h
  | choose => exact exec_choose_of_cause s h
  | encStream => exact withStreamParams_of_cause s _ h
  | decStream => exact withStreamParams_of_cause s _ h
  | ctxCreate => exact absurd rfl hcreate
  | encBlock => exact exec_encBlock_of_cause s h
  | decBlock => exact exec_decBlock_of_cause s h
  | reserved0 | reservedB | reservedC | reservedD | reservedE | reservedF =>
    exact (execReserved_next s _ _ (by simp)).2 rfl
  | ctxFree | code0 | code1 | code2 | code3 | code4 | code5 | code6 | code7 | code8 | code9 | codeA
  | codeB | codeC | codeD | codeE | codeF => exact h.elim

/-- A command that completes although a cause holds has failed. For CTX_CREATE, which may stop at its
buffer instead, completing is what says that it read its index bytes. -/
theorem result_of_invalidCause (hexec : exec i s = .next t) (h : InvalidCause i s) :
    t.result = .invalidParam := by
  by_cases hcreate : i = .ctxCreate
  · subst hcreate
    rcases execCtxCreate_next s t hexec with ⟨-, rfl⟩ | ⟨hnch, hsrc, -, hidx, -⟩
    · rfl
    · have hcause := (invalidCause_ctxCreate_iff s).1 h
      simp [hnch, hsrc, hidx] at hcause
  · obtain rfl : s.failed = t := by simpa [exec_of_invalidCause hcreate h] using hexec
    rfl

/-- A command fails for no other reason: its inversion lemma names the check that failed it. -/
theorem invalidCause_of_result (hi : i.isCommand = true) (hexec : exec i s = .next t)
    (hres : t.result = .invalidParam) : InvalidCause i s := by
  cases i with
  | initEnc =>
    rcases (execInitEnc_next s t).1 hexec with ⟨hcause, -⟩ | ⟨-, -, rfl⟩
    · rwa [selected_none_iff, indexLegal_eq_false_iff] at hcause
    · cases hres
  | initDec =>
    rcases (execInitDec_next s t).1 hexec with ⟨hcause, -⟩ | ⟨-, -, rfl⟩
    · rwa [selected_none_iff, indexLegal_eq_false_iff] at hcause
    · cases hres
  | step =>
    rcases (execStep_next s t).1 hexec with ⟨hcause, -⟩ | ⟨_, -, rfl⟩
    · exact (selected_none_iff s).1 hcause
    · cases hres
  | choose =>
    rcases execChoose_next s t hexec with ⟨hcause, -⟩ | ⟨_, -, -, -, -, _, -, rfl⟩
    · rwa [selected_none_iff, srcAbsent_iff] at hcause
    · cases hres
  | encStream =>
    rcases execEncStream_next s t hexec with ⟨hcause, -⟩ | ⟨_, -, -, -, -, -, _, -, rfl⟩
    · rwa [selected_none_iff, srcAbsent_iff, dstAbsent_iff] at hcause
    · cases hres
  | decStream =>
    rcases execDecStream_next s t hexec with ⟨hcause, -⟩ | ⟨_, -, -, -, -, -, _, -, rfl⟩
    · rwa [selected_none_iff, srcAbsent_iff, dstAbsent_iff] at hcause
    · cases hres
  | ctxCreate =>
    rcases execCtxCreate_next s t hexec with ⟨hcause, -⟩ | ⟨-, -, -, -, rfl⟩
    · exact (invalidCause_ctxCreate_iff s).2 hcause
    · cases hres
  | ctxFree =>
    obtain rfl := (execCtxFree_next s t).1 hexec
    cases hres
  | encBlock =>
    rcases execEncBlock_next s t hexec with ⟨hcause, -⟩ | ⟨-, -, -, -, -, -, -, _, -, rfl⟩
    · rwa [srcAbsent_iff, dstAbsent_iff] at hcause
    · cases hres
  | decBlock =>
    rcases execDecBlock_next s t hexec with
      ⟨hcause, -⟩ | ⟨-, -, -, -, ⟨-, rfl⟩ | ⟨-, -, ⟨-, rfl⟩ | ⟨-, _, -, -, rfl⟩⟩⟩
    · rwa [nchLegal_eq_false_iff, srcAbsent_iff, dstAbsent_iff, or_assoc] at hcause
    all_goals cases hres
  | reserved0 | reservedB | reservedC | reservedD | reservedE | reservedF => trivial
  | code0 | code1 | code2 | code3 | code4 | code5 | code6 | code7 | code8 | code9 | codeA | codeB
  | codeC | codeD | codeE | codeF => cases hi

/-- Settles O39: a completed command failed exactly when a cause holds, and a cause alone makes any command
but CTX_CREATE fail. -/
theorem invalidParamCausesComplete : Obligations.InvalidParamCausesComplete :=
  ⟨fun _ _ _ hi hexec => ⟨invalidCause_of_result hi hexec, result_of_invalidCause hexec⟩,
    fun _ _ _ hcreate => exec_of_invalidCause hcreate⟩

end Sys2Proof.Machine
end

section
/-! PROOFS. The platform's reset, and a byte of memory in the host's hands (70_reset_and_hazards.md R151,
R164). -/

namespace Sys2Proof.Machine

/-! Reset. -/

/-- Every channel is at 0 after reset (10_state.md R35). -/
theorem resetBlock_channel (s : State) (c : Chan) (h : c ∈ (resetBlock s).ch) : c = ⟨0, 0⟩ :=
  List.eq_of_mem_replicate h

/-- Reset keeps the number of channels (log 2). -/
@[simp] theorem resetBlock_nchMax (s : State) : (resetBlock s).nchMax = s.nchMax := by
  simp [State.nchMax]

/-- Settles O48: the step takes the reset off the list and answers the reset block. -/
theorem resetClearsRegistersOnly : Obligations.ResetClearsRegistersOnly := by
  intro s rest h
  refine ⟨resetBlock { s with pending := rest }, step_of_pending s .reset rest h, resetBlock_channel _,
    resetBlock_nchMax _, ?_⟩
  simp

/-! A host load or store of one byte. -/

/-- A device refuses the access (20_memory.md R43; log 8). -/
theorem withByte_of_device (s body : State) (a : Nat) (h : s.platform.isDevice a = true) :
    withByte s a body = .refused .deviceAccess := by
  simp [withByte, h]

/-- Off the devices, a byte the platform does not back stops the access (20_memory.md R44; log 8). -/
theorem withByte_of_unbacked (s body : State) (a : Nat) (hdev : s.platform.isDevice a = false)
    (hback : s.platform.backs a = false) : withByte s a body = .fault .unadmittedByte := by
  simp [withByte, hdev, hback]

/-- On memory the access completes. -/
theorem withByte_of_memory (s body : State) (a : Nat) (hdev : s.platform.isDevice a = false)
    (hback : s.platform.backs a = true) : withByte s a body = .next body := by
  simp [withByte, hdev, hback]

/-- Settles O54: both accesses are one check of the address, and where it passes the store is one write
of a canonical memory. -/
theorem hostMemoryAccess : Obligations.HostMemoryAccess := by
  intro s a b hwf
  refine ⟨fun hdev => ?_, fun hdev hback => ?_, fun hdev hback => ⟨?_, ?_⟩⟩
  · exact ⟨withByte_of_device s _ _ hdev, withByte_of_device s _ _ hdev⟩
  · exact ⟨withByte_of_unbacked s _ _ hdev hback, withByte_of_unbacked s _ _ hdev hback⟩
  · have hread := fun k => readByte_writeByte s.mem a.toNat b k hwf
    refine ⟨_, withByte_of_memory s _ _ hdev hback, rfl, ?_, fun k hk => ?_⟩
    · exact (hread a.toNat).trans (if_pos rfl)
    · exact (hread k).trans (if_neg hk)
  · exact ⟨_, withByte_of_memory s _ _ hdev hback, rfl, BitVec.toNat_setWidth_of_le (by decide)⟩

end Sys2Proof.Machine
end
